-- ==== Sys2Proof/Word.lean ====
section
/-! DEFINITION. The value types of the RAU: BitVectors (00_scope.md R9), the 64-bit words of the host window
(20_memory.md R50), the 32-bit command word (30_encoding.md R70) and register numbers (10_state.md R20). -/

namespace Sys2Proof

/-- A BitVector: "an ordered sequence of boolean digits, least-significant bit first" (R9). Its length is
the list's length, bit `i` is element `i`, and the empty list is the empty vector. -/
abbrev BitVector := List Bool

/-- A 64-bit value of the host window: a register of the window, a CMD value, an RNG word (R50, R37, R33). -/
abbrev Word64 := BitVec 64

/-- A 32-bit command word (R70). -/
abbrev CmdWord := BitVec 32

/-- The number of one of the sixteen registers R0 to R15 (R20). -/
abbrev Reg := Fin 16

end Sys2Proof
end

