-- ==== Sys2Proof/Syntax.lean ====
section
/-! DEFINITION. The 24 commands of 30_encoding.md R75, one constructor per row of spec/opcode_table.json. Fields
stand in the assembler's order rd, rs1, rs2, rs3, imm, restricted to those the command uses (R79). -/

namespace Sys2Proof

/-- A command. An immediate is a natural number here; `Instr.wellFormed` says when the 18-bit field can hold it. -/
inductive Instr where
  -- BitVector and conversion commands (40_bitvector.md)
  | clr (rd : Reg)
  | mov (rd rs1 : Reg)
  | wri (rd : Reg)
  | rdi (rs1 : Reg)
  | rdw (rs1 : Reg) (imm : Nat)
  | rdlen (rs1 : Reg)
  | fill (rd : Reg) (imm : Nat)
  | getbit (rs1 : Reg) (imm : Nat)
  | setb (rd : Reg) (imm : Nat)
  | clrb (rd : Reg) (imm : Nat)
  | ispow2 (rs1 : Reg)
  | lsb (rs1 : Reg)
  -- arithmetic commands (41_arithmetic.md)
  | add (rd rs1 rs2 : Reg)
  | addn (rd rs1 : Reg)
  | sub (rd rs1 rs2 : Reg)
  | mul (rd rs1 rs2 : Reg)
  | pow (rd rs1 rs2 : Reg)
  | shl (rd rs1 : Reg) (imm : Nat)
  | shr (rd rs1 : Reg) (imm : Nat)
  -- number-theory commands (42_number_theory.md)
  | gcd (rd rs1 rs2 : Reg)
  | modexp (rd rs1 rs2 rs3 : Reg)
  | mrtest (rs1 : Reg)
  | mrbase (rs1 rs2 : Reg)
  | modinv (rd rs1 rs2 : Reg)
  deriving DecidableEq, Repr

/-- The mnemonic of a command (R75; spec/opcode_table.json). -/
def Instr.mnemonic : Instr → String
  | .clr _ => "CLR"
  | .mov _ _ => "MOV"
  | .wri _ => "WRI"
  | .rdi _ => "RDI"
  | .rdw _ _ => "RDW"
  | .rdlen _ => "RDLEN"
  | .fill _ _ => "FILL"
  | .getbit _ _ => "GETBIT"
  | .setb _ _ => "SETB"
  | .clrb _ _ => "CLRB"
  | .ispow2 _ => "ISPOW2"
  | .lsb _ => "LSB"
  | .add _ _ _ => "ADD"
  | .addn _ _ => "ADDN"
  | .sub _ _ _ => "SUB"
  | .mul _ _ _ => "MUL"
  | .pow _ _ _ => "POW"
  | .shl _ _ _ => "SHL"
  | .shr _ _ _ => "SHR"
  | .gcd _ _ _ => "GCD"
  | .modexp _ _ _ _ => "MODEXP"
  | .mrtest _ => "MRTEST"
  | .mrbase _ _ => "MRBASE"
  | .modinv _ _ _ => "MODINV"

end Sys2Proof
end

