-- ==== Sys2Proof/Config.lean ====
section
/-! DEFINITION. The implementation parameters of 00_scope.md R7 and the fixed values of R8. The parameters are
plain data: a statement about every state holds for every choice of them. -/

namespace Sys2Proof

/-- MUL_SHORTCUT_MODE (R7): which reading of the power-of-two multiply shortcut the unit implements
(41_arithmetic.md R148; 90_conflicts.md C1). -/
inductive MulMode where
  | leftLength  -- `left_length`, the default
  | exact       -- `exact`
  deriving DecidableEq, Repr

/-- The parameters a model of the RAU takes (R7). -/
structure Params where
  maxLen   : Nat      -- MAXLEN, the largest length of a register, in bits
  mrRounds : Nat      -- MR_ROUNDS, the Miller-Rabin round count
  mulMode  : MulMode  -- MUL_SHORTCUT_MODE
  base     : Nat      -- BASE, the host-bus address of the window
  deriving DecidableEq, Repr

/-- The defaults of R7. DESIGN CHOICE (log entry 1, unsafe): R7 leaves BASE OPEN and gives no default; it is 0 here. -/
def Params.default : Params :=
  { maxLen := 4096, mrRounds := 16, mulMode := .leftLength, base := 0 }

/-- NREG, the number of registers (R8). -/
def nreg : Nat := 16

/-- NT_WIDTH, the width of the number-theory operands (R8). -/
def ntWidth : Nat := 64

end Sys2Proof
end

