-- ==== Sys2Proof/WellFormed.lean ====
section
/-! DEFINITION. The checks on commands and parameters: an immediate must fit the 18-bit field (30_encoding.md R74,
R81; 93_implementation_defined.md U14), the parameters must lie in the ranges of 00_scope.md R7. -/

namespace Sys2Proof

/-- The 18-bit unsigned immediate holds 0 to 262143 (R74). -/
def immFits (imm : Nat) : Bool := imm < 2 ^ 18

/-- "an immediate above 262143 cannot be encoded and the assembler refuses it" (R81). Register fields are in range
by their type (R74). -/
def Instr.wellFormed : Instr → Bool
  | .rdw _ k => immFits k
  | .fill _ n => immFits n
  | .getbit _ i => immFits i
  | .setb _ i => immFits i
  | .clrb _ i => immFits i
  | .shl _ _ k => immFits k
  | .shr _ _ k => immFits k
  | .clr _ | .mov _ _ | .wri _ | .rdi _ | .rdlen _ | .ispow2 _ | .lsb _ => true
  | .add _ _ _ | .addn _ _ | .sub _ _ _ | .mul _ _ _ | .pow _ _ _ => true
  | .gcd _ _ _ | .modexp _ _ _ _ | .mrtest _ | .mrbase _ _ | .modinv _ _ _ => true

/-- The ranges of R7: 64 ≤ MAXLEN ≤ 262143, 1 ≤ MR_ROUNDS ≤ 255, BASE 64-byte-aligned. -/
def Params.wellFormed (p : Params) : Bool :=
  64 ≤ p.maxLen && p.maxLen ≤ 262143 && 1 ≤ p.mrRounds && p.mrRounds ≤ 255 && p.base % 64 == 0

end Sys2Proof
end

