-- ==== Sys2Proof/Decode.lean ====
section
/-! DEFINITION. The decoder of 30_encoding.md R78, total on every 64-bit CMD value, then the encoder of R81, the
opcode table of R75 with its match and mask values, and the assembler's spelling (R79). -/

namespace Sys2Proof

/-- Why a CMD value is ILLEGAL, in the order of 60_exceptions.md R228 item 1. Each of them raises E_ILLEGAL at the
command's completion step. -/
inductive Illegal where
  | upperBits       -- bits 63:32 not 0 (R77)
  | reservedOpcode  -- one of the 40 reserved opcodes (R76)
  | mustBeZero      -- a field the command does not use is not 0 (R75)
  deriving DecidableEq, Repr

/-! ## Fields (R71) -/

/-- `op = w[31:26]`. -/
def opOf (w : CmdWord) : BitVec 6 := w.extractLsb' 26 6

/-- `rd = w[25:22]`. -/
def rdOf (w : CmdWord) : Reg := Fin.ofNat 16 (w.extractLsb' 22 4).toNat

/-- `rs1 = w[21:18]`. -/
def rs1Of (w : CmdWord) : Reg := Fin.ofNat 16 (w.extractLsb' 18 4).toNat

/-- `rs2 = w[17:14]`. -/
def rs2Of (w : CmdWord) : Reg := Fin.ofNat 16 (w.extractLsb' 14 4).toNat

/-- `rs3 = w[13:10]`. -/
def rs3Of (w : CmdWord) : Reg := Fin.ofNat 16 (w.extractLsb' 10 4).toNat

/-- `imm = w[17:0]`, unsigned, "never sign-extended, scaled or shifted" (R74). -/
def immOf (w : CmdWord) : Nat := (w.extractLsb' 0 18).toNat

/-- Bits `lo + n - 1` down to `lo` of the word are all 0. -/
def zeroField (w : CmdWord) (lo n : Nat) : Bool := w.extractLsb' lo n == 0#n

/-- A command is valid only if the fields it does not use are 0 (R75). -/
def ifZero (zeros : Bool) (i : Instr) : Except Illegal Instr :=
  if zeros then .ok i else .error .mustBeZero

/-! ## Decoding (R78) -/

/-- The command a 32-bit command word stands for (R75, R76). -/
def decodeWord (w : CmdWord) : Except Illegal Instr :=
  match opOf w with
  | 0x01#6 => ifZero (zeroField w 0 22) (.clr (rdOf w))
  | 0x02#6 => ifZero (zeroField w 0 18) (.mov (rdOf w) (rs1Of w))
  | 0x03#6 => ifZero (zeroField w 0 22) (.wri (rdOf w))
  | 0x04#6 => ifZero (zeroField w 22 4 && zeroField w 0 18) (.rdi (rs1Of w))
  | 0x05#6 => ifZero (zeroField w 22 4) (.rdw (rs1Of w) (immOf w))
  | 0x06#6 => ifZero (zeroField w 22 4 && zeroField w 0 18) (.rdlen (rs1Of w))
  | 0x07#6 => ifZero (zeroField w 18 4) (.fill (rdOf w) (immOf w))
  | 0x08#6 => ifZero (zeroField w 22 4) (.getbit (rs1Of w) (immOf w))
  | 0x09#6 => ifZero (zeroField w 18 4) (.setb (rdOf w) (immOf w))
  | 0x0A#6 => ifZero (zeroField w 18 4) (.clrb (rdOf w) (immOf w))
  | 0x0B#6 => ifZero (zeroField w 22 4 && zeroField w 0 18) (.ispow2 (rs1Of w))
  | 0x0C#6 => ifZero (zeroField w 22 4 && zeroField w 0 18) (.lsb (rs1Of w))
  | 0x10#6 => ifZero (zeroField w 0 14) (.add (rdOf w) (rs1Of w) (rs2Of w))
  | 0x11#6 => ifZero (zeroField w 0 18) (.addn (rdOf w) (rs1Of w))
  | 0x12#6 => ifZero (zeroField w 0 14) (.sub (rdOf w) (rs1Of w) (rs2Of w))
  | 0x13#6 => ifZero (zeroField w 0 14) (.mul (rdOf w) (rs1Of w) (rs2Of w))
  | 0x14#6 => ifZero (zeroField w 0 14) (.pow (rdOf w) (rs1Of w) (rs2Of w))
  | 0x15#6 => .ok (.shl (rdOf w) (rs1Of w) (immOf w))
  | 0x16#6 => .ok (.shr (rdOf w) (rs1Of w) (immOf w))
  | 0x20#6 => ifZero (zeroField w 0 14) (.gcd (rdOf w) (rs1Of w) (rs2Of w))
  | 0x21#6 => ifZero (zeroField w 0 10) (.modexp (rdOf w) (rs1Of w) (rs2Of w) (rs3Of w))
  | 0x22#6 => ifZero (zeroField w 22 4 && zeroField w 0 18) (.mrtest (rs1Of w))
  | 0x23#6 => ifZero (zeroField w 22 4 && zeroField w 0 14) (.mrbase (rs1Of w) (rs2Of w))
  | 0x24#6 => ifZero (zeroField w 0 14) (.modinv (rdOf w) (rs1Of w) (rs2Of w))
  | _ => .error .reservedOpcode

/-- The command word of a CMD value, its bits 31:0 (R70, R77). -/
def commandWordOf (c : Word64) : CmdWord := c.extractLsb' 0 32

/-- The decode function of R78 on a 64-bit CMD value. -/
def decode (c : Word64) : Except Illegal Instr :=
  if c.extractLsb' 32 32 == 0#32 then decodeWord (commandWordOf c) else .error .upperBits

/-! ## Encoding (R81) -/

/-- A register number in its 4-bit field (R71). -/
def regField (r : Reg) : BitVec 4 := BitVec.ofNat 4 r.val

/-- Format R (R72): op, rd, rs1, rs2, rs3, ten zero bits. -/
def formatR (op : BitVec 6) (rd rs1 rs2 rs3 : Reg) : CmdWord :=
  op ++ regField rd ++ regField rs1 ++ regField rs2 ++ regField rs3 ++ 0#10

/-- Format I (R73): op, rd, rs1, imm. -/
def formatI (op : BitVec 6) (rd rs1 : Reg) (imm : Nat) : CmdWord :=
  op ++ regField rd ++ regField rs1 ++ BitVec.ofNat 18 imm

/-- The command word of a command, "with unused fields 0" (R81); it stands for the command when
`Instr.wellFormed` holds. -/
def encode : Instr → CmdWord
  | .clr rd => formatR 0x01#6 rd 0 0 0
  | .mov rd rs1 => formatR 0x02#6 rd rs1 0 0
  | .wri rd => formatR 0x03#6 rd 0 0 0
  | .rdi rs1 => formatR 0x04#6 0 rs1 0 0
  | .rdw rs1 k => formatI 0x05#6 0 rs1 k
  | .rdlen rs1 => formatR 0x06#6 0 rs1 0 0
  | .fill rd n => formatI 0x07#6 rd 0 n
  | .getbit rs1 i => formatI 0x08#6 0 rs1 i
  | .setb rd i => formatI 0x09#6 rd 0 i
  | .clrb rd i => formatI 0x0A#6 rd 0 i
  | .ispow2 rs1 => formatR 0x0B#6 0 rs1 0 0
  | .lsb rs1 => formatR 0x0C#6 0 rs1 0 0
  | .add rd rs1 rs2 => formatR 0x10#6 rd rs1 rs2 0
  | .addn rd rs1 => formatR 0x11#6 rd rs1 0 0
  | .sub rd rs1 rs2 => formatR 0x12#6 rd rs1 rs2 0
  | .mul rd rs1 rs2 => formatR 0x13#6 rd rs1 rs2 0
  | .pow rd rs1 rs2 => formatR 0x14#6 rd rs1 rs2 0
  | .shl rd rs1 k => formatI 0x15#6 rd rs1 k
  | .shr rd rs1 k => formatI 0x16#6 rd rs1 k
  | .gcd rd rs1 rs2 => formatR 0x20#6 rd rs1 rs2 0
  | .modexp rd rs1 rs2 rs3 => formatR 0x21#6 rd rs1 rs2 rs3
  | .mrtest rs1 => formatR 0x22#6 0 rs1 0 0
  | .mrbase rs1 rs2 => formatR 0x23#6 0 rs1 rs2 0
  | .modinv rd rs1 rs2 => formatR 0x24#6 rd rs1 rs2 0

/-- The 64-bit CMD value of a command, bits 63:32 zero (R77; the `zext_64(encode(cmd))` of R80). -/
def encodeCmd (i : Instr) : Word64 := (encode i).setWidth 64

/-- The host's question: the command the decoder reads from an opcode-table word of `nbits` bits, as the 64-bit
value a host writes to CMD with every bit above `nbits` zero (R70, R32). -/
def decodeTableWord (nbits w : Nat) : Option Instr :=
  (decode (BitVec.ofNat 64 (w % 2 ^ nbits))).toOption

/-! ## The opcode table (R75, spec/opcode_table.json) -/

/-- A row of the opcode table: a word stands for the row's command when `(w AND mask) = match` (R78). -/
structure OpcodeRow where
  mnemonic : String
  pat      : CmdWord  -- the row's `match`
  mask     : CmdWord
  deriving DecidableEq, Repr

/-- The word test of R78 for one row. -/
def rowMatches (r : OpcodeRow) (w : CmdWord) : Bool := w &&& r.mask == r.pat

/-- The 24 rows of spec/opcode_table.json, in its order. -/
def opcodeTable : List OpcodeRow :=
  [⟨"CLR", 0x04000000#32, 0xFC3FFFFF#32⟩, ⟨"MOV", 0x08000000#32, 0xFC03FFFF#32⟩,
   ⟨"WRI", 0x0C000000#32, 0xFC3FFFFF#32⟩, ⟨"RDI", 0x10000000#32, 0xFFC3FFFF#32⟩,
   ⟨"RDW", 0x14000000#32, 0xFFC00000#32⟩, ⟨"RDLEN", 0x18000000#32, 0xFFC3FFFF#32⟩,
   ⟨"FILL", 0x1C000000#32, 0xFC3C0000#32⟩, ⟨"GETBIT", 0x20000000#32, 0xFFC00000#32⟩,
   ⟨"SETB", 0x24000000#32, 0xFC3C0000#32⟩, ⟨"CLRB", 0x28000000#32, 0xFC3C0000#32⟩,
   ⟨"ISPOW2", 0x2C000000#32, 0xFFC3FFFF#32⟩, ⟨"LSB", 0x30000000#32, 0xFFC3FFFF#32⟩,
   ⟨"ADD", 0x40000000#32, 0xFC003FFF#32⟩, ⟨"ADDN", 0x44000000#32, 0xFC03FFFF#32⟩,
   ⟨"SUB", 0x48000000#32, 0xFC003FFF#32⟩, ⟨"MUL", 0x4C000000#32, 0xFC003FFF#32⟩,
   ⟨"POW", 0x50000000#32, 0xFC003FFF#32⟩, ⟨"SHL", 0x54000000#32, 0xFC000000#32⟩,
   ⟨"SHR", 0x58000000#32, 0xFC000000#32⟩, ⟨"GCD", 0x80000000#32, 0xFC003FFF#32⟩,
   ⟨"MODEXP", 0x84000000#32, 0xFC0003FF#32⟩, ⟨"MRTEST", 0x88000000#32, 0xFFC3FFFF#32⟩,
   ⟨"MRBASE", 0x8C000000#32, 0xFFC03FFF#32⟩, ⟨"MODINV", 0x90000000#32, 0xFC003FFF#32⟩]

/-! ## Assembler spelling (R79) -/

/-- A register as the assembler spells it, `r0` to `r15`. -/
def asmReg (r : Reg) : String := "r" ++ toString r.val

/-- An immediate as the assembler spells it, `#` and a decimal number. -/
def asmImm (n : Nat) : String := "#" ++ toString n

/-- The operands of a command as the assembler spells them, in the order rd, rs1, rs2, rs3, imm (R79). -/
def asmOperands : Instr → List String
  | .clr rd | .wri rd => [asmReg rd]
  | .rdi rs1 | .rdlen rs1 | .ispow2 rs1 | .lsb rs1 | .mrtest rs1 => [asmReg rs1]
  | .mov rd rs1 | .addn rd rs1 => [asmReg rd, asmReg rs1]
  | .mrbase rs1 rs2 => [asmReg rs1, asmReg rs2]
  | .rdw r n | .fill r n | .getbit r n | .setb r n | .clrb r n => [asmReg r, asmImm n]
  | .add rd rs1 rs2 | .sub rd rs1 rs2 | .mul rd rs1 rs2 | .pow rd rs1 rs2 => [asmReg rd, asmReg rs1, asmReg rs2]
  | .gcd rd rs1 rs2 | .modinv rd rs1 rs2 => [asmReg rd, asmReg rs1, asmReg rs2]
  | .shl rd rs1 k | .shr rd rs1 k => [asmReg rd, asmReg rs1, asmImm k]
  | .modexp rd rs1 rs2 rs3 => [asmReg rd, asmReg rs1, asmReg rs2, asmReg rs3]

/-- A command as the assembler spells it: the mnemonic, then the operands separated by commas (R79). -/
def asmText (i : Instr) : String := i.mnemonic ++ " " ++ ", ".intercalate (asmOperands i)

end Sys2Proof
end

