-- ==== Sys2Proof/Machine/BitVectors.lean ====
section
/-! DEFINITION. The functions on BitVectors of 00_scope.md R10, R11, 40_bitvector.md R101, R102, R107, R113 and
41_arithmetic.md R141 to R153, written as the spec's pseudocode has them. -/

namespace Sys2Proof.Machine

/-! ## Conversion and construction -/

/-- `val(v)`, the sum of `2^i` over the set bit positions `i` (R10, R102). -/
def bvVal : BitVector → Nat
  | [] => 0
  | b :: v => b.toNat + 2 * bvVal v

/-- `bvn(x, n)`, the length-`n` BitVector of `x mod 2^n` (R11). -/
def bvn (x : Nat) : Nat → BitVector
  | 0 => []
  | n + 1 => (x % 2 == 1) :: bvn (x / 2) n

/-- `zext(v, n)`: `v` with zero bits above it up to length `n`; `v` itself when `n ≤ len(v)`, as `fill` "never
truncates" (R11). -/
def zext (v : BitVector) (n : Nat) : BitVector := v ++ List.replicate (n - v.length) false

/-- `bitlen(x)`, the least `n` with `x < 2^n` (R11; `bitlen(0) = 0`, R141). -/
def bitlen (x : Nat) : Nat := if x = 0 then 0 else Nat.log2 x + 1

/-- `dec2bin(x) = bvn(x, bitlen(x))`, the minimal-length standard binary encoding, and `dec2bin(0) = bv"0"` (R101;
90_conflicts.md C7). R101's greedy descent writes the same bits: log entry 6. -/
def dec2bin (x : Nat) : BitVector := if x = 0 then [false] else bvn x (bitlen x)

/-- `isPow2(v)`: exactly one bit across the whole vector is set (R11, R113). -/
def isPow2 (v : BitVector) : Bool := v.count true == 1

/-- The 64-bit group of bits `64k + 63 .. 64k`, zeros above the length (R107; 20_memory.md R52). -/
def bitGroup (v : BitVector) (k : Nat) : Word64 := BitVec.ofNat 64 (bvVal ((v.drop (64 * k)).take 64))

/-! ## Addition and subtraction -/

/-- The ripple of R141 over paired bits, least significant first, with carry in `c`; a final carry-out grows the
result by one set bit. -/
def ripple (c : Bool) : List (Bool × Bool) → BitVector
  | [] => if c then [true] else []
  | (a, b) :: ps => (a ^^ b ^^ c) :: ripple ((a && b) || (c && (a || b))) ps

/-- `add(a, b)` (R141). -/
def bvAdd (a b : BitVector) : BitVector :=
  let w := max a.length b.length
  ripple false ((zext a w).zip (zext b w))

/-- `sub(a, b)` (R144): the wrapped difference, and whether `val(a) < val(b)` (the BORROW of 10_state.md R27). -/
def bvSub (a b : BitVector) : BitVector × Bool :=
  let w := max a.length b.length
  let t := bvAdd ((zext b w).map (!·)) [true]
  ((bvAdd (zext a w) t).take w, bvVal a < bvVal b)

/-! ## Multiplication -/

/-- The loop of R147: over the bits of the left operand from the least significant, with the doubling right value `r`
and the result so far. -/
def egyptianLoop : BitVector → BitVector → BitVector → BitVector
  | [], _, res => res
  | a :: as, r, res => egyptianLoop as (bvAdd r r) (if a then bvAdd res r else res)

/-- `mulEgyptian(a, b)` (R147). -/
def mulEgyptian (a b : BitVector) : BitVector :=
  let l := max a.length b.length
  egyptianLoop (zext a l) (zext b l) (bvn 0 l)

/-- `mulShortcut(a, b)` (R148), in the reading the parameter MUL_SHORTCUT_MODE selects. -/
def mulShortcut (mode : MulMode) (a b : BitVector) : BitVector :=
  match mode with
  | .leftLength => dec2bin (bvVal (if isPow2 a then b else a) * 2 ^ (a.length - 1))
  | .exact => dec2bin (bvVal a * bvVal b)

/-- `mul(a, b)` (R146). -/
def bvMul (mode : MulMode) (a b : BitVector) : BitVector :=
  if isPow2 a || isPow2 b then mulShortcut mode a b else mulEgyptian a b

/-! ## Exponentiation -/

/-- One product of R150, or nothing where it is longer than MAXLEN. -/
def boundedMul (p : Params) (a b : BitVector) : Option BitVector :=
  let r := bvMul p.mulMode a b
  if r.length ≤ p.maxLen then some r else none

/-- The loop of R150, at most `fuel` iterations; nothing where an accumulator or a squared base is longer than MAXLEN. -/
def powLoop (p : Params) : Nat → BitVector → BitVector → Nat → Option BitVector
  | 0, acc, _, _ => some acc
  | fuel + 1, acc, base, e =>
    if e = 0 then some acc else do
      let acc' ← if e % 2 = 1 then boundedMul p acc base else some acc
      let base' ← if e / 2 > 0 then boundedMul p base base else some base
      powLoop p fuel acc' base' (e / 2)

/-- `pow(x, n)` (R150); "the loop runs bitlen(n) times" (R151). Nothing where the pseudocode raises E_LENGTH. -/
def bvPow (p : Params) (x : BitVector) (n : Nat) : Option BitVector := powLoop p (bitlen n) [true] x n

/-! ## Shifts -/

/-- The left shift of R152: `bvn(0, k) ++ a`, the zeros at the low end. -/
def bvShl (a : BitVector) (k : Nat) : BitVector := bvn 0 k ++ a

/-- The right shift of R153: the `k` low bits dropped, `bv"0"` when none is left. -/
def bvShr (a : BitVector) (k : Nat) : BitVector := if a.length ≤ k then [false] else a.drop k

end Sys2Proof.Machine
end

