-- ==== Sys2Proof/Machine/State.lean ====
section
/-! DEFINITION. The state of the RAU (10_state.md) as plain data, the inputs of the agents outside it, the reasons a
step can stop, and the state after reset. -/

namespace Sys2Proof.Machine

/-- The error codes of 60_exceptions.md R220. -/
inductive ErrCode where
  | illegal   -- E_ILLEGAL: the command word is not a valid command
  | empty     -- E_EMPTY: a source operand register is empty
  | domain    -- E_DOMAIN: an argument outside the operation's domain
  | overflow  -- E_OVERFLOW: a value needs more than 64 bits where a 64-bit integer is required
  | length    -- E_LENGTH: a result or target length exceeds MAXLEN
  | busy      -- E_BUSY: CMD written while a command was pending
  deriving DecidableEq, Repr

/-- An accepted command that the unit has not completed: the 64-bit CMD value and the DATA_IN value latched when it was
accepted (10_state.md R37). -/
structure Pending where
  cmd : Word64
  din : Word64
  deriving DecidableEq, Repr

/-- One atomic step of an agent (70_reset_and_hazards.md R261). -/
inductive Input where
  /-- a host read of `width` bytes at a host-bus address -/
  | hostRead (addr width : Nat)
  /-- a host write of `width` bytes at a host-bus address; only an 8-byte write's value is ever used (20_memory.md R51) -/
  | hostWrite (addr width : Nat) (value : Word64)
  /-- a turn of the unit: its completion step, if it is enabled (R256) -/
  | unitTurn
  /-- the RNG delivers one word, any word (10_state.md R33) -/
  | rngWord (word : Word64)
  /-- the hardware reset input (R250) -/
  | hwReset
  deriving DecidableEq, Repr

/-- What the bus answers an access of the host (20_memory.md R51, R55; 60_exceptions.md R233). -/
inductive BusReply where
  | data (value : Word64)  -- an admitted read
  | written                -- an admitted write, whatever the register does with it
  | busError               -- an access R51 does not admit
  deriving DecidableEq, Repr

/-- The only way a step stops. -/
inductive Fault where
  /-- Raised by `hostRead` and `hostWrite` for an access that touches no byte of the 64-byte window, the RAU's only
  address space (20_memory.md R50, R58). DESIGN CHOICE (log entry 5), safe: on the hardware the RAU does not see the
  access and goes on unchanged. -/
  | outsideWindow
  deriving DecidableEq, Repr

/-- The ways a step refuses. -/
inductive Refusal where
  /-- Raised by `exec` for a command whose meaning is not written; safe. No command is refused in this model. -/
  | notModelled (mnemonic : String)
  deriving DecidableEq, Repr

/-- The state. The fields `regs` to `pending` are the whole state record of 10_state.md; `cfg`, `rngWords`, `inputs`
and `reply` are the model's own (log entries 1, 3, 2, 4). -/
structure State where
  /-- the parameters of 00_scope.md R7, which no step changes -/
  cfg      : Params
  /-- R0 to R15 (10_state.md R20) -/
  regs     : Vector BitVector 16
  /-- RES, the result of the last completed test command (R26) -/
  res      : Bool
  /-- BORROW (R27) -/
  borrow   : Bool
  /-- ERR, the sticky error flag (R28) -/
  err      : Bool
  /-- ERRCODE, the code of the first error (R28) -/
  errCode  : BitVec 4
  /-- ERRINFO, the command word of the first error (R36) -/
  errInfo  : CmdWord
  /-- DATA_IN (R34) -/
  dataIn   : Word64
  /-- DATA_OUT (R35) -/
  dataOut  : Word64
  /-- PENDING (R37) -/
  pending  : Option Pending
  /-- the words the RNG has delivered to the pending MRTEST, oldest first (10_state.md R33; 70_reset_and_hazards.md R259) -/
  rngWords : List Word64
  /-- what the agents do next, in order (70_reset_and_hazards.md R261); when it is empty the unit takes its turns -/
  inputs   : List Input
  /-- the bus's answer to the host's last access -/
  reply    : Option BusReply
  deriving DecidableEq, Repr

/-- The state after reset (10_state.md R40), with the default parameters, nothing yet to come from outside and no access
answered. -/
def State.reset : State :=
  { cfg := .default
    regs := Vector.replicate 16 []
    res := false
    borrow := false
    err := false
    errCode := 0#4
    errInfo := 0#32
    dataIn := 0#64
    dataOut := 0#64
    pending := none
    rngWords := []
    inputs := []
    reply := none }

/-- What a step answers. -/
abbrev Answer := Host.Outcome State Fault Refusal

end Sys2Proof.Machine
end

