-- ==== Sys2Proof/Machine/Flags.lean ====
section
/-! DEFINITION. The flags RES and BORROW (10_state.md R26, R27), the error codes' numbers (60_exceptions.md R220) and the words
the host reads as STATUS, CONFIG and ERRINFO (10_state.md R29, R30, R36). -/

namespace Sys2Proof.Machine

/-- The number of an error code (60_exceptions.md R220). -/
def errNumber : ErrCode → BitVec 4
  | .illegal => 1#4
  | .empty => 2#4
  | .domain => 3#4
  | .overflow => 4#4
  | .length => 5#4
  | .busy => 6#4

/-- The state with RES written, which only the test commands do (R26). -/
def setRes (s : State) (b : Bool) : State := { s with res := b }

/-- The state with BORROW written, which only SUB does (R27). -/
def setBorrow (s : State) (b : Bool) : State := { s with borrow := b }

/-- BUSY: PENDING is not none (R29, R37). -/
def busy (s : State) : Bool := s.pending.isSome

/-- STATUS (R29): BUSY, ERR, RES and BORROW in bits 0 to 3, ERRCODE in bits 11:8, every other bit 0. -/
def statusWord (s : State) : Word64 :=
  0#52 ++ s.errCode ++ 0#4 ++ BitVec.ofBool s.borrow ++ BitVec.ofBool s.res ++ BitVec.ofBool s.err ++ BitVec.ofBool (busy s)

/-- CONFIG bit 32 (R30). -/
def modeBit : MulMode → BitVec 1
  | .leftLength => 0#1
  | .exact => 1#1

/-- CONFIG (R30): MAXLEN in bits 23:0, MR_ROUNDS in 31:24, the multiply mode in 32, the register count in 47:40, NT_WIDTH in 55:48. -/
def configWord (p : Params) : Word64 :=
  0#8 ++ BitVec.ofNat 8 ntWidth ++ BitVec.ofNat 8 nreg ++ 0#7 ++ modeBit p.mulMode ++ BitVec.ofNat 8 p.mrRounds ++
    BitVec.ofNat 24 p.maxLen

/-- ERRINFO as the host reads it, bits 63:32 zero (R36). -/
def errInfoWord (s : State) : Word64 := s.errInfo.setWidth 64

end Sys2Proof.Machine
end

