-- ==== Sys2Proof/Machine/Operands.lean ====
section
/-! DEFINITION. Reading a command's operands, each form the spec gives, with its checks in the order of 60_exceptions.md R228:
emptiness of rs1, rs2, rs3, then the 64-bit range of rs1, rs2, rs3. An error stands for `raise` (00_scope.md R14). -/

namespace Sys2Proof.Machine

/-- `x[i]`: what register `Ri` holds (00_scope.md R12). The destination operands of FILL, SETB and CLRB and the source of
RDLEN are read so, with no emptiness check (10_state.md R23). -/
def regVal (s : State) (r : Reg) : BitVector := s.regs[r.val]

/-- A register read as a BitVector operand: E_EMPTY when it is empty (10_state.md R23). -/
def operand (s : State) (r : Reg) : Except ErrCode BitVector :=
  if (regVal s r).isEmpty then .error .empty else .ok (regVal s r)

/-- Two BitVector operands, rs1 checked first (R228 item 2). -/
def operands2 (s : State) (r1 r2 : Reg) : Except ErrCode (BitVector × BitVector) := do
  let a ← operand s r1
  let b ← operand s r2
  return (a, b)

/-- A value admitted as a 64-bit integer, whatever its length: E_OVERFLOW at 2^64 and above (10_state.md R24; 40_bitvector.md
R102). -/
def toInt64 (v : BitVector) : Except ErrCode Nat :=
  if bvVal v < 2 ^ ntWidth then .ok (bvVal v) else .error .overflow

/-- One NT operand (42_number_theory.md R180); RDI reads its source so too (10_state.md R24). -/
def ntOperand (s : State) (r1 : Reg) : Except ErrCode Nat := do
  let a ← operand s r1
  toInt64 a

/-- Two NT operands: all emptiness checks before any range check (R180, R228). -/
def ntOperands2 (s : State) (r1 r2 : Reg) : Except ErrCode (Nat × Nat) := do
  let a ← operand s r1
  let b ← operand s r2
  let x ← toInt64 a
  let y ← toInt64 b
  return (x, y)

/-- Three NT operands (R180, R228). -/
def ntOperands3 (s : State) (r1 r2 r3 : Reg) : Except ErrCode (Nat × Nat × Nat) := do
  let a ← operand s r1
  let b ← operand s r2
  let c ← operand s r3
  let x ← toInt64 a
  let y ← toInt64 b
  let z ← toInt64 c
  return (x, y, z)

/-- DIN, the DATA_IN value latched when the command was accepted (10_state.md R34). With nothing pending, which no step gives
a command, it is the present DATA_IN (log entry 8). -/
def latchedDin (s : State) : Nat :=
  match s.pending with
  | some p => p.din.toNat
  | none => s.dataIn.toNat

/-- A command's check (`if …: raise`): the error `c` unless the condition holds. -/
def require (cond : Bool) (c : ErrCode) : Except ErrCode Unit :=
  if cond then .ok () else .error c

/-- A result checked against MAXLEN before it is written: E_LENGTH when it is longer (10_state.md R22; 41_arithmetic.md R140). -/
def bounded (s : State) (v : BitVector) : Except ErrCode BitVector := do
  require (v.length ≤ s.cfg.maxLen) .length
  return v

/-- A partial function's result, or the error its pseudocode raises where it has none. -/
def orRaise {α : Type} (c : ErrCode) : Option α → Except ErrCode α
  | some a => .ok a
  | none => .error c

end Sys2Proof.Machine
end

