-- ==== Sys2Proof/Machine/Ops.lean ====
section
/-! DEFINITION. The named operations over the state: writing results, ending a command, TAKING AN ERROR (60_exceptions.md R224, the
RAU's exception entry) and reset, the only way back from it (R225; 70_reset_and_hazards.md R250, R251). -/

namespace Sys2Proof.Machine

/-- `x[i] <- v` (00_scope.md R12); no other register changes (10_state.md R20). -/
def setReg (s : State) (r : Reg) (v : BitVector) : State := { s with regs := s.regs.set r.val v }

/-- DATA_OUT written, which only RDI, RDW and RDLEN do (10_state.md R35). -/
def setDataOut (s : State) (v : Word64) : State := { s with dataOut := v }

/-! ## Ending a command -/

/-- `PENDING <- none` (70_reset_and_hazards.md R256); the words delivered to the command go with it, none is kept for a later
MRTEST (R259, R252). -/
def retire (s : State) : State := { s with pending := none, rngWords := [] }

/-- The command word an error of the pending command records (60_exceptions.md R222). With nothing pending, which no step gives a
command, it is 0 (log entry 8). -/
def pendingWord (s : State) : CmdWord :=
  match s.pending with
  | some p => commandWordOf p.cmd
  | none => 0#32

/-- Taking an error: `enterError(c, word)` of R224. The first error is kept. -/
def enterError (s : State) (c : ErrCode) (word : CmdWord) : State :=
  if s.err then s else { s with err := true, errCode := errNumber c, errInfo := word }

/-- The end of a completion step (R256): all the command's writes together, or, where it raised, the error and no write of the
command (60_exceptions.md R223). -/
def complete (s : State) (r : Except ErrCode State) : Answer :=
  match r with
  | .ok s' => .next (retire s')
  | .error c => .next (retire (enterError s c (pendingWord s)))

/-! ## Reset -/

/-- The reset state of 10_state.md R40, entered by a hardware reset (R250) and by a soft reset (R251). CONFIG does not change (R30);
what the outside agents do next and the bus's answer are not the unit's. -/
def resetUnit (s : State) : State :=
  { State.reset with cfg := s.cfg, inputs := s.inputs, reply := s.reply }

end Sys2Proof.Machine
end

