-- ==== Sys2Proof/Machine/HostWindow.lean ====
section
/-! DEFINITION. The 64-byte host window (20_memory.md R50 to R56; 10_state.md R29 to R38): selecting a register, reading and
writing it, and the acceptance of a command (70_reset_and_hazards.md R255). -/

namespace Sys2Proof.Machine

/-- The eight registers of the window (10_state.md, table before R29). -/
inductive WindowReg where
  | config | ctrl | status | cmd | dataIn | dataOut | errInfo | reserved
  deriving DecidableEq, Repr

/-- The register at a byte offset of the window (10_state.md, table before R29). -/
def windowRegAt : Nat → Option WindowReg
  | 0x00 => some .config
  | 0x08 => some .ctrl
  | 0x10 => some .status
  | 0x18 => some .cmd
  | 0x20 => some .dataIn
  | 0x28 => some .dataOut
  | 0x30 => some .errInfo
  | 0x38 => some .reserved
  | _ => none

/-- What an access of the host is to the RAU. -/
inductive Access where
  | outside             -- it touches no byte of the window
  | refused             -- it touches the window and is not admitted: a bus error (20_memory.md R51)
  | admits (r : WindowReg)
  deriving DecidableEq, Repr

/-- An access of `width` bytes at `addr` touches a byte of the window `BASE .. BASE + 63` (R50). -/
def touchesWindow (p : Params) (addr width : Nat) : Bool := addr < p.base + 64 && p.base < addr + width

/-- R51: only 8-byte accesses at an offset of {0x00, 0x08, …, 0x38} are admitted. -/
def selectAccess (p : Params) (addr width : Nat) : Access :=
  if touchesWindow p addr width then
    if width = 8 ∧ p.base ≤ addr then
      match windowRegAt (addr - p.base) with
      | some r => .admits r
      | none => .refused
    else .refused
  else .outside

/-- A read of a window register; it has no side effect (R56). CTRL, CMD and the reserved offset read 0 (10_state.md R31, R32, R38). -/
def readWindow (s : State) : WindowReg → Word64
  | .config => configWord s.cfg
  | .ctrl => 0#64
  | .status => statusWord s
  | .cmd => 0#64
  | .dataIn => s.dataIn
  | .dataOut => s.dataOut
  | .errInfo => errInfoWord s
  | .reserved => 0#64

/-- The byte lane `k` of a 64-bit access carries bits `8k+7 .. 8k` of the register (20_memory.md R53). -/
def byteLane (v : Word64) (k : Nat) : BitVec 8 := v.extractLsb' (8 * k) 8

/-- A write of CMD (70_reset_and_hazards.md R255): discarded in the sticky error state, E_BUSY while a command is pending,
otherwise accepted with the present DATA_IN latched. -/
def offerCommand (s : State) (c : Word64) : State :=
  if s.err then s
  else if busy s then enterError s .busy (commandWordOf c)
  else { s with pending := some ⟨c, s.dataIn⟩ }

/-- A write of CTRL (10_state.md R31): a value with bit 0 set resets the unit (70_reset_and_hazards.md R251). -/
def writeCtrl (s : State) (v : Word64) : State := if v.getLsbD 0 then resetUnit s else s

/-- A write of a window register (20_memory.md R56): CTRL and CMD act, DATA_IN stores, every other write is ignored. -/
def writeWindow (s : State) (v : Word64) : WindowReg → State
  | .ctrl => writeCtrl s v
  | .cmd => offerCommand s v
  | .dataIn => { s with dataIn := v }
  | .config | .status | .dataOut | .errInfo | .reserved => s

/-- `MemRead(addr, width)` (00_scope.md R13): the value, or a bus error that changes nothing of the RAU (20_memory.md R51). -/
def hostReads (s : State) (addr width : Nat) : Answer :=
  match selectAccess s.cfg addr width with
  | .outside => .fault .outsideWindow
  | .refused => .next { s with reply := some .busError }
  | .admits r => .next { s with reply := some (.data (readWindow s r)) }

/-- `MemWrite(addr, width, v)` (00_scope.md R13). -/
def hostWrites (s : State) (addr width : Nat) (v : Word64) : Answer :=
  match selectAccess s.cfg addr width with
  | .outside => .fault .outsideWindow
  | .refused => .next { s with reply := some .busError }
  | .admits r => .next { writeWindow s v r with reply := some .written }

end Sys2Proof.Machine
end

