-- ==== Sys2Proof/Machine/ArithmeticCommands.lean ====
section
/-! DEFINITION. The meanings of the arithmetic commands, 41_arithmetic.md R142, R143, R145, R149, R151 to R153, one definition
each. -/

namespace Sys2Proof.Machine

/-- ADD (R142). -/
def execAdd (rd rs1 rs2 : Reg) (s : State) : Answer :=
  complete s do
    let (a, b) ← operands2 s rs1 rs2
    let r ← bounded s (bvAdd a b)
    return setReg s rd r

/-- ADDN (R143). -/
def execAddn (rd rs1 : Reg) (s : State) : Answer :=
  complete s do
    let a ← operand s rs1
    let r ← bounded s (bvAdd a (dec2bin (latchedDin s)))
    return setReg s rd r

/-- SUB (R145). -/
def execSub (rd rs1 rs2 : Reg) (s : State) : Answer :=
  complete s do
    let (a, b) ← operands2 s rs1 rs2
    let (r, brw) := bvSub a b
    return setBorrow (setReg s rd r) brw

/-- MUL (R149). -/
def execMul (rd rs1 rs2 : Reg) (s : State) : Answer :=
  complete s do
    let (a, b) ← operands2 s rs1 rs2
    let r ← bounded s (bvMul s.cfg.mulMode a b)
    return setReg s rd r

/-- POW (R151): the exponent is the value of any length. -/
def execPow (rd rs1 rs2 : Reg) (s : State) : Answer :=
  complete s do
    let (x, n) ← operands2 s rs1 rs2
    let r ← orRaise .length (bvPow s.cfg x (bvVal n))
    return setReg s rd r

/-- SHL (R152). -/
def execShl (rd rs1 : Reg) (k : Nat) (s : State) : Answer :=
  complete s do
    let a ← operand s rs1
    require (a.length + k ≤ s.cfg.maxLen) .length
    return setReg s rd (bvShl a k)

/-- SHR (R153). -/
def execShr (rd rs1 : Reg) (k : Nat) (s : State) : Answer :=
  complete s do
    let a ← operand s rs1
    return setReg s rd (bvShr a k)

end Sys2Proof.Machine
end

