-- ==== Sys2Proof/Machine/BitVectorCommands.lean ====
section
/-! DEFINITION. The meanings of the BitVector and conversion commands, 40_bitvector.md R103 to R114, one definition each. -/

namespace Sys2Proof.Machine

/-- CLR (R103). -/
def execClr (rd : Reg) (s : State) : Answer :=
  complete s (.ok (setReg s rd []))

/-- MOV (R104). -/
def execMov (rd rs1 : Reg) (s : State) : Answer :=
  complete s do
    let v ← operand s rs1
    return setReg s rd v

/-- WRI (R105). -/
def execWri (rd : Reg) (s : State) : Answer :=
  complete s (.ok (setReg s rd (dec2bin (latchedDin s))))

/-- RDI (R106). -/
def execRdi (rs1 : Reg) (s : State) : Answer :=
  complete s do
    let x ← ntOperand s rs1
    return setDataOut s (BitVec.ofNat 64 x)

/-- RDW (R107). -/
def execRdw (rs1 : Reg) (k : Nat) (s : State) : Answer :=
  complete s do
    let v ← operand s rs1
    return setDataOut s (bitGroup v k)

/-- RDLEN (R108). -/
def execRdlen (rs1 : Reg) (s : State) : Answer :=
  complete s (.ok (setDataOut s (BitVec.ofNat 64 (regVal s rs1).length)))

/-- FILL (R109). -/
def execFill (rd : Reg) (n : Nat) (s : State) : Answer :=
  complete s do
    require (n ≤ s.cfg.maxLen) .length
    let v := regVal s rd
    return if n > v.length then setReg s rd (zext v n) else s

/-- GETBIT (R110). -/
def execGetbit (rs1 : Reg) (i : Nat) (s : State) : Answer :=
  complete s do
    let v ← operand s rs1
    let b ← orRaise .domain v[i]?
    return setRes s b

/-- Writing bit `i` of register rd, length unchanged; E_DOMAIN when the register has no bit `i` (R111, R112). -/
def writeBit (s : State) (rd : Reg) (i : Nat) (b : Bool) : Except ErrCode State := do
  let v := regVal s rd
  require (i < v.length) .domain
  return setReg s rd (v.set i b)

/-- SETB (R111). -/
def execSetb (rd : Reg) (i : Nat) (s : State) : Answer :=
  complete s (writeBit s rd i true)

/-- CLRB (R112). -/
def execClrb (rd : Reg) (i : Nat) (s : State) : Answer :=
  complete s (writeBit s rd i false)

/-- ISPOW2 (R113). -/
def execIspow2 (rs1 : Reg) (s : State) : Answer :=
  complete s do
    let v ← operand s rs1
    return setRes s (isPow2 v)

/-- LSB (R114): bit 0 of a non-empty register. -/
def execLsb (rs1 : Reg) (s : State) : Answer :=
  complete s do
    let v ← operand s rs1
    return setRes s (v.headD false)

end Sys2Proof.Machine
end

