-- ==== Sys2Proof/Machine/NumberTheory.lean ====
section
/-! DEFINITION. The number-theory functions of 42_number_theory.md R181 to R190 on mathematical integers, written as the
spec's pseudocode has them. A `while` loop carries a fuel that its own variant bounds (log entry 7). -/

namespace Sys2Proof.Machine

/-! ## Greatest common divisor -/

/-- The Euclidean loop of R181, at most `fuel` iterations. -/
def gcdLoop : Nat → Nat → Nat → Nat
  | 0, a, _ => a
  | fuel + 1, a, b => if b = 0 then a else gcdLoop fuel b (a % b)

/-- `gcd(a, b)` (R181): the second operand falls in every iteration. -/
def ntGcd (a b : Nat) : Nat := gcdLoop (b + 1) a b

/-! ## Modular exponentiation -/

/-- The square-and-multiply loop of R183, at most `fuel` iterations. -/
def modexpLoop (m : Nat) : Nat → Nat → Nat → Nat → Nat
  | 0, result, _, _ => result
  | fuel + 1, result, base, e =>
    if e = 0 then result
    else modexpLoop m fuel (if e % 2 = 1 then result * base % m else result) (base * base % m) (e / 2)

/-- `modexp(b, e, m)` for `m ≥ 1` (R183): the exponent halves in every iteration. -/
def ntModexp (b e m : Nat) : Nat := modexpLoop m (bitlen e) (1 % m) (b % m) e

/-! ## Miller-Rabin -/

/-- The halving loop of R185, at most `fuel` iterations: from `(d, r)` to the odd part and the count of halvings. -/
def decompLoop : Nat → Nat → Nat → Nat × Nat
  | 0, d, r => (d, r)
  | fuel + 1, d, r => if d % 2 = 0 then decompLoop fuel (d / 2) (r + 1) else (d, r)

/-- `decomp(x)` for odd `x ≥ 3` (R185): `x − 1 = d · 2^r` with `d` odd. -/
def decomp (x : Nat) : Nat × Nat := decompLoop (bitlen (x - 1)) (x - 1) 0

/-- The squarings of R186, at most `n` of them: passed when one equals `x − 1`, failed when one equals 1 or none is left. -/
def squarings (x : Nat) : Nat → Nat → Bool
  | 0, _ => false
  | n + 1, y =>
    let y' := y * y % x
    if y' = x - 1 then true else if y' = 1 then false else squarings x n y'

/-- `mrRound(x, a)` for odd `x ≥ 3` (R186); true is PASS. -/
def mrRound (x a : Nat) : Bool :=
  let (d, r) := decomp x
  let y := ntModexp a d x
  if y = 1 ∨ y = x - 1 then true else squarings x (r - 1) y

/-- `mrBaseOf(w, x) = 2 + (w mod max(1, x − 3))` (R187). -/
def mrBaseOf (w : Word64) (x : Nat) : Nat := 2 + w.toNat % max 1 (x - 3)

/-- "Reject x < 3 or even x outright" (R188, R189). -/
def mrRejects (x : Nat) : Bool := x < 3 || x % 2 == 0

/-- The rounds of R188, `n` of them left to run, over the words the RNG has delivered: the result when it is decided, nothing
when the next round needs a word that has not come. -/
def mrRounds (x : Nat) : Nat → List Word64 → Option Bool
  | 0, _ => some true
  | _ + 1, [] => none
  | n + 1, w :: ws => if mrRound x (mrBaseOf w x) then mrRounds x n ws else some false

/-! ## Modular inverse -/

/-- The extended Euclidean loop of R190, at most `fuel` iterations, over the remainder, x- and y-sequences; it answers the last
`(old_r, old_t)`. The x-sequence (`s`) is tracked and unused (90_conflicts.md C8). -/
def eeaLoop : Nat → (Int × Int) → (Int × Int) → (Int × Int) → Int × Int
  | 0, (oldR, _), _, (oldT, _) => (oldR, oldT)
  | fuel + 1, (oldR, r), (oldS, s), (oldT, t) =>
    if r = 0 then (oldR, oldT)
    else
      let q := oldR / r
      eeaLoop fuel (r, oldR - q * r) (s, oldS - q * s) (t, oldT - q * t)

/-- `modinv(e, phi)` (R190); nothing where the pseudocode raises E_DOMAIN. -/
def ntModinv (e phi : Nat) : Option Nat :=
  if phi = 0 then none
  else
    let (oldR, oldT) := eeaLoop (e + 1) (phi, e) (1, 0) (0, 1)
    if oldR ≠ 1 then none
    else
      let d := if oldT < 0 then oldT + phi else oldT
      some (d % phi).toNat

end Sys2Proof.Machine
end

