-- ==== Sys2Proof/Machine/NumberTheoryCommands.lean ====
section
/-! DEFINITION. The meanings of the number-theory commands, 42_number_theory.md R182, R184, R188, R189, R191, one definition each. -/

namespace Sys2Proof.Machine

/-- GCD (R182). -/
def execGcd (rd rs1 rs2 : Reg) (s : State) : Answer :=
  complete s do
    let (a, b) ← ntOperands2 s rs1 rs2
    return setReg s rd (dec2bin (ntGcd a b))

/-- MODEXP (R184). -/
def execModexp (rd rs1 rs2 rs3 : Reg) (s : State) : Answer :=
  complete s do
    let (b, e, m) ← ntOperands3 s rs1 rs2 rs3
    require (m ≠ 0) .domain
    return setReg s rd (dec2bin (ntModexp b e m))

/-- What an MRTEST of register rs1 comes to with the RNG words delivered so far (R188): an error of its operand, a result, or
nothing while the next round still needs a word (70_reset_and_hazards.md R259). -/
def mrtestOutcome (rs1 : Reg) (s : State) : Except ErrCode (Option Bool) := do
  let x ← ntOperand s rs1
  return if mrRejects x then some false else mrRounds x s.cfg.mrRounds s.rngWords

/-- MRTEST (R188). While it waits for a word the state does not change and BUSY stays 1 (70_reset_and_hazards.md R259;
60_exceptions.md R232). -/
def execMrtest (rs1 : Reg) (s : State) : Answer :=
  match mrtestOutcome rs1 s with
  | .error c => complete s (.error c)
  | .ok (some b) => complete s (.ok (setRes s b))
  | .ok none => .next s

/-- MRBASE (R189): the base is used as given. -/
def execMrbase (rs1 rs2 : Reg) (s : State) : Answer :=
  complete s do
    let (x, a) ← ntOperands2 s rs1 rs2
    return setRes s (if mrRejects x then false else mrRound x a)

/-- MODINV (R191). -/
def execModinv (rd rs1 rs2 : Reg) (s : State) : Answer :=
  complete s do
    let (e, phi) ← ntOperands2 s rs1 rs2
    let d ← orRaise .domain (ntModinv e phi)
    return setReg s rd (dec2bin d)

end Sys2Proof.Machine
end

