-- ==== Sys2Proof/Machine/Dispatch.lean ====
section
/-! DEFINITION. What the unit's completion step does for each command (70_reset_and_hazards.md R256), one arm per command. -/

namespace Sys2Proof.Machine

def exec (i : Instr) (s : State) : Host.Outcome State Fault Refusal :=
  match i with
  -- BitVector and conversion commands (40_bitvector.md)
  | .clr rd => Sys2Proof.Machine.execClr rd s
  | .mov rd rs1 => Sys2Proof.Machine.execMov rd rs1 s
  | .wri rd => Sys2Proof.Machine.execWri rd s
  | .rdi rs1 => Sys2Proof.Machine.execRdi rs1 s
  | .rdw rs1 k => Sys2Proof.Machine.execRdw rs1 k s
  | .rdlen rs1 => Sys2Proof.Machine.execRdlen rs1 s
  | .fill rd n => Sys2Proof.Machine.execFill rd n s
  | .getbit rs1 k => Sys2Proof.Machine.execGetbit rs1 k s
  | .setb rd k => Sys2Proof.Machine.execSetb rd k s
  | .clrb rd k => Sys2Proof.Machine.execClrb rd k s
  | .ispow2 rs1 => Sys2Proof.Machine.execIspow2 rs1 s
  | .lsb rs1 => Sys2Proof.Machine.execLsb rs1 s
  -- arithmetic commands (41_arithmetic.md)
  | .add rd rs1 rs2 => Sys2Proof.Machine.execAdd rd rs1 rs2 s
  | .addn rd rs1 => Sys2Proof.Machine.execAddn rd rs1 s
  | .sub rd rs1 rs2 => Sys2Proof.Machine.execSub rd rs1 rs2 s
  | .mul rd rs1 rs2 => Sys2Proof.Machine.execMul rd rs1 rs2 s
  | .pow rd rs1 rs2 => Sys2Proof.Machine.execPow rd rs1 rs2 s
  | .shl rd rs1 k => Sys2Proof.Machine.execShl rd rs1 k s
  | .shr rd rs1 k => Sys2Proof.Machine.execShr rd rs1 k s
  -- number-theory commands (42_number_theory.md)
  | .gcd rd rs1 rs2 => Sys2Proof.Machine.execGcd rd rs1 rs2 s
  | .modexp rd rs1 rs2 rs3 => Sys2Proof.Machine.execModexp rd rs1 rs2 rs3 s
  | .mrtest rs1 => Sys2Proof.Machine.execMrtest rs1 s
  | .mrbase rs1 rs2 => Sys2Proof.Machine.execMrbase rs1 rs2 s
  | .modinv rd rs1 rs2 => Sys2Proof.Machine.execModinv rd rs1 rs2 s

end Sys2Proof.Machine
end

