-- ==== Sys2Proof/Machine/Unit.lean ====
section
/-! DEFINITION. The unit's completion step (70_reset_and_hazards.md R256) and the RNG's delivery of a word (R259). -/

namespace Sys2Proof.Machine

/-- `complete()` of R256: nothing is done with no command pending; an ILLEGAL CMD value raises E_ILLEGAL; a command runs. -/
def completionStep (s : State) : Answer :=
  match s.pending with
  | none => .next s
  | some p =>
    match decode p.cmd with
    | .ok i => exec i s
    | .error _ => complete s (.error .illegal)

/-- The pending command is an MRTEST whose next round needs a word: "Only MRTEST requests words", one at a time (10_state.md R33;
70_reset_and_hazards.md R259). -/
def wantsWord (s : State) : Bool :=
  match s.pending with
  | none => false
  | some p =>
    match decode p.cmd with
    | .ok (.mrtest rs1) => mrtestOutcome rs1 s == .ok none
    | _ => false

/-- The RNG delivers a word: a waiting MRTEST takes it (R259). DEDUCED (log entry 3, unsafe): a word nobody asked for is discarded, as
R252 says of one after a reset. -/
def deliver (s : State) (w : Word64) : State :=
  if wantsWord s then { s with rngWords := s.rngWords ++ [w] } else s

end Sys2Proof.Machine
end

