-- ==== Sys2Proof/Machine/Agents.lean ====
section
/-! DEFINITION. One atomic step of an agent (70_reset_and_hazards.md R261), and the command a fetch would place: an accepted CMD
write. -/

namespace Sys2Proof.Machine

/-- What one input does (R261): a host access, the unit's turn, an RNG word, a hardware reset (R250). -/
def react (s : State) : Input → Answer
  | .hostRead addr width => hostReads s addr width
  | .hostWrite addr width v => hostWrites s addr width v
  | .unitTurn => completionStep s
  | .rngWord w => .next (deliver s w)
  | .hwReset => .next (resetUnit s)

/-- The agents' next step: the first input, or the unit's turn when nothing comes from outside (log entry 2). -/
def agentStep (s : State) : Answer :=
  match s.inputs with
  | [] => completionStep s
  | i :: rest => react { s with inputs := rest } i

/-- The state in which the command word `w` of `nbits` bits has just been accepted, DATA_IN latched (70_reset_and_hazards.md R255), and
the unit moves next: by itself when no input is left, otherwise by a turn put before the inputs. -/
def placeCommand (s : State) (nbits w : Nat) : State :=
  { s with
    pending := some ⟨BitVec.ofNat 64 (w % 2 ^ nbits), s.dataIn⟩
    inputs := if s.inputs.isEmpty then [] else .unitTurn :: s.inputs }

end Sys2Proof.Machine
end

