-- ==== Sys2Proof/Machine/Step.lean ====
section
/-! DEFINITION. The machine's step and the host's placing of a command where the next step runs it. -/

namespace Sys2Proof.Machine

/-- One atomic step of a run (70_reset_and_hazards.md R261). -/
def step (s : State) : Host.Outcome State Fault Refusal := agentStep s

/-- The RAU fetches nothing (10_state.md R25): the command is placed as PENDING, as an accepted CMD write leaves it, with the unit's turn
next (log entry 2). -/
def State.withFetchWord (s : State) (nbits w : Nat) : State := placeCommand s nbits w

end Sys2Proof.Machine
end

