-- ==== Sys2Proof/Machine/HostProgram.lean ====
section
/-! DEFINITION. The host pseudo-instructions of 30_encoding.md R80, as the inputs they make. A WAIT polls STATUS until BUSY = 0; how often it
polls before the unit completes is free (70_reset_and_hazards.md R260), so each takes the number of early polls (log entry 9). -/

namespace Sys2Proof.Machine

/-- `MemRead(BASE + off, 8)` (00_scope.md R13). -/
def memRead (base off : Nat) : Input := .hostRead (base + off) 8

/-- `MemWrite(BASE + off, 8, v)` (00_scope.md R13). -/
def memWrite (base off : Nat) (v : Word64) : Input := .hostWrite (base + off) 8 v

/-- `WAIT`: `early` polls of STATUS that still find BUSY = 1, the unit's completion step, and the poll that finds BUSY = 0. -/
def waitSeq (base early : Nat) : List Input :=
  List.replicate early (memRead base 0x10) ++ [.unitTurn, memRead base 0x10]

/-- `ISSUE <cmd>`. -/
def issueSeq (base early : Nat) (i : Instr) : List Input := memWrite base 0x18 (encodeCmd i) :: waitSeq base early

/-- `LI rd, #x`. -/
def liSeq (base early : Nat) (rd : Reg) (x : Word64) : List Input :=
  memWrite base 0x20 x :: issueSeq base early (.wri rd)

/-- `ADDI rd, rs1, #x`. -/
def addiSeq (base early : Nat) (rd rs1 : Reg) (x : Word64) : List Input :=
  memWrite base 0x20 x :: issueSeq base early (.addn rd rs1)

/-- `GET rs1 -> h`: the value is the bus's answer to the last read. -/
def getSeq (base early : Nat) (rs1 : Reg) : List Input := issueSeq base early (.rdi rs1) ++ [memRead base 0x28]

/-- `GETW rs1, #k -> h`. -/
def getwSeq (base early : Nat) (rs1 : Reg) (k : Nat) : List Input := issueSeq base early (.rdw rs1 k) ++ [memRead base 0x28]

/-- `GETLEN rs1 -> h`. -/
def getlenSeq (base early : Nat) (rs1 : Reg) : List Input := issueSeq base early (.rdlen rs1) ++ [memRead base 0x28]

/-- `TEST -> h`: bit 2 of the answer is RES. -/
def testSeq (base : Nat) : List Input := [memRead base 0x10]

/-- `DBL rd, rs1`. -/
def dblSeq (base early : Nat) (rd rs1 : Reg) : List Input := issueSeq base early (.shl rd rs1 1)

/-- `HALF rd, rs1`. -/
def halfSeq (base early : Nat) (rd rs1 : Reg) : List Input := issueSeq base early (.shr rd rs1 1)

/-- `RESET`. -/
def resetSeq (base : Nat) : List Input := [memWrite base 0x08 1#64]

end Sys2Proof.Machine
end

