-- ==== Sys2Proof/Safety.lean ====
section
/-! DEFINITION. The terms statements use: which operands and results each command has (30_encoding.md R75; 60_exceptions.md R221), how a
command ends, and what holds of every state a run meets. -/

namespace Sys2Proof.Machine

/-! ## What a command reads and writes -/

/-- The destination register of a command (R75). -/
def destOf : Instr → Option Reg
  | .clr rd | .mov rd _ | .wri rd | .fill rd _ | .setb rd _ | .clrb rd _ => some rd
  | .add rd _ _ | .addn rd _ | .sub rd _ _ | .mul rd _ _ | .pow rd _ _ | .shl rd _ _ | .shr rd _ _ => some rd
  | .gcd rd _ _ | .modexp rd _ _ _ | .modinv rd _ _ => some rd
  | .rdi _ | .rdw _ _ | .rdlen _ | .getbit _ _ | .ispow2 _ | .lsb _ | .mrtest _ | .mrbase _ _ => none

/-- The commands that write RES (10_state.md R26). -/
def writesRes : Instr → Bool
  | .getbit _ _ | .ispow2 _ | .lsb _ | .mrtest _ | .mrbase _ _ => true
  | .clr _ | .mov _ _ | .wri _ | .rdi _ | .rdw _ _ | .rdlen _ | .fill _ _ | .setb _ _ | .clrb _ _ => false
  | .add _ _ _ | .addn _ _ | .sub _ _ _ | .mul _ _ _ | .pow _ _ _ | .shl _ _ _ | .shr _ _ _ => false
  | .gcd _ _ _ | .modexp _ _ _ _ | .modinv _ _ _ => false

/-- The command that writes BORROW (10_state.md R27). -/
def writesBorrow : Instr → Bool
  | .sub _ _ _ => true
  | .clr _ | .mov _ _ | .wri _ | .rdi _ | .rdw _ _ | .rdlen _ | .fill _ _ | .getbit _ _ | .setb _ _ | .clrb _ _ => false
  | .ispow2 _ | .lsb _ | .add _ _ _ | .addn _ _ | .mul _ _ _ | .pow _ _ _ | .shl _ _ _ | .shr _ _ _ => false
  | .gcd _ _ _ | .modexp _ _ _ _ | .mrtest _ | .mrbase _ _ | .modinv _ _ _ => false

/-- The commands that write DATA_OUT (10_state.md R35). -/
def writesDataOut : Instr → Bool
  | .rdi _ | .rdw _ _ | .rdlen _ => true
  | .clr _ | .mov _ _ | .wri _ | .fill _ _ | .getbit _ _ | .setb _ _ | .clrb _ _ | .ispow2 _ | .lsb _ => false
  | .add _ _ _ | .addn _ _ | .sub _ _ _ | .mul _ _ _ | .pow _ _ _ | .shl _ _ _ | .shr _ _ _ => false
  | .gcd _ _ _ | .modexp _ _ _ _ | .mrtest _ | .mrbase _ _ | .modinv _ _ _ => false

/-- The registers a command reads as source operands, in the order rs1, rs2, rs3, whose emptiness raises E_EMPTY (the E_EMPTY column of
60_exceptions.md R221). -/
def sourcesOf : Instr → List Reg
  | .clr _ | .wri _ | .rdlen _ | .fill _ _ | .setb _ _ | .clrb _ _ => []
  | .mov _ a | .rdi a | .rdw a _ | .getbit a _ | .ispow2 a | .lsb a | .mrtest a => [a]
  | .addn _ a | .shl _ a _ | .shr _ a _ => [a]
  | .add _ a b | .sub _ a b | .mul _ a b | .pow _ a b | .gcd _ a b | .modinv _ a b | .mrbase a b => [a, b]
  | .modexp _ a b c => [a, b, c]

/-- The commands whose source operands must be below 2^64 (10_state.md R24; the E_OVERFLOW column of 60_exceptions.md R221). -/
def readsInt64 : Instr → Bool
  | .rdi _ | .gcd _ _ _ | .modexp _ _ _ _ | .mrtest _ | .mrbase _ _ | .modinv _ _ _ => true
  | .clr _ | .mov _ _ | .wri _ | .rdw _ _ | .rdlen _ | .fill _ _ | .getbit _ _ | .setb _ _ | .clrb _ _ => false
  | .ispow2 _ | .lsb _ | .add _ _ _ | .addn _ _ | .sub _ _ _ | .mul _ _ _ | .pow _ _ _ | .shl _ _ _ | .shr _ _ _ => false

/-! ## How a command ends -/

/-- Command `i` completes in `s` with the writes that make `s` into `t`: PENDING becomes none, the RNG words that were delivered to
it are gone (log entry 3), and nothing else changes (70_reset_and_hazards.md R256). -/
def Completes (i : Instr) (s t : State) : Prop :=
  exec i s = .next { t with pending := none, rngWords := [] }

/-- The state in which an error of code number `n` has been recorded for the command word `w`, the first error kept (60_exceptions.md
R224). -/
def withError (s : State) (n : BitVec 4) (w : CmdWord) : State :=
  { s with
    err := true
    errCode := if s.err then s.errCode else n
    errInfo := if s.err then s.errInfo else w }

/-- The pending command `i`, of CMD value `c`, raises the error of code number `n` in `s`: nothing of the command is written
(60_exceptions.md R223), the error is recorded with the command word (R222, R224), PENDING becomes none. -/
def Raises (i : Instr) (s : State) (c : Word64) (n : BitVec 4) : Prop :=
  Completes i s (withError s n (c.extractLsb' 0 32))

/-- A command is pending, with this CMD value and this latched DATA_IN (10_state.md R37). -/
def Running (s : State) (c d : Word64) : Prop := s.pending = some ⟨c, d⟩

/-! ## What holds of every state of a run -/

/-- The states a run can meet: parameters in range (00_scope.md R7), no register longer than MAXLEN (10_state.md R20, R22), ERRCODE and
ERRINFO 0 while ERR = 0 (R28, R36) and ERRCODE one of 1 to 6 while ERR = 1 (60_exceptions.md R220), RNG words only with a pending MRTEST
and at most one for each round (70_reset_and_hazards.md R259). -/
structure Legal (s : State) : Prop where
  params    : s.cfg.wellFormed = true
  lengths   : ∀ r : Reg, (regVal s r).length ≤ s.cfg.maxLen
  noError   : s.err = false → s.errCode = 0#4 ∧ s.errInfo = 0#32
  error     : s.err = true → 1 ≤ s.errCode.toNat ∧ s.errCode.toNat ≤ 6
  words     : s.rngWords ≠ [] → ∃ p rs1, s.pending = some p ∧ decode p.cmd = .ok (.mrtest rs1)
  wordCount : s.rngWords.length ≤ s.cfg.mrRounds

/-- A safe state of a host that keeps the busy protocol (70_reset_and_hazards.md R257 item a): no command was lost to E_BUSY. -/
def NoOverrun (s : State) : Prop := s.errCode ≠ 6#4

/-- The next step is a host write of CMD while a command is pending, which R257 item a forbids the host. -/
def WritesCmdWhileBusy (s : State) : Prop :=
  busy s = true ∧ ∃ addr v rest, s.inputs = .hostWrite addr 8 v :: rest ∧ selectAccess s.cfg addr 8 = .admits .cmd

/-- The next step is a reset: the hardware reset or a CTRL write with bit 0 set (70_reset_and_hazards.md R250, R251). -/
def NextIsReset (s : State) : Prop :=
  ∃ rest, s.inputs = .hwReset :: rest ∨
    ∃ addr v, s.inputs = .hostWrite addr 8 v :: rest ∧ selectAccess s.cfg addr 8 = .admits .ctrl ∧ v.getLsbD 0 = true

end Sys2Proof.Machine
end

