-- ==== Sys2Proof/Certificates/Slice0/Obligations.lean ====
section
/-! DEFINITION. The statements for the provers. The terms `Completes`, `Raises`, `Running`, `Legal` and the tables of operands stand in
Sys2Proof/Safety.lean: `Completes i s t` says that `exec i s` ANSWERS THE NEXT STATE `t` with PENDING none, so it holds the whole frame. -/

open Sys2Proof Sys2Proof.Machine

/-! ## Encoding (30_encoding.md) -/

/-- R78, R81: decoding the encoding of any well-formed command gives the command back. -/
def Obligations.DecodeInvertsEncode : Prop :=
  ∀ i : Instr, i.wellFormed = true → decode (encodeCmd i) = .ok i

/-- R75, R77, R78: a CMD value that decodes to a command is the encoding of that command, which is well-formed. -/
def Obligations.EncodeInvertsDecode : Prop :=
  ∀ (c : Word64) (i : Instr), decode c = .ok i → i.wellFormed = true ∧ encodeCmd i = c

/-- R78 over the 24 rows of the opcode table: a word that matches a row is that row's command, a word that matches none is ILLEGAL, at
most one row matches. -/
def Obligations.DecodeFollowsOpcodeTable : Prop :=
  ∀ c : Word64,
    (c.extractLsb' 32 32 ≠ 0#32 → decode c = .error .upperBits) ∧
    (c.extractLsb' 32 32 = 0#32 →
      (∀ row ∈ opcodeTable, rowMatches row (commandWordOf c) = true →
        ∃ i, decode c = .ok i ∧ i.mnemonic = row.mnemonic) ∧
      ((∀ row ∈ opcodeTable, rowMatches row (commandWordOf c) = false) → ∃ e, decode c = .error e) ∧
      (∀ row ∈ opcodeTable, ∀ row' ∈ opcodeTable, rowMatches row (commandWordOf c) = true →
        rowMatches row' (commandWordOf c) = true → row = row'))

/-- R81's three examples and one word of each family from R75, read by the decoder. -/
def Obligations.SampleWordsDecode : Prop :=
  decodeTableWord 32 0x40C48000 = some (.add 3 1 2) ∧
  decodeTableWord 32 0x54840040 = some (.shl 2 1 64) ∧
  decodeTableWord 32 0x85448C00 = some (.modexp 5 1 2 3) ∧
  decodeTableWord 32 0x1D000007 = some (.fill 4 7) ∧
  decodeTableWord 32 0x00000000 = none

/-- R76: the assigned opcodes are 0x01 to 0x0C, 0x10 to 0x16 and 0x20 to 0x24; a pending command with any other opcode raises
E_ILLEGAL. -/
def Obligations.OnlyAssignedOpcodesDecode : Prop :=
  ∀ op : BitVec 6,
    ((0x01 ≤ op.toNat ∧ op.toNat ≤ 0x0C ∨ 0x10 ≤ op.toNat ∧ op.toNat ≤ 0x16 ∨ 0x20 ≤ op.toNat ∧ op.toNat ≤ 0x24) →
      ∃ w i, opOf w = op ∧ decodeWord w = .ok i) ∧
    (¬ (0x01 ≤ op.toNat ∧ op.toNat ≤ 0x0C ∨ 0x10 ≤ op.toNat ∧ op.toNat ≤ 0x16 ∨ 0x20 ≤ op.toNat ∧ op.toNat ≤ 0x24) →
      ∀ s c d, Running s c d → opOf (commandWordOf c) = op →
        completionStep s = .next { withError s 1#4 (c.extractLsb' 0 32) with pending := none, rngWords := [] })

/-- R77, R78: an accepted command whose bits 63:32 are not 0, and every other CMD value the decoder refuses, raises E_ILLEGAL, and
ERRINFO records bits 31:0. -/
def Obligations.IllegalCommandRaises : Prop :=
  ∀ s c d, Running s c d →
    (c.extractLsb' 32 32 ≠ 0#32 ∨ ∃ e, decode c = .error e) →
      completionStep s = .next { withError s 1#4 (c.extractLsb' 0 32) with pending := none, rngWords := [] }

/-! ## Steps (70_reset_and_hazards.md) -/

/-- R256: with a command pending, the unit's step is exec of the command its CMD value decodes to; an input that gives the unit its turn
is taken off the list first, and with no input left the unit takes its turn by itself. -/
def Obligations.StepRunsDecodedCommand : Prop :=
  ∀ s c d i, Running s c d → decode c = .ok i →
    (s.inputs = [] → step s = exec i s) ∧
    (∀ rest, s.inputs = .unitTurn :: rest → step s = exec i { s with inputs := rest })

/-- R256, R260: a unit's turn (with no input left it comes by itself, log entry 2) ends every pending command but an MRTEST, ILLEGAL ones
included. -/
def Obligations.UnitTurnEndsEveryOtherCommand : Prop :=
  ∀ s c d, Running s c d → (∀ rs1, decode c ≠ .ok (.mrtest rs1)) → s.inputs = [] →
    ∃ t, step s = .next t ∧ t.pending = none ∧ t.inputs = []

/-- The model's choice of log entry 5, over R51 and R261: a step stops only on a host access that touches no byte of the window. -/
def Obligations.StepStopsOnlyOutsideWindow : Prop :=
  ∀ s, (∃ t, step s = .next t) ∨
    (step s = .fault .outsideWindow ∧ ∃ addr width rest, touchesWindow s.cfg addr width = false ∧
      (s.inputs = .hostRead addr width :: rest ∨ ∃ v, s.inputs = .hostWrite addr width v :: rest))

/-- The invariant of Safety.lean (`Legal`) holds after reset. -/
def Obligations.ResetIsLegal : Prop := Legal State.reset

/-- Every step of every agent keeps the invariant: register lengths within MAXLEN (R20, R22), ERRCODE and ERRINFO 0 while ERR = 0 (R28,
R36), ERRCODE one of 1 to 6 while ERR = 1 (R220), RNG words only for a pending MRTEST and at most MR_ROUNDS of them (R259). -/
def Obligations.StepKeepsLegal : Prop :=
  ∀ s t, Legal s → step s = .next t → Legal t

/-- R30: CONFIG shows the parameters and its value never changes, including across reset. -/
def Obligations.ConfigShowsParametersForever : Prop :=
  ∀ s, s.cfg.wellFormed = true →
    ((readWindow s .config).extractLsb' 0 24).toNat = s.cfg.maxLen ∧
    ((readWindow s .config).extractLsb' 24 8).toNat = s.cfg.mrRounds ∧
    ((readWindow s .config).getLsbD 32 = true ↔ s.cfg.mulMode = .exact) ∧
    (readWindow s .config).extractLsb' 33 7 = 0#7 ∧
    (readWindow s .config).extractLsb' 40 8 = 16#8 ∧
    (readWindow s .config).extractLsb' 48 8 = 64#8 ∧
    (readWindow s .config).extractLsb' 56 8 = 0#8 ∧
    (∀ v, writeWindow s v .config = s) ∧
    (∀ rest, s.inputs = .hostRead s.cfg.base 8 :: rest →
      step s = .next { s with inputs := rest, reply := some (.data (readWindow s .config)) }) ∧
    ∀ t, step s = .next t → readWindow t .config = readWindow s .config

/-! ## Commands offered, errors, reset -/

/-- R255: a host write of CMD is discarded while ERR = 1, records E_BUSY while a command is pending, and is otherwise accepted with
the present DATA_IN; what the bus answers the write (`reply`) is left open. -/
def Obligations.CmdWriteIsAccepted : Prop :=
  ∀ s c rest, s.inputs = .hostWrite (s.cfg.base + 0x18) 8 c :: rest →
    ∃ r, (s.err = true → step s = .next { s with inputs := rest, reply := r }) ∧
      (s.err = false → s.pending ≠ none →
        step s = .next { s with inputs := rest, reply := r, err := true, errCode := 6#4, errInfo := c.extractLsb' 0 32 }) ∧
      (s.err = false → s.pending = none →
        step s = .next { s with inputs := rest, reply := r, pending := some ⟨c, s.dataIn⟩ })

/-- R223, R222: a command that raises leaves the state before it, plus ERR, a code 1 to 5 and its command word, and PENDING none. -/
def Obligations.ErrorsArePrecise : Prop :=
  ∀ i s t c d, Running s c d → s.err = false → exec i s = .next t → t.err = true →
    ∃ n : BitVec 4, 1 ≤ n.toNat ∧ n.toNat ≤ 5 ∧
      t = { s with err := true, errCode := n, errInfo := c.extractLsb' 0 32, pending := none, rngWords := [] }

/-- R28, R225: while ERR = 1, every step but a reset keeps ERR, ERRCODE and ERRINFO, and with nothing pending no command is ever
accepted and no register, flag or DATA_OUT changes. -/
def Obligations.ErrorIsSticky : Prop :=
  ∀ s t, s.err = true → ¬ NextIsReset s → step s = .next t →
    t.err = true ∧ t.errCode = s.errCode ∧ t.errInfo = s.errInfo ∧
    (s.pending = none → t.pending = none ∧ t.regs = s.regs ∧ t.res = s.res ∧ t.borrow = s.borrow ∧ t.dataOut = s.dataOut)

/-- R229 item a, R227: an error already recorded changes nothing of what the pending command then writes. -/
def Obligations.PendingCommandCompletesAfterBusy : Prop :=
  ∀ i s t n w, exec i s = .next t →
    ∃ u, exec i { s with err := true, errCode := n, errInfo := w } = .next u ∧
      u.regs = t.regs ∧ u.res = t.res ∧ u.borrow = t.borrow ∧ u.dataOut = t.dataOut ∧ u.pending = t.pending ∧
      u.err = true ∧ u.errCode = n ∧ u.errInfo = w

/-- R257 item a, R221: a host that never writes CMD while a command is pending never meets E_BUSY; no command raises it. -/
def Obligations.OverrunOnlyFromCmdWriteWhileBusy : Prop :=
  ∀ s t, NoOverrun s → ¬ WritesCmdWhileBusy s → step s = .next t → NoOverrun t

/-- R40: every piece of state right after reset, so STATUS = 0. -/
def Obligations.ResetState : Prop :=
  (∀ r : Reg, regVal State.reset r = []) ∧ State.reset.res = false ∧ State.reset.borrow = false ∧ State.reset.err = false ∧
    State.reset.errCode = 0#4 ∧ State.reset.errInfo = 0#32 ∧ State.reset.dataIn = 0#64 ∧ State.reset.dataOut = 0#64 ∧
    State.reset.pending = none ∧ readWindow State.reset .status = 0#64

/-- R40, R250, R251: the hardware reset and a CTRL write with bit 0 set give the state of R40 from every state, busy or in error, with CONFIG
unchanged; a CTRL write with bit 0 clear does nothing. -/
def Obligations.ResetsGiveTheResetState : Prop :=
  ∀ s rest t, t = { s with
      regs := Vector.replicate 16 [], res := false, borrow := false, err := false, errCode := 0#4, errInfo := 0#32
      dataIn := 0#64, dataOut := 0#64, pending := none, rngWords := [], inputs := rest } →
    readWindow t .status = 0#64 ∧ readWindow t .config = readWindow s .config ∧
    (s.inputs = .hwReset :: rest → step s = .next t) ∧
    (∀ v, s.inputs = .hostWrite (s.cfg.base + 0x08) 8 v :: rest →
      ∃ r, (v.getLsbD 0 = true → step s = .next { t with reply := r }) ∧
        (v.getLsbD 0 = false → step s = .next { s with inputs := rest, reply := r }))

/-- R252: a pending command has no effect once a hardware or soft reset comes, and a word the RNG delivers after it is discarded. -/
def Obligations.ResetWithdrawsThePendingCommand : Prop :=
  ∀ s w rest,
    (s.inputs = .hwReset :: .rngWord w :: .unitTurn :: rest →
      Host.Core.run core 3 s = .next { State.reset with cfg := s.cfg, inputs := rest, reply := s.reply }) ∧
    (∀ v, v.getLsbD 0 = true → s.inputs = .hostWrite (s.cfg.base + 0x08) 8 v :: .rngWord w :: .unitTurn :: rest →
      ∃ r, Host.Core.run core 3 s = .next { State.reset with cfg := s.cfg, inputs := rest, reply := r })

/-! ## Host window (20_memory.md, 10_state.md) -/

/-- R51: of the accesses that touch the window exactly the 8-byte ones at an offset that is a multiple of 8 are admitted; every other one
gets a bus error and changes nothing. That this takes in the accesses that straddle the window's ends is the model's deduction (log entry
5, DEDUCED, unsafe); that an admitted write is answered `written` is the model's choice (log entry 4). -/
def Obligations.OnlyAlignedEightByteAccesses : Prop :=
  ∀ s addr width, touchesWindow s.cfg addr width = true →
    (width = 8 ∧ s.cfg.base ≤ addr ∧ (addr - s.cfg.base) % 8 = 0 →
      ∃ r, windowRegAt (addr - s.cfg.base) = some r ∧
        (∀ rest, s.inputs = .hostRead addr width :: rest →
          step s = .next { s with inputs := rest, reply := some (.data (readWindow s r)) }) ∧
        (∀ v rest, s.inputs = .hostWrite addr width v :: rest →
          step s = .next { writeWindow { s with inputs := rest } v r with reply := some .written })) ∧
    (¬ (width = 8 ∧ s.cfg.base ≤ addr ∧ (addr - s.cfg.base) % 8 = 0) →
      (∀ rest, s.inputs = .hostRead addr width :: rest →
        step s = .next { s with inputs := rest, reply := some .busError }) ∧
      (∀ v rest, s.inputs = .hostWrite addr width v :: rest →
        step s = .next { s with inputs := rest, reply := some .busError }))

/-- R56, R31, R32, R34, R35, R36, R38, at their offsets: a write of DATA_IN stores and has no other effect, writes of CONFIG, STATUS,
DATA_OUT, ERRINFO and offset 0x38 change nothing; DATA_IN, DATA_OUT and ERRINFO (bits 63:32 zero) read back, CTRL, CMD and offset 0x38
read 0. What the bus answers a write is left open. -/
def Obligations.WindowStoresOnlyDataIn : Prop :=
  ∀ s v,
    writeWindow s v .dataIn = { s with dataIn := v } ∧ readWindow (writeWindow s v .dataIn) .dataIn = v ∧
    writeWindow s v .config = s ∧ writeWindow s v .status = s ∧ writeWindow s v .dataOut = s ∧
    writeWindow s v .errInfo = s ∧ writeWindow s v .reserved = s ∧
    readWindow s .ctrl = 0#64 ∧ readWindow s .cmd = 0#64 ∧ readWindow s .reserved = 0#64 ∧
    (∀ rest, s.inputs = .hostWrite (s.cfg.base + 0x20) 8 v :: rest →
      ∃ r, step s = .next { s with inputs := rest, reply := r, dataIn := v }) ∧
    (∀ off ∈ [0x00, 0x10, 0x28, 0x30, 0x38], ∀ rest, s.inputs = .hostWrite (s.cfg.base + off) 8 v :: rest →
      ∃ r, step s = .next { s with inputs := rest, reply := r }) ∧
    ∀ off val, (off, val) ∈ [(0x08, 0#64), (0x18, 0#64), (0x20, s.dataIn), (0x28, s.dataOut), (0x30, 0#32 ++ s.errInfo), (0x38, 0#64)] →
      ∀ rest, s.inputs = .hostRead (s.cfg.base + off) 8 :: rest →
        step s = .next { s with inputs := rest, reply := some (.data val) }

/-- R29: the fields of STATUS, read at offset 0x10 without a side effect; its writes are ignored; it is 0 at reset. -/
def Obligations.StatusLayout : Prop :=
  ∀ s, ((readWindow s .status).getLsbD 0 = true ↔ s.pending ≠ none) ∧
    (readWindow s .status).getLsbD 1 = s.err ∧ (readWindow s .status).getLsbD 2 = s.res ∧
    (readWindow s .status).getLsbD 3 = s.borrow ∧ (readWindow s .status).extractLsb' 4 4 = 0#4 ∧
    (readWindow s .status).extractLsb' 8 4 = s.errCode ∧ (readWindow s .status).extractLsb' 12 52 = 0#52 ∧
    (∀ v, writeWindow s v .status = s) ∧ readWindow State.reset .status = 0#64 ∧
    ∀ rest, s.inputs = .hostRead (s.cfg.base + 0x10) 8 :: rest →
      step s = .next { s with inputs := rest, reply := some (.data (readWindow s .status)) }

/-- R34, R60 item 4: the unit never writes DATA_IN, and a DATA_IN write after a command's acceptance changes nothing of what the command
does. -/
def Obligations.DataInIsLatched : Prop :=
  ∀ i s t v, s.pending ≠ none → exec i s = .next t →
    t.dataIn = s.dataIn ∧ exec i { s with dataIn := v } = .next { t with dataIn := v }

/-! ## What commands write, over all 24 -/

/-- R20, R26, R27, R35: writing one register never changes another; RES, BORROW and DATA_OUT are written only by the commands the
tables of Safety.lean list from R26, R27 and R35. -/
def Obligations.FrameOfEveryCommand : Prop :=
  ∀ i s t, exec i s = .next t →
    (∀ r, destOf i ≠ some r → regVal t r = regVal s r) ∧
    (writesRes i = false → t.res = s.res) ∧ (writesBorrow i = false → t.borrow = s.borrow) ∧
    (writesDataOut i = false → t.dataOut = s.dataOut) ∧
    t.dataIn = s.dataIn ∧ t.cfg = s.cfg ∧ t.inputs = s.inputs ∧ t.reply = s.reply

/-- R21: registers start empty at reset and become empty again only by CLR; no other command produces a length-0 result: a command that
raises nothing (in this state with no earlier error recorded) leaves its destination non-empty, whatever it held before, unless it is CLR
or the FILL #0 that leaves an empty register as it is (R109). -/
def Obligations.OnlyClrEmptiesARegister : Prop :=
  (∀ r : Reg, regVal State.reset r = []) ∧
  (∀ i s t r, exec i s = .next t → regVal s r ≠ [] → regVal t r = [] → i = .clr r) ∧
  ∀ i s t u r, exec i s = .next t → exec i { s with err := false } = .next u → u.err = false →
    destOf i = some r → i ≠ .clr r → i ≠ .fill r 0 → regVal t r ≠ []

/-- R23, R228 item 2, R221: a command with an empty source operand raises E_EMPTY, whatever else is wrong with its operands. -/
def Obligations.EmptyOperandRaises : Prop :=
  ∀ i s c d, Running s c d → (∃ r ∈ sourcesOf i, regVal s r = []) → Raises i s c 2#4

/-- R24, R228 item 3, R221: RDI and the number-theory commands, with no source empty and one of 2^64 or more, raise E_OVERFLOW, whatever
their domain. -/
def Obligations.WideOperandRaises : Prop :=
  ∀ i s c d, Running s c d → readsInt64 i = true → (∀ r ∈ sourcesOf i, regVal s r ≠ []) →
    (∃ r ∈ sourcesOf i, 2 ^ 64 ≤ bvVal (regVal s r)) → Raises i s c 4#4

/-- R33, R259: no command but MRTEST depends on the words the RNG has delivered. -/
def Obligations.OnlyMrtestReadsRngWords : Prop :=
  ∀ i s ws, (∀ rs1, i ≠ .mrtest rs1) → exec i { s with rngWords := ws } = exec i s

/-! ## BitVector and conversion commands (40_bitvector.md) -/

/-- R103, R104: CLR empties rd; MOV copies every bit, leading zeros kept, or raises E_EMPTY. -/
def Obligations.ClrAndMov : Prop :=
  ∀ s rd rs1,
    Completes (.clr rd) s { s with regs := s.regs.set rd.val [] } ∧
    (regVal s rs1 ≠ [] → Completes (.mov rd rs1) s { s with regs := s.regs.set rd.val (regVal s rs1) }) ∧
    ∀ c d, Running s c d → regVal s rs1 = [] → Raises (.mov rd rs1) s c 2#4

/-- R105: WRI writes the minimal-length encoding of the latched DATA_IN, of length 1 for 0. -/
def Obligations.WriLoadsDataIn : Prop :=
  ∀ s c d rd, Running s c d →
    ∃ v, Completes (.wri rd) s { s with regs := s.regs.set rd.val v } ∧ bvVal v = d.toNat ∧
      1 ≤ v.length ∧ v.length ≤ 64 ∧ ∀ n, 1 ≤ n → (v.length ≤ n ↔ d.toNat < 2 ^ n)

/-- R106: RDI puts the value in DATA_OUT, leading zeros not counted, or raises E_EMPTY or E_OVERFLOW. -/
def Obligations.RdiReadsTheValue : Prop :=
  ∀ s rs1,
    (regVal s rs1 ≠ [] → bvVal (regVal s rs1) < 2 ^ 64 →
      Completes (.rdi rs1) s { s with dataOut := BitVec.ofNat 64 (bvVal (regVal s rs1)) }) ∧
    ∀ c d, Running s c d →
      (regVal s rs1 = [] → Raises (.rdi rs1) s c 2#4) ∧
      (regVal s rs1 ≠ [] → 2 ^ 64 ≤ bvVal (regVal s rs1) → Raises (.rdi rs1) s c 4#4)

/-- R115: the conversions are inverse to each other, lengths included, and WRI followed by RDI returns DIN. -/
def Obligations.ConversionsAreInverse : Prop :=
  (∀ x, bvVal (dec2bin x) = x ∧ (dec2bin x).length = max 1 (bitlen x)) ∧
  (∀ v : BitVector, v ≠ [] → ∃ k, v = dec2bin (bvVal v) ++ List.replicate k false) ∧
  ∀ s c d c' d' rd, Running s c d →
    ∃ t u, exec (.wri rd) s = .next t ∧ exec (.rdi rd) { t with pending := some ⟨c', d'⟩ } = .next u ∧ u.dataOut = d

/-- R107: RDW puts bits 64k+63 .. 64k in DATA_OUT, 0 where the register has no such bit, or raises E_EMPTY. -/
def Obligations.RdwReadsAGroupOfBits : Prop :=
  ∀ s rs1 k,
    (regVal s rs1 ≠ [] → ∃ out : Word64, Completes (.rdw rs1 k) s { s with dataOut := out } ∧
      ∀ j, j < 64 → out.getLsbD j = ((regVal s rs1)[64 * k + j]?).getD false) ∧
    ∀ c d, Running s c d → regVal s rs1 = [] → Raises (.rdw rs1 k) s c 2#4

/-- R108: RDLEN reads the length, 0 for an empty register, and never raises. -/
def Obligations.RdlenReadsTheLength : Prop :=
  ∀ s rs1, Completes (.rdlen rs1) s { s with dataOut := BitVec.ofNat 64 (regVal s rs1).length }

/-- R109: FILL keeps every bit, adds zero bits up to length n and never truncates, or raises E_LENGTH above MAXLEN. -/
def Obligations.FillGrowsWithZeros : Prop :=
  ∀ s rd n,
    (n ≤ s.cfg.maxLen → ∃ v, Completes (.fill rd n) s { s with regs := s.regs.set rd.val v } ∧
      v.length = max (regVal s rd).length n ∧
      ∀ j, j < v.length → v[j]? = some (((regVal s rd)[j]?).getD false)) ∧
    ∀ c d, Running s c d → s.cfg.maxLen < n → Raises (.fill rd n) s c 5#4

/-- R110: GETBIT puts bit i in RES, or raises E_EMPTY, or E_DOMAIN when a non-empty register has no bit i. -/
def Obligations.GetbitReadsTheBit : Prop :=
  ∀ s rs1 k,
    (∀ b, (regVal s rs1)[k]? = some b → Completes (.getbit rs1 k) s { s with res := b }) ∧
    ∀ c d, Running s c d →
      (regVal s rs1 = [] → Raises (.getbit rs1 k) s c 2#4) ∧
      (regVal s rs1 ≠ [] → (regVal s rs1).length ≤ k → Raises (.getbit rs1 k) s c 3#4)

/-- R111, R112: SETB and CLRB write bit i and keep the length and every other bit, or raise E_DOMAIN when the register has no bit i, the
empty register among them. -/
def Obligations.SetbAndClrbWriteTheBit : Prop :=
  ∀ s rd k,
    (k < (regVal s rd).length → ∃ v1 v0,
      Completes (.setb rd k) s { s with regs := s.regs.set rd.val v1 } ∧
      Completes (.clrb rd k) s { s with regs := s.regs.set rd.val v0 } ∧
      v1.length = (regVal s rd).length ∧ v0.length = (regVal s rd).length ∧
      v1[k]? = some true ∧ v0[k]? = some false ∧
      ∀ j, j ≠ k → v1[j]? = (regVal s rd)[j]? ∧ v0[j]? = (regVal s rd)[j]?) ∧
    ∀ c d, Running s c d → (regVal s rd).length ≤ k → Raises (.setb rd k) s c 3#4 ∧ Raises (.clrb rd k) s c 3#4

/-- R113: ISPOW2 sets RES exactly when one bit across the whole vector is set, or raises E_EMPTY. -/
def Obligations.Ispow2TestsForOneSetBit : Prop :=
  ∀ s rs1,
    (regVal s rs1 ≠ [] → ∃ b, Completes (.ispow2 rs1) s { s with res := b } ∧
      (b = true ↔ ∃! j : Nat, (regVal s rs1)[j]? = some true)) ∧
    ∀ c d, Running s c d → regVal s rs1 = [] → Raises (.ispow2 rs1) s c 2#4

/-- R114: LSB puts bit 0 in RES, and equals GETBIT of bit 0 in every case. -/
def Obligations.LsbReadsBitZero : Prop :=
  ∀ s rs1,
    (∀ b, (regVal s rs1)[0]? = some b → Completes (.lsb rs1) s { s with res := b }) ∧
    exec (.lsb rs1) s = exec (.getbit rs1 0) s ∧
    ∀ c d, Running s c d → regVal s rs1 = [] → Raises (.lsb rs1) s c 2#4

/-! ## Arithmetic commands (41_arithmetic.md) -/

/-- R142 with R141's closed form: ADD. -/
def Obligations.AddResult : Prop :=
  ∀ s rd rs1 rs2, regVal s rs1 ≠ [] → regVal s rs2 ≠ [] →
    ∀ sum len, sum = bvVal (regVal s rs1) + bvVal (regVal s rs2) →
      len = max (max (regVal s rs1).length (regVal s rs2).length) (bitlen sum) →
      (len ≤ s.cfg.maxLen → Completes (.add rd rs1 rs2) s { s with regs := s.regs.set rd.val (bvn sum len) }) ∧
      ∀ c d, Running s c d → s.cfg.maxLen < len → Raises (.add rd rs1 rs2) s c 5#4

/-- R143 with R141's closed form: ADDN, whose right operand has length max(1, bitlen(DIN)). -/
def Obligations.AddnResult : Prop :=
  ∀ s rd rs1 c d, Running s c d → regVal s rs1 ≠ [] →
    ∀ sum len, sum = bvVal (regVal s rs1) + d.toNat →
      len = max (max (regVal s rs1).length (max 1 (bitlen d.toNat))) (bitlen sum) →
      (len ≤ s.cfg.maxLen → Completes (.addn rd rs1) s { s with regs := s.regs.set rd.val (bvn sum len) }) ∧
      (s.cfg.maxLen < len → Raises (.addn rd rs1) s c 5#4)

/-- R145 with R144's closed form, R27: SUB wraps modulo 2^W, keeps length W and sets BORROW exactly when val(a) < val(b). -/
def Obligations.SubResult : Prop :=
  ∀ s rd rs1 rs2, regVal s rs1 ≠ [] → regVal s rs2 ≠ [] →
    ∀ w, w = max (regVal s rs1).length (regVal s rs2).length →
      Completes (.sub rd rs1 rs2) s
        { s with
          regs := s.regs.set rd.val (bvn ((bvVal (regVal s rs1) + 2 ^ w - bvVal (regVal s rs2)) % 2 ^ w) w)
          borrow := decide (bvVal (regVal s rs1) < bvVal (regVal s rs2)) }

/-- R146 to R149: MUL, by the Egyptian product when neither operand is a power of two, otherwise by the shortcut in the reading of
MUL_SHORTCUT_MODE; `bvMul` is this product. -/
def Obligations.MulResult : Prop :=
  ∀ s rd rs1 rs2 a b, regVal s rs1 = a → regVal s rs2 = b → a ≠ [] → b ≠ [] →
    ∀ r, r = (if isPow2 a = false ∧ isPow2 b = false then
          bvn (bvVal a * bvVal b) (max (max a.length b.length) (bitlen (bvVal a * bvVal b)))
        else if s.cfg.mulMode = .exact then dec2bin (bvVal a * bvVal b)
        else if isPow2 a = true then dec2bin (bvVal b * 2 ^ (a.length - 1))
        else dec2bin (bvVal a * 2 ^ (a.length - 1))) →
      bvMul s.cfg.mulMode a b = r ∧
      (r.length ≤ s.cfg.maxLen → Completes (.mul rd rs1 rs2) s { s with regs := s.regs.set rd.val r }) ∧
      ∀ c d, Running s c d → s.cfg.maxLen < r.length → Raises (.mul rd rs1 rs2) s c 5#4

/-- R148: exactly when the left_length shortcut gives the true product. -/
def Obligations.ShortcutIsExactWhen : Prop :=
  ∀ a b : BitVector, a ≠ [] → b ≠ [] → (isPow2 a = true ∨ isPow2 b = true) →
    (bvVal (mulShortcut .leftLength a b) = bvVal a * bvVal b ↔
      (isPow2 a = true ∧ (a.length = bitlen (bvVal a) ∨ bvVal b = 0)) ∨
      (isPow2 a = false ∧ (bvVal a = 0 ∨ a.length = bitlen (bvVal b))))

/-- R150, R151: POW is the square-and-multiply recursion of R150 over the products of R146 (`bvMul`, which MulResult pins). With
`acc k` and `base k` the accumulator and the base after `k` of the bitlen(n) iterations, it writes the last accumulator when every product
fits MAXLEN and raises E_LENGTH otherwise. The function `bvPow` answers the same, never longer than MAXLEN. -/
def Obligations.PowResult : Prop :=
  ∀ s rd rs1 rs2 x n, regVal s rs1 = x → x ≠ [] → regVal s rs2 ≠ [] → bvVal (regVal s rs2) = n →
    (∀ acc base : Nat → BitVector, acc 0 = [true] → base 0 = x →
      (∀ k, k < bitlen n →
        acc (k + 1) = (if n / 2 ^ k % 2 = 1 then bvMul s.cfg.mulMode (acc k) (base k) else acc k) ∧
        base (k + 1) = (if 0 < n / 2 ^ (k + 1) then bvMul s.cfg.mulMode (base k) (base k) else base k)) →
      ((∀ k, k < bitlen n → (n / 2 ^ k % 2 = 1 → (acc (k + 1)).length ≤ s.cfg.maxLen) ∧
          (0 < n / 2 ^ (k + 1) → (base (k + 1)).length ≤ s.cfg.maxLen)) →
        Completes (.pow rd rs1 rs2) s { s with regs := s.regs.set rd.val (acc (bitlen n)) }) ∧
      ∀ c d, Running s c d →
        (∃ k, k < bitlen n ∧ (n / 2 ^ k % 2 = 1 ∧ s.cfg.maxLen < (acc (k + 1)).length ∨
          0 < n / 2 ^ (k + 1) ∧ s.cfg.maxLen < (base (k + 1)).length)) →
        Raises (.pow rd rs1 rs2) s c 5#4) ∧
    (∀ r, bvPow s.cfg x n = some r →
      Completes (.pow rd rs1 rs2) s { s with regs := s.regs.set rd.val r } ∧ (1 ≤ s.cfg.maxLen → r.length ≤ s.cfg.maxLen)) ∧
    ∀ c d, Running s c d → bvPow s.cfg x n = none → Raises (.pow rd rs1 rs2) s c 5#4

/-- R150, R154 item 4: the value of a power, in `exact` mode always, in `left_length` mode unless x is a power of two with leading zeros and
n ≥ 2; pow(x, 0) = bv"1". Closed forms that follow from R147, R148 and R150: a power of a power of two has minimal length, and in
`left_length` mode its value is 2^(j·(n mod 2) + (j + len(x) − 1)·(n div 2)) for x = 2^j; a power of any other x is as long as the value
needs, and when n is no power of two at least as long as x. -/
def Obligations.PowValue : Prop :=
  ∀ p x n r, x ≠ [] → bvPow p x n = some r →
    (p.mulMode = .exact ∨ ¬ (isPow2 x = true ∧ bitlen (bvVal x) < x.length ∧ 2 ≤ n) → bvVal r = bvVal x ^ n) ∧
    (n = 0 → r = [true]) ∧
    (isPow2 x = true → 1 ≤ n → r.length = bitlen (bvVal r)) ∧
    (∀ j, p.mulMode = .leftLength → bvVal x = 2 ^ j → bvVal r = 2 ^ (n % 2 * j + n / 2 * (j + x.length - 1))) ∧
    (isPow2 x = false → 1 ≤ n →
      r.length = max (if n = 2 ^ Nat.log2 n then 1 else x.length) (bitlen (bvVal x ^ n)))

/-- R151, R150: POW completes whenever the base's length times the exponent is at most MAXLEN (no intermediate of R150 is longer than
that), and its result is no longer than that product. It completes with any exponent when x has the value 0 and fits MAXLEN, with 0 (1 for
n = 0); and when x has the value 1, in `exact` mode or without leading zeros, with bv"1". -/
def Obligations.PowCompletes : Prop :=
  ∀ s rd rs1 rs2 x n, regVal s rs1 = x → x ≠ [] → regVal s rs2 ≠ [] → bvVal (regVal s rs2) = n →
    (x.length * max 1 n ≤ s.cfg.maxLen →
      ∃ r, bvPow s.cfg x n = some r ∧ Completes (.pow rd rs1 rs2) s { s with regs := s.regs.set rd.val r } ∧
        1 ≤ r.length ∧ r.length ≤ x.length * max 1 n) ∧
    (bvVal x = 0 → x.length ≤ s.cfg.maxLen →
      ∃ r, Completes (.pow rd rs1 rs2) s { s with regs := s.regs.set rd.val r } ∧ bvVal r = (if n = 0 then 1 else 0) ∧
        1 ≤ r.length ∧ r.length ≤ x.length ∧ (x.length = 1 → r = if n = 0 then [true] else [false])) ∧
    (bvVal x = 1 → (s.cfg.mulMode = .exact ∨ x.length = 1) → 1 ≤ s.cfg.maxLen →
      Completes (.pow rd rs1 rs2) s { s with regs := s.regs.set rd.val [true] })

/-- R152: SHL multiplies by 2^k and grows the length by k, or raises E_LENGTH. -/
def Obligations.ShlResult : Prop :=
  ∀ s rd rs1 k, regVal s rs1 ≠ [] →
    ((regVal s rs1).length + k ≤ s.cfg.maxLen →
      ∃ v, Completes (.shl rd rs1 k) s { s with regs := s.regs.set rd.val v } ∧
        v.length = (regVal s rs1).length + k ∧ bvVal v = bvVal (regVal s rs1) * 2 ^ k) ∧
    ∀ c d, Running s c d → s.cfg.maxLen < (regVal s rs1).length + k → Raises (.shl rd rs1 k) s c 5#4

/-- R153: SHR divides by 2^k and shortens the length by k, keeping at least one bit; it never raises on a non-empty register. -/
def Obligations.ShrResult : Prop :=
  ∀ s rd rs1 k, regVal s rs1 ≠ [] →
    ∃ v, Completes (.shr rd rs1 k) s { s with regs := s.regs.set rd.val v } ∧
      v.length = max 1 ((regVal s rs1).length - k) ∧ bvVal v = bvVal (regVal s rs1) / 2 ^ k

/-! ## Number-theory commands (42_number_theory.md) -/

/-- R181, R182: GCD writes the minimal-length greatest common divisor. -/
def Obligations.GcdResult : Prop :=
  ∀ s rd rs1 rs2, regVal s rs1 ≠ [] → regVal s rs2 ≠ [] → bvVal (regVal s rs1) < 2 ^ 64 → bvVal (regVal s rs2) < 2 ^ 64 →
    Completes (.gcd rd rs1 rs2) s
      { s with regs := s.regs.set rd.val (dec2bin (Nat.gcd (bvVal (regVal s rs1)) (bvVal (regVal s rs2)))) }

/-- R183, R184, R192 item 2: MODEXP writes the minimal-length b^e mod m, exactly, or raises E_DOMAIN when m = 0. -/
def Obligations.ModexpResult : Prop :=
  ∀ s rd rs1 rs2 rs3 b e m, regVal s rs1 ≠ [] → regVal s rs2 ≠ [] → regVal s rs3 ≠ [] →
    bvVal (regVal s rs1) = b → bvVal (regVal s rs2) = e → bvVal (regVal s rs3) = m → b < 2 ^ 64 → e < 2 ^ 64 → m < 2 ^ 64 →
    (m ≠ 0 → Completes (.modexp rd rs1 rs2 rs3) s { s with regs := s.regs.set rd.val (dec2bin (b ^ e % m)) }) ∧
    ∀ c d, Running s c d → m = 0 → Raises (.modexp rd rs1 rs2 rs3) s c 3#4

/-- R190, R191, R192 item 1: MODINV writes the one d below φ with e·d ≡ 1 modulo φ, or raises E_DOMAIN when φ = 0 or gcd(e, φ) ≠ 1. -/
def Obligations.ModinvResult : Prop :=
  ∀ s rd rs1 rs2 e phi, regVal s rs1 ≠ [] → regVal s rs2 ≠ [] → bvVal (regVal s rs1) = e → bvVal (regVal s rs2) = phi →
    e < 2 ^ 64 → phi < 2 ^ 64 →
    (phi ≠ 0 → Nat.gcd e phi = 1 →
      ∃ d, Completes (.modinv rd rs1 rs2) s { s with regs := s.regs.set rd.val (dec2bin d) } ∧ d < phi ∧
        e * d % phi = 1 % phi ∧ ∀ d', d' < phi → e * d' % phi = 1 % phi → d' = d) ∧
    ∀ c d, Running s c d → (phi = 0 ∨ Nat.gcd e phi ≠ 1) → Raises (.modinv rd rs1 rs2) s c 3#4

/-- R192 item 4: the RSA round trip for n = p·q with distinct primes, d the MODINV of e modulo (p−1)(q−1), and m prime to n. -/
def Obligations.RsaRoundTrip : Prop :=
  ∀ p q e d m : Nat, p.Prime → q.Prime → p ≠ q → ntModinv e ((p - 1) * (q - 1)) = some d → 0 < m → m < p * q →
    Nat.gcd m (p * q) = 1 → ntModexp (ntModexp m e (p * q)) d (p * q) = m

/-- R185, R186, R189: MRBASE is the strong-probable-prime round for an odd x ≥ 3, written x − 1 = q · 2^r with q odd, and answers 0 for
every other x. -/
def Obligations.MrbaseIsTheStrongProbablePrimeRound : Prop :=
  ∀ s rs1 rs2 x a, regVal s rs1 ≠ [] → regVal s rs2 ≠ [] → bvVal (regVal s rs1) = x → bvVal (regVal s rs2) = a →
    x < 2 ^ 64 → a < 2 ^ 64 →
    ((x < 3 ∨ x % 2 = 0) → Completes (.mrbase rs1 rs2) s { s with res := false }) ∧
    (3 ≤ x → x % 2 = 1 → ∀ q r, x - 1 = q * 2 ^ r → q % 2 = 1 →
      ∃ b, Completes (.mrbase rs1 rs2) s { s with res := b } ∧
        (b = true ↔ a ^ q % x = 1 ∨ ∃ j, j < r ∧ a ^ (q * 2 ^ j) % x = x - 1))

/-- R188, R187: MRTEST rejects x < 3 and even x without a word; with a word for each of MR_ROUNDS rounds that pass it answers 1; with a word
whose round fails among the first MR_ROUNDS it answers 0. -/
def Obligations.MrtestResult : Prop :=
  ∀ s rs1 x, regVal s rs1 ≠ [] → bvVal (regVal s rs1) = x → x < 2 ^ 64 →
    ((x < 3 ∨ x % 2 = 0) → Completes (.mrtest rs1) s { s with res := false }) ∧
    (3 ≤ x → x % 2 = 1 →
      (s.cfg.mrRounds ≤ s.rngWords.length →
        (∀ w ∈ s.rngWords.take s.cfg.mrRounds, mrRound x (2 + w.toNat % max 1 (x - 3)) = true) →
        Completes (.mrtest rs1) s { s with res := true }) ∧
      ((∃ w ∈ s.rngWords.take s.cfg.mrRounds, mrRound x (2 + w.toNat % max 1 (x - 3)) = false) →
        Completes (.mrtest rs1) s { s with res := false }))

/-- R188, R192 item 3: MRTEST answers 1 for every odd prime below 2^64, whatever words the RNG delivers. -/
def Obligations.MrtestPassesEveryOddPrime : Prop :=
  ∀ s rs1 x, regVal s rs1 ≠ [] → bvVal (regVal s rs1) = x → x < 2 ^ 64 → x.Prime → x ≠ 2 →
    s.cfg.mrRounds ≤ s.rngWords.length → Completes (.mrtest rs1) s { s with res := true }

/-- R259, R232: an MRTEST whose next round has no word waits for ever when none comes: BUSY stays 1, nothing is raised. That the turns the
unit has meanwhile are steps that leave the state as it was is the model's choice (log entry 10; turns with no input left: log entry 2). -/
def Obligations.MrtestWaitsWithoutWords : Prop :=
  ∀ s c d rs1 x k, Running s c d → decode c = .ok (.mrtest rs1) → s.inputs = [] → regVal s rs1 ≠ [] →
    bvVal (regVal s rs1) = x → x < 2 ^ 64 → 3 ≤ x → x % 2 = 1 → s.rngWords.length < s.cfg.mrRounds →
    (∀ w ∈ s.rngWords, mrRound x (mrBaseOf w x) = true) →
      Host.Core.run core k s = .next s ∧ (readWindow s .status).getLsbD 0 = true

/-- R33, R259: a word the RNG delivers goes to a pending MRTEST whose next round needs one. That it is discarded in every other state is the
model's deduction (log entry 3, DEDUCED, unsafe) from R252, which says it of a word after a reset. -/
def Obligations.RngWordGoesOnlyToAWaitingMrtest : Prop :=
  ∀ s w rest, s.inputs = .rngWord w :: rest →
    ((∃ c d rs1, Running s c d ∧ decode c = .ok (.mrtest rs1) ∧ regVal s rs1 ≠ [] ∧ bvVal (regVal s rs1) < 2 ^ 64 ∧
        3 ≤ bvVal (regVal s rs1) ∧ bvVal (regVal s rs1) % 2 = 1 ∧ s.rngWords.length < s.cfg.mrRounds ∧
        ∀ u ∈ s.rngWords, mrRound (bvVal (regVal s rs1)) (mrBaseOf u (bvVal (regVal s rs1))) = true) →
      step s = .next { s with inputs := rest, rngWords := s.rngWords ++ [w] }) ∧
    (¬ (∃ c d rs1, Running s c d ∧ decode c = .ok (.mrtest rs1) ∧ regVal s rs1 ≠ [] ∧ bvVal (regVal s rs1) < 2 ^ 64 ∧
        3 ≤ bvVal (regVal s rs1) ∧ bvVal (regVal s rs1) % 2 = 1 ∧ s.rngWords.length < s.cfg.mrRounds ∧
        ∀ u ∈ s.rngWords, mrRound (bvVal (regVal s rs1)) (mrBaseOf u (bvVal (regVal s rs1))) = true) →
      step s = .next { s with inputs := rest })

/-! ## Host programs (30_encoding.md R80) -/

/-- R80, R257, R263: from an idle, error-free state an ISSUE, with any number of polls before the unit completes, runs exactly its command and
ends with the STATUS after it in the host's hands. -/
def Obligations.IssueRunsTheCommand : Prop :=
  ∀ s i early rest t, i.wellFormed = true → s.err = false → s.pending = none →
    s.inputs = issueSeq s.cfg.base early i ++ rest →
    exec i { s with pending := some ⟨encodeCmd i, s.dataIn⟩, inputs := rest } = .next t →
      Host.Core.run core (early + 3) s = .next { t with reply := some (.data (readWindow t .status)) }
end

