-- ==== Sys2Proof/Laws/BitVectors.lean ====
section
/-! SUPPORT. The value and the length of what each BitVector function answers (00_scope.md R10, R11; 40_bitvector.md R101;
41_arithmetic.md R141, R144, R147). A BitVector is its length and its value, so these say all of it. -/

namespace Sys2Proof.Machine

/-! ## Value and length -/

@[simp] theorem bvVal_nil : bvVal [] = 0 := rfl

@[simp] theorem bvVal_cons (b : Bool) (v : BitVector) : bvVal (b :: v) = b.toNat + 2 * bvVal v := rfl

theorem bvVal_lt (v : BitVector) : bvVal v < 2 ^ v.length := by
  induction v with
  | nil => simp
  | cons b v ih => cases b <;> simp [pow_succ] <;> omega

theorem bvVal_append (a b : BitVector) : bvVal (a ++ b) = bvVal a + 2 ^ a.length * bvVal b := by
  induction a with
  | nil => simp
  | cons x a ih => simp [ih, pow_succ]; ring

@[simp] theorem bvVal_zeros (n : Nat) : bvVal (List.replicate n false) = 0 := by
  induction n with
  | zero => rfl
  | succ n ih => simp [List.replicate_succ, ih]

@[simp] theorem bvn_length (x n : Nat) : (bvn x n).length = n := by
  induction n generalizing x with
  | zero => rfl
  | succ n ih => simp [bvn, ih]

@[simp] theorem bvVal_bvn (x n : Nat) : bvVal (bvn x n) = x % 2 ^ n := by
  induction n generalizing x with
  | zero => simp [bvn, Nat.mod_one]
  | succ n ih =>
    rw [bvn, bvVal_cons, ih, Nat.pow_succ', Nat.mod_mul]
    rcases Nat.mod_two_eq_zero_or_one x with h | h <;> simp [h]

theorem bvVal_bvn_of_lt {x n : Nat} (h : x < 2 ^ n) : bvVal (bvn x n) = x := by
  rw [bvVal_bvn, Nat.mod_eq_of_lt h]

/-- A BitVector is determined by its length and its value. -/
theorem bvn_bvVal (v : BitVector) : bvn (bvVal v) v.length = v := by
  induction v with
  | nil => rfl
  | cons b v ih =>
    cases b
    · simp [bvn, ih]
    · have h : (1 + 2 * bvVal v) / 2 = bvVal v := by omega
      simp [bvn, h, ih]

theorem eq_bvn {v : BitVector} {x n : Nat} (hl : v.length = n) (hv : bvVal v = x) : v = bvn x n := by
  subst hl hv; exact (bvn_bvVal v).symm

theorem bvn_zero (n : Nat) : bvn 0 n = List.replicate n false := by
  induction n with
  | zero => rfl
  | succ n ih => simp [bvn, ih, List.replicate_succ]

@[simp] theorem zext_length (v : BitVector) (n : Nat) : (zext v n).length = max v.length n := by
  simp [zext]; omega

@[simp] theorem bvVal_zext (v : BitVector) (n : Nat) : bvVal (zext v n) = bvVal v := by
  simp [zext, bvVal_append]

/-- Bit `j` of the value is bit `j` of the vector, 0 above the length (R10). -/
theorem testBit_bvVal (v : BitVector) (j : Nat) : (bvVal v).testBit j = (v[j]?).getD false := by
  induction v generalizing j with
  | nil => simp
  | cons b v ih =>
    cases j with
    | zero => cases b <;> simp [Nat.testBit_zero]
    | succ j =>
      have : (b.toNat + 2 * bvVal v) / 2 = bvVal v := by have := Bool.toNat_le b; omega
      rw [bvVal_cons, Nat.testBit_add_one, this, ih]; simp

/-! ## bitlen and dec2bin -/

@[simp] theorem bitlen_zero : bitlen 0 = 0 := rfl

/-- `bitlen(x)` is the least `n` with `x < 2^n` (R11). -/
theorem bitlen_le_iff (x n : Nat) : bitlen x ≤ n ↔ x < 2 ^ n := by
  unfold bitlen
  split
  case isTrue h => simp [h]
  case isFalse h => rw [Nat.succ_le_iff, Nat.log2_lt h]

theorem lt_two_pow_bitlen (x : Nat) : x < 2 ^ bitlen x := (bitlen_le_iff x _).mp le_rfl

theorem bitlen_pos {x : Nat} (h : x ≠ 0) : 0 < bitlen x := by simp [bitlen, h]

theorem bitlen_two_pow (k : Nat) : bitlen (2 ^ k) = k + 1 := by
  apply le_antisymm
  · rw [bitlen_le_iff]; exact Nat.pow_lt_pow_right (by omega) (by omega)
  · by_contra h
    have : bitlen (2 ^ k) ≤ k := by omega
    rw [bitlen_le_iff] at this; omega

theorem bitlen_half_lt {x n : Nat} (h : x < 2 ^ (n + 1)) : x / 2 < 2 ^ n := by
  rw [Nat.pow_succ] at h; omega

/-- `val(dec2bin(x)) = x` (40_bitvector.md R115). -/
@[simp] theorem bvVal_dec2bin (x : Nat) : bvVal (dec2bin x) = x := by
  unfold dec2bin
  split
  case isTrue h => simp [h]
  case isFalse => exact bvVal_bvn_of_lt (lt_two_pow_bitlen x)

/-- `len(dec2bin(x)) = max(1, bitlen(x))` (R115). -/
theorem dec2bin_length (x : Nat) : (dec2bin x).length = max 1 (bitlen x) := by
  unfold dec2bin
  split
  case isTrue h => simp [h]
  case isFalse h => have := bitlen_pos h; simp; omega

theorem dec2bin_length_le {x n : Nat} (hn : 1 ≤ n) (h : x < 2 ^ n) : (dec2bin x).length ≤ n := by
  rw [dec2bin_length]; exact max_le hn ((bitlen_le_iff x n).mpr h)

theorem dec2bin_ne_nil (x : Nat) : dec2bin x ≠ [] := by
  have := dec2bin_length x
  intro h; simp [h] at this; omega

/-! ## Addition -/

/-- What a ripple adds up to: the carry in and both operands. -/
theorem bvVal_ripple (c : Bool) (ps : List (Bool × Bool)) :
    bvVal (ripple c ps) = c.toNat + bvVal (ps.map Prod.fst) + bvVal (ps.map Prod.snd) := by
  induction ps generalizing c with
  | nil => cases c <;> simp [ripple]
  | cons p ps ih =>
    obtain ⟨a, b⟩ := p
    rw [ripple, bvVal_cons, ih]
    cases a <;> cases b <;> cases c <;> simp <;> omega

/-- A ripple grows its result by one bit, a set one, exactly when the sum needs it. -/
theorem ripple_length (c : Bool) (ps : List (Bool × Bool)) :
    (ripple c ps).length = max ps.length (bitlen (bvVal (ripple c ps))) := by
  have key : ∀ (c : Bool) (ps : List (Bool × Bool)), (ripple c ps).length = ps.length ∨
      ((ripple c ps).length = ps.length + 1 ∧ 2 ^ ps.length ≤ bvVal (ripple c ps)) := by
    intro c ps
    induction ps generalizing c with
    | nil => cases c <;> simp [ripple]
    | cons p ps ih =>
      obtain ⟨a, b⟩ := p
      rcases ih ((a && b) || (c && (a || b))) with h | ⟨h, hv⟩
      · left; simp [ripple, h]
      · right; simp only [ripple, List.length_cons, h, bvVal_cons, pow_succ, true_and]; omega
  rcases key c ps with h | ⟨h, hv⟩
  · have := (bitlen_le_iff _ _).mpr (bvVal_lt (ripple c ps))
    omega
  · have h1 := (bitlen_le_iff _ _).mpr (bvVal_lt (ripple c ps))
    have h2 : ¬ bitlen (bvVal (ripple c ps)) ≤ ps.length := by rw [bitlen_le_iff]; omega
    omega

theorem map_fst_zip_zext (a b : BitVector) :
    ((zext a (max a.length b.length)).zip (zext b (max a.length b.length))).map Prod.fst =
      zext a (max a.length b.length) := by
  apply List.map_fst_zip; simp

theorem map_snd_zip_zext (a b : BitVector) :
    ((zext a (max a.length b.length)).zip (zext b (max a.length b.length))).map Prod.snd =
      zext b (max a.length b.length) := by
  apply List.map_snd_zip; simp

/-- `val(add(a, b)) = val(a) + val(b)` (R154 item 1). -/
@[simp] theorem bvVal_bvAdd (a b : BitVector) : bvVal (bvAdd a b) = bvVal a + bvVal b := by
  simp only [bvAdd, bvVal_ripple, map_fst_zip_zext, map_snd_zip_zext, bvVal_zext]
  simp

/-- The length of a sum (R141). -/
theorem bvAdd_length (a b : BitVector) :
    (bvAdd a b).length = max (max a.length b.length) (bitlen (bvVal a + bvVal b)) := by
  rw [← bvVal_bvAdd]
  conv_lhs => rw [bvAdd]
  simp only [ripple_length]
  simp [bvAdd]

/-- The closed form of R141. -/
theorem bvAdd_eq (a b : BitVector) :
    bvAdd a b = bvn (bvVal a + bvVal b) (max (max a.length b.length) (bitlen (bvVal a + bvVal b))) :=
  eq_bvn (bvAdd_length a b) (bvVal_bvAdd a b)

/-! ## Subtraction -/

theorem bvVal_map_not (v : BitVector) : bvVal (v.map (!·)) = 2 ^ v.length - 1 - bvVal v := by
  induction v with
  | nil => rfl
  | cons b v ih =>
    have := bvVal_lt v
    simp only [List.map_cons, bvVal_cons, ih, List.length_cons, pow_succ]
    cases b <;> simp <;> omega

theorem bvVal_take (v : BitVector) (n : Nat) : bvVal (v.take n) = bvVal v % 2 ^ n := by
  induction v generalizing n with
  | nil => simp
  | cons b v ih =>
    cases n with
    | zero => simp [Nat.mod_one]
    | succ n =>
      rw [List.take_succ_cons, bvVal_cons, ih, bvVal_cons, Nat.pow_succ', Nat.mod_mul]
      have hb := Bool.toNat_le b
      have h1 : (b.toNat + 2 * bvVal v) % 2 = b.toNat := by omega
      have h2 : (b.toNat + 2 * bvVal v) / 2 = bvVal v := by omega
      rw [h1, h2]

theorem bvVal_drop (v : BitVector) (n : Nat) : bvVal (v.drop n) = bvVal v / 2 ^ n := by
  induction v generalizing n with
  | nil => simp
  | cons b v ih =>
    cases n with
    | zero => simp
    | succ n =>
      have hb := Bool.toNat_le b
      have h2 : (b.toNat + 2 * bvVal v) / 2 = bvVal v := by omega
      rw [List.drop_succ_cons, ih, bvVal_cons, Nat.pow_succ', ← Nat.div_div_eq_div_mul, h2]

/-- The length of a difference (R144). -/
theorem bvSub_length (a b : BitVector) : (bvSub a b).1.length = max a.length b.length := by
  simp [bvSub, bvAdd_length]; omega

/-- The value of a difference, the wrap of R144's closed form. -/
theorem bvVal_bvSub (a b : BitVector) :
    bvVal (bvSub a b).1 =
      (bvVal a + 2 ^ max a.length b.length - bvVal b) % 2 ^ max a.length b.length := by
  have hb : bvVal b < 2 ^ max a.length b.length :=
    lt_of_lt_of_le (bvVal_lt b) (Nat.pow_le_pow_right (by omega) (le_max_right _ _))
  simp only [bvSub, bvVal_take, bvVal_bvAdd, bvVal_zext, bvVal_map_not, zext_length]
  have hm : max b.length (max a.length b.length) = max a.length b.length := by omega
  rw [hm]
  congr 1
  simp
  omega

@[simp] theorem bvSub_borrow (a b : BitVector) : (bvSub a b).2 = decide (bvVal a < bvVal b) := rfl

/-! ## Multiplication -/

theorem bitlen_mono {x y : Nat} (h : x ≤ y) : bitlen x ≤ bitlen y :=
  (bitlen_le_iff _ _).mpr (lt_of_le_of_lt h (lt_two_pow_bitlen y))

/-- What the loop of R147 adds up to. -/
theorem bvVal_egyptianLoop (as r res : BitVector) :
    bvVal (egyptianLoop as r res) = bvVal res + bvVal as * bvVal r := by
  induction as generalizing r res with
  | nil => simp [egyptianLoop]
  | cons a as ih =>
    rw [egyptianLoop, ih]
    cases a <;> simp <;> ring

/-- A length that only the growth of sums has set: `l`, or what the value needs. -/
theorem bvAdd_length_of_grown {l : Nat} {a b : BitVector} (ha : a.length = max l (bitlen (bvVal a)))
    (hb : b.length = max l (bitlen (bvVal b))) :
    (bvAdd a b).length = max l (bitlen (bvVal (bvAdd a b))) := by
  have h1 : bitlen (bvVal a) ≤ bitlen (bvVal a + bvVal b) := bitlen_mono (by omega)
  have h2 : bitlen (bvVal b) ≤ bitlen (bvVal a + bvVal b) := bitlen_mono (by omega)
  rw [bvAdd_length, bvVal_bvAdd]
  omega

/-- The loop of R147 keeps lengths that only sums have grown. -/
theorem egyptianLoop_length {l : Nat} (as : BitVector) {r res : BitVector}
    (hr : r.length = max l (bitlen (bvVal r))) (hres : res.length = max l (bitlen (bvVal res))) :
    (egyptianLoop as r res).length = max l (bitlen (bvVal (egyptianLoop as r res))) := by
  induction as generalizing r res with
  | nil => exact hres
  | cons a as ih =>
    rw [egyptianLoop]
    apply ih (bvAdd_length_of_grown hr hr)
    split
    · exact bvAdd_length_of_grown hres hr
    · exact hres

/-- The value of the Egyptian product (R147). -/
@[simp] theorem bvVal_mulEgyptian (a b : BitVector) : bvVal (mulEgyptian a b) = bvVal a * bvVal b := by
  simp [mulEgyptian, bvVal_egyptianLoop]

/-- The length of the Egyptian product (R147). -/
theorem mulEgyptian_length (a b : BitVector) :
    (mulEgyptian a b).length = max (max a.length b.length) (bitlen (bvVal a * bvVal b)) := by
  rw [← bvVal_mulEgyptian]
  apply egyptianLoop_length
  · have h : bitlen (bvVal b) ≤ b.length := (bitlen_le_iff _ _).mpr (bvVal_lt b)
    simp only [zext_length, bvVal_zext]; omega
  · simp

/-- The closed form of R147. -/
theorem mulEgyptian_eq (a b : BitVector) :
    mulEgyptian a b = bvn (bvVal a * bvVal b) (max (max a.length b.length) (bitlen (bvVal a * bvVal b))) :=
  eq_bvn (mulEgyptian_length a b) (bvVal_mulEgyptian a b)

/-! ## Powers of two -/

@[simp] theorem isPow2_nil : isPow2 [] = false := rfl

theorem isPow2_cons_false (v : BitVector) : isPow2 (false :: v) = isPow2 v := by simp [isPow2]

theorem isPow2_cons_true (v : BitVector) : isPow2 (true :: v) = (v.count true == 0) := by simp [isPow2]

theorem bvVal_eq_zero_iff (v : BitVector) : bvVal v = 0 ↔ v.count true = 0 := by
  induction v with
  | nil => simp
  | cons b v ih => cases b <;> simp [ih]

/-- A vector has exactly one set bit when its value is a power of two (00_scope.md R11, R18). -/
theorem isPow2_iff (v : BitVector) : isPow2 v = true ↔ ∃ k, bvVal v = 2 ^ k := by
  induction v with
  | nil => simp [fun k : Nat => (Nat.two_pow_pos k).ne]
  | cons b v ih =>
    cases b
    · rw [isPow2_cons_false, ih]
      constructor
      · rintro ⟨k, hk⟩; exact ⟨k + 1, by simp [hk, pow_succ]; ring⟩
      · rintro ⟨k, hk⟩
        cases k with
        | zero => simp at hk
        | succ k => exact ⟨k, by simp [pow_succ] at hk; omega⟩
    · rw [isPow2_cons_true, beq_iff_eq, ← bvVal_eq_zero_iff]
      constructor
      · intro h; exact ⟨0, by simp [h]⟩
      · rintro ⟨k, hk⟩
        cases k with
        | zero => simp at hk; omega
        | succ k => simp [pow_succ] at hk; omega

/-! ## Shifts -/

theorem bvVal_bvShl (a : BitVector) (k : Nat) : bvVal (bvShl a k) = bvVal a * 2 ^ k := by
  simp [bvShl, bvVal_append, mul_comm]

theorem bvShl_length (a : BitVector) (k : Nat) : (bvShl a k).length = a.length + k := by
  simp [bvShl]; omega

theorem bvShr_length (a : BitVector) (k : Nat) :
    (bvShr a k).length = if a.length ≤ k then 1 else a.length - k := by
  unfold bvShr; split <;> simp

end Sys2Proof.Machine
end

