-- ==== Sys2Proof/Laws/NumberTheory.lean ====
section
/-! SUPPORT. What each loop of 42_number_theory.md comes to: the fuel each is started with is enough (log entry 7). -/

namespace Sys2Proof.Machine

/-! ## Greatest common divisor (R181) -/

theorem gcdLoop_eq (fuel a b : Nat) (h : b < fuel) : gcdLoop fuel a b = Nat.gcd a b := by
  induction fuel generalizing a b with
  | zero => omega
  | succ fuel ih =>
    rw [gcdLoop]
    split
    case isTrue hb => simp [hb]
    case isFalse hb =>
      have := Nat.mod_lt a (Nat.pos_of_ne_zero hb)
      rw [ih b (a % b) (by omega), Nat.gcd_comm b, ← Nat.gcd_rec, Nat.gcd_comm]

/-- The Euclidean loop answers the greatest common divisor. -/
theorem ntGcd_eq (a b : Nat) : ntGcd a b = Nat.gcd a b := gcdLoop_eq _ _ _ (by omega)

/-! ## Modular exponentiation (R183) -/

theorem modexpLoop_eq (m fuel result base e : Nat) (hr : result % m = result) (h : e < 2 ^ fuel) :
    modexpLoop m fuel result base e = result * base ^ e % m := by
  induction fuel generalizing result base e with
  | zero =>
    have : e = 0 := by simpa using h
    simp [modexpLoop, this, hr]
  | succ fuel ih =>
    rw [modexpLoop]
    split
    case isTrue he => simp [he, hr]
    case isFalse he =>
      have he2 := Nat.div_add_mod e 2
      rcases Nat.mod_two_eq_zero_or_one e with h0 | h1
      · rw [if_neg (by omega), ih _ _ _ hr (bitlen_half_lt h)]
        conv_rhs => rw [← he2, h0, add_zero, pow_mul, Nat.mul_mod, Nat.pow_mod, pow_two]
        conv_lhs => rw [Nat.mul_mod, Nat.pow_mod, Nat.mod_mod]
      · rw [if_pos h1, ih _ _ _ (Nat.mod_mod _ _) (bitlen_half_lt h)]
        conv_rhs => rw [← he2, h1, pow_succ, pow_mul, mul_comm _ base, ← mul_assoc, Nat.mul_mod, Nat.pow_mod, pow_two]
        conv_lhs => rw [Nat.mul_mod, Nat.pow_mod, Nat.mod_mod]
        simp

/-- `modexp(b, e, m) = b^e mod m` (R183, R192 item 2). -/
theorem ntModexp_eq (b e m : Nat) : ntModexp b e m = b ^ e % m := by
  rw [ntModexp, modexpLoop_eq _ _ _ _ _ (by simp) (lt_two_pow_bitlen e), Nat.mul_mod, Nat.mod_mod, ← Nat.pow_mod,
    ← Nat.mul_mod, one_mul]

/-! ## Miller-Rabin (R185, R188) -/

theorem decompLoop_spec (fuel d r : Nat) (hd : d ≠ 0) (h : d < 2 ^ fuel) :
    (decompLoop fuel d r).1 * 2 ^ (decompLoop fuel d r).2 = d * 2 ^ r ∧ (decompLoop fuel d r).1 % 2 = 1 ∧
      r ≤ (decompLoop fuel d r).2 := by
  induction fuel generalizing d r with
  | zero => simp at h; exact absurd h hd
  | succ fuel ih =>
    rw [decompLoop]
    split
    case isTrue he =>
      obtain ⟨h1, h2, h3⟩ := ih (d / 2) (r + 1) (by omega) (bitlen_half_lt h)
      refine ⟨?_, h2, by omega⟩
      rw [h1, pow_succ, mul_comm (2 ^ r) 2, ← mul_assoc, Nat.div_mul_cancel (Nat.dvd_of_mod_eq_zero he)]
    case isFalse ho => exact ⟨rfl, by omega, le_rfl⟩

/-- `decomp(x)` is the `(d, r)` with `x − 1 = d · 2^r` and `d` odd (R185). -/
theorem decomp_spec {x : Nat} (h : 2 ≤ x) :
    (decomp x).1 * 2 ^ (decomp x).2 = x - 1 ∧ (decomp x).1 % 2 = 1 := by
  have := decompLoop_spec (bitlen (x - 1)) (x - 1) 0 (by omega) (lt_two_pow_bitlen _)
  rw [pow_zero, mul_one] at this
  exact ⟨this.1, this.2.1⟩

/-- The base of a round lies in the range of R187. -/
theorem mrBaseOf_range (w : Word64) {x : Nat} (h : 5 ≤ x) : 2 ≤ mrBaseOf w x ∧ mrBaseOf w x ≤ x - 2 := by
  have := Nat.mod_lt w.toNat (show max 1 (x - 3) > 0 by omega)
  unfold mrBaseOf; omega

/-- Rounds want a word exactly when there are fewer words than rounds and every one so far passes (R188). -/
theorem mrRounds_eq_none_iff {x n : Nat} {ws : List Word64} :
    mrRounds x n ws = none ↔ ws.length < n ∧ ∀ w ∈ ws, mrRound x (mrBaseOf w x) = true := by
  induction n generalizing ws with
  | zero => simp [mrRounds]
  | succ n ih =>
    cases ws with
    | nil => simp [mrRounds]
    | cons w ws =>
      rw [mrRounds]
      split
      case isTrue h => rw [ih]; simp [h]
      case isFalse h => simp [h]

/-- With a word for every round, the rounds are decided: passed when every base of them passes (R188). -/
theorem mrRounds_of_enough {x n : Nat} {ws : List Word64} (h : n ≤ ws.length) :
    mrRounds x n ws = some ((ws.take n).all fun w => mrRound x (mrBaseOf w x)) := by
  induction n generalizing ws with
  | zero => simp [mrRounds]
  | succ n ih =>
    cases ws with
    | nil => simp at h
    | cons w ws =>
      rw [mrRounds]
      split
      case isTrue hp => rw [ih (by simpa using h)]; simp [hp]
      case isFalse hp => simp [hp]

/-! ## Modular inverse (R190) -/

/-- The invariants of R190 and the end of the loop: the last remainder is the greatest common divisor, and the y-sequence's value is
a coefficient of it. -/
theorem eeaLoop_spec (e phi : Int) (fuel : Nat) (oldR r oldS s oldT t : Int) (hr : 0 ≤ r) (hor : 0 ≤ oldR)
    (hf : r < fuel) (h1 : oldR = oldS * phi + oldT * e) (h2 : r = s * phi + t * e) :
    ∃ k : Int, (eeaLoop fuel (oldR, r) (oldS, s) (oldT, t)).1 = k * phi +
        (eeaLoop fuel (oldR, r) (oldS, s) (oldT, t)).2 * e ∧
      (eeaLoop fuel (oldR, r) (oldS, s) (oldT, t)).1 = Int.gcd oldR r := by
  induction fuel generalizing oldR r oldS s oldT t with
  | zero => simp at hf; omega
  | succ fuel ih =>
    rw [eeaLoop]
    split
    case isTrue h0 => exact ⟨oldS, h1, by simp [h0, abs_of_nonneg hor]⟩
    case isFalse h0 =>
      have hpos : 0 < r := lt_of_le_of_ne hr (Ne.symm h0)
      have hm : oldR - oldR / r * r = oldR % r := by have := Int.mul_ediv_add_emod oldR r; linarith [mul_comm r (oldR / r)]
      have hlt := Int.emod_lt_of_pos oldR hpos
      have hnn := Int.emod_nonneg oldR h0
      obtain ⟨k, hk1, hk2⟩ := ih r (oldR - oldR / r * r) s (oldS - oldR / r * s) t (oldT - oldR / r * t)
        (by rw [hm]; exact hnn) hr (by rw [hm]; push_cast at hf; omega) h2
        (by conv_lhs => rw [h1, h2]
            conv_rhs => rw [h1, h2]
            ring)
      refine ⟨k, hk1, ?_⟩
      rw [hk2, hm, Int.gcd_comm, Int.gcd_emod]

end Sys2Proof.Machine
end

