-- ==== Sys2Proof/Laws/State.lean ====
section
/-! SUPPORT. What each update of the state leaves in each field, one lemma per field per update, and the reads of registers after
them; later proofs cite these instead of unfolding a record update. -/

namespace Sys2Proof.Machine

/-! ## A register written -/

@[simp] theorem setReg_cfg (s : State) (r : Reg) (v : BitVector) : (setReg s r v).cfg = s.cfg := rfl
@[simp] theorem setReg_regs (s : State) (r : Reg) (v : BitVector) : (setReg s r v).regs = s.regs.set r.val v := rfl
@[simp] theorem setReg_res (s : State) (r : Reg) (v : BitVector) : (setReg s r v).res = s.res := rfl
@[simp] theorem setReg_borrow (s : State) (r : Reg) (v : BitVector) : (setReg s r v).borrow = s.borrow := rfl
@[simp] theorem setReg_err (s : State) (r : Reg) (v : BitVector) : (setReg s r v).err = s.err := rfl
@[simp] theorem setReg_errCode (s : State) (r : Reg) (v : BitVector) : (setReg s r v).errCode = s.errCode := rfl
@[simp] theorem setReg_errInfo (s : State) (r : Reg) (v : BitVector) : (setReg s r v).errInfo = s.errInfo := rfl
@[simp] theorem setReg_dataIn (s : State) (r : Reg) (v : BitVector) : (setReg s r v).dataIn = s.dataIn := rfl
@[simp] theorem setReg_dataOut (s : State) (r : Reg) (v : BitVector) : (setReg s r v).dataOut = s.dataOut := rfl
@[simp] theorem setReg_pending (s : State) (r : Reg) (v : BitVector) : (setReg s r v).pending = s.pending := rfl
@[simp] theorem setReg_rngWords (s : State) (r : Reg) (v : BitVector) : (setReg s r v).rngWords = s.rngWords := rfl
@[simp] theorem setReg_inputs (s : State) (r : Reg) (v : BitVector) : (setReg s r v).inputs = s.inputs := rfl
@[simp] theorem setReg_reply (s : State) (r : Reg) (v : BitVector) : (setReg s r v).reply = s.reply := rfl

/-! ## DATA_OUT written -/

@[simp] theorem setDataOut_cfg (s : State) (v : Word64) : (setDataOut s v).cfg = s.cfg := rfl
@[simp] theorem setDataOut_regs (s : State) (v : Word64) : (setDataOut s v).regs = s.regs := rfl
@[simp] theorem setDataOut_res (s : State) (v : Word64) : (setDataOut s v).res = s.res := rfl
@[simp] theorem setDataOut_borrow (s : State) (v : Word64) : (setDataOut s v).borrow = s.borrow := rfl
@[simp] theorem setDataOut_err (s : State) (v : Word64) : (setDataOut s v).err = s.err := rfl
@[simp] theorem setDataOut_errCode (s : State) (v : Word64) : (setDataOut s v).errCode = s.errCode := rfl
@[simp] theorem setDataOut_errInfo (s : State) (v : Word64) : (setDataOut s v).errInfo = s.errInfo := rfl
@[simp] theorem setDataOut_dataIn (s : State) (v : Word64) : (setDataOut s v).dataIn = s.dataIn := rfl
@[simp] theorem setDataOut_dataOut (s : State) (v : Word64) : (setDataOut s v).dataOut = v := rfl
@[simp] theorem setDataOut_pending (s : State) (v : Word64) : (setDataOut s v).pending = s.pending := rfl
@[simp] theorem setDataOut_rngWords (s : State) (v : Word64) : (setDataOut s v).rngWords = s.rngWords := rfl
@[simp] theorem setDataOut_inputs (s : State) (v : Word64) : (setDataOut s v).inputs = s.inputs := rfl
@[simp] theorem setDataOut_reply (s : State) (v : Word64) : (setDataOut s v).reply = s.reply := rfl

/-! ## RES written -/

@[simp] theorem setRes_cfg (s : State) (b : Bool) : (setRes s b).cfg = s.cfg := rfl
@[simp] theorem setRes_regs (s : State) (b : Bool) : (setRes s b).regs = s.regs := rfl
@[simp] theorem setRes_res (s : State) (b : Bool) : (setRes s b).res = b := rfl
@[simp] theorem setRes_borrow (s : State) (b : Bool) : (setRes s b).borrow = s.borrow := rfl
@[simp] theorem setRes_err (s : State) (b : Bool) : (setRes s b).err = s.err := rfl
@[simp] theorem setRes_errCode (s : State) (b : Bool) : (setRes s b).errCode = s.errCode := rfl
@[simp] theorem setRes_errInfo (s : State) (b : Bool) : (setRes s b).errInfo = s.errInfo := rfl
@[simp] theorem setRes_dataIn (s : State) (b : Bool) : (setRes s b).dataIn = s.dataIn := rfl
@[simp] theorem setRes_dataOut (s : State) (b : Bool) : (setRes s b).dataOut = s.dataOut := rfl
@[simp] theorem setRes_pending (s : State) (b : Bool) : (setRes s b).pending = s.pending := rfl
@[simp] theorem setRes_rngWords (s : State) (b : Bool) : (setRes s b).rngWords = s.rngWords := rfl
@[simp] theorem setRes_inputs (s : State) (b : Bool) : (setRes s b).inputs = s.inputs := rfl
@[simp] theorem setRes_reply (s : State) (b : Bool) : (setRes s b).reply = s.reply := rfl

/-! ## BORROW written -/

@[simp] theorem setBorrow_cfg (s : State) (b : Bool) : (setBorrow s b).cfg = s.cfg := rfl
@[simp] theorem setBorrow_regs (s : State) (b : Bool) : (setBorrow s b).regs = s.regs := rfl
@[simp] theorem setBorrow_res (s : State) (b : Bool) : (setBorrow s b).res = s.res := rfl
@[simp] theorem setBorrow_borrow (s : State) (b : Bool) : (setBorrow s b).borrow = b := rfl
@[simp] theorem setBorrow_err (s : State) (b : Bool) : (setBorrow s b).err = s.err := rfl
@[simp] theorem setBorrow_errCode (s : State) (b : Bool) : (setBorrow s b).errCode = s.errCode := rfl
@[simp] theorem setBorrow_errInfo (s : State) (b : Bool) : (setBorrow s b).errInfo = s.errInfo := rfl
@[simp] theorem setBorrow_dataIn (s : State) (b : Bool) : (setBorrow s b).dataIn = s.dataIn := rfl
@[simp] theorem setBorrow_dataOut (s : State) (b : Bool) : (setBorrow s b).dataOut = s.dataOut := rfl
@[simp] theorem setBorrow_pending (s : State) (b : Bool) : (setBorrow s b).pending = s.pending := rfl
@[simp] theorem setBorrow_rngWords (s : State) (b : Bool) : (setBorrow s b).rngWords = s.rngWords := rfl
@[simp] theorem setBorrow_inputs (s : State) (b : Bool) : (setBorrow s b).inputs = s.inputs := rfl
@[simp] theorem setBorrow_reply (s : State) (b : Bool) : (setBorrow s b).reply = s.reply := rfl

/-! ## The end of a command -/

@[simp] theorem retire_cfg (s : State) : (retire s).cfg = s.cfg := rfl
@[simp] theorem retire_regs (s : State) : (retire s).regs = s.regs := rfl
@[simp] theorem retire_res (s : State) : (retire s).res = s.res := rfl
@[simp] theorem retire_borrow (s : State) : (retire s).borrow = s.borrow := rfl
@[simp] theorem retire_err (s : State) : (retire s).err = s.err := rfl
@[simp] theorem retire_errCode (s : State) : (retire s).errCode = s.errCode := rfl
@[simp] theorem retire_errInfo (s : State) : (retire s).errInfo = s.errInfo := rfl
@[simp] theorem retire_dataIn (s : State) : (retire s).dataIn = s.dataIn := rfl
@[simp] theorem retire_dataOut (s : State) : (retire s).dataOut = s.dataOut := rfl
@[simp] theorem retire_pending (s : State) : (retire s).pending = none := rfl
@[simp] theorem retire_rngWords (s : State) : (retire s).rngWords = [] := rfl
@[simp] theorem retire_inputs (s : State) : (retire s).inputs = s.inputs := rfl
@[simp] theorem retire_reply (s : State) : (retire s).reply = s.reply := rfl

/-! ## Reset -/

@[simp] theorem resetUnit_cfg (s : State) : (resetUnit s).cfg = s.cfg := rfl
@[simp] theorem resetUnit_regs (s : State) : (resetUnit s).regs = Vector.replicate 16 [] := rfl
@[simp] theorem resetUnit_res (s : State) : (resetUnit s).res = false := rfl
@[simp] theorem resetUnit_borrow (s : State) : (resetUnit s).borrow = false := rfl
@[simp] theorem resetUnit_err (s : State) : (resetUnit s).err = false := rfl
@[simp] theorem resetUnit_errCode (s : State) : (resetUnit s).errCode = 0#4 := rfl
@[simp] theorem resetUnit_errInfo (s : State) : (resetUnit s).errInfo = 0#32 := rfl
@[simp] theorem resetUnit_dataIn (s : State) : (resetUnit s).dataIn = 0#64 := rfl
@[simp] theorem resetUnit_dataOut (s : State) : (resetUnit s).dataOut = 0#64 := rfl
@[simp] theorem resetUnit_pending (s : State) : (resetUnit s).pending = none := rfl
@[simp] theorem resetUnit_rngWords (s : State) : (resetUnit s).rngWords = [] := rfl
@[simp] theorem resetUnit_inputs (s : State) : (resetUnit s).inputs = s.inputs := rfl
@[simp] theorem resetUnit_reply (s : State) : (resetUnit s).reply = s.reply := rfl

/-! ## Taking an error -/

@[simp] theorem enterError_cfg (s : State) (c : ErrCode) (w : CmdWord) : (enterError s c w).cfg = s.cfg := by
  unfold enterError; split <;> rfl
@[simp] theorem enterError_regs (s : State) (c : ErrCode) (w : CmdWord) : (enterError s c w).regs = s.regs := by
  unfold enterError; split <;> rfl
@[simp] theorem enterError_res (s : State) (c : ErrCode) (w : CmdWord) : (enterError s c w).res = s.res := by
  unfold enterError; split <;> rfl
@[simp] theorem enterError_borrow (s : State) (c : ErrCode) (w : CmdWord) : (enterError s c w).borrow = s.borrow := by
  unfold enterError; split <;> rfl
@[simp] theorem enterError_dataIn (s : State) (c : ErrCode) (w : CmdWord) : (enterError s c w).dataIn = s.dataIn := by
  unfold enterError; split <;> rfl
@[simp] theorem enterError_dataOut (s : State) (c : ErrCode) (w : CmdWord) : (enterError s c w).dataOut = s.dataOut := by
  unfold enterError; split <;> rfl
@[simp] theorem enterError_pending (s : State) (c : ErrCode) (w : CmdWord) : (enterError s c w).pending = s.pending := by
  unfold enterError; split <;> rfl
@[simp] theorem enterError_rngWords (s : State) (c : ErrCode) (w : CmdWord) : (enterError s c w).rngWords = s.rngWords := by
  unfold enterError; split <;> rfl
@[simp] theorem enterError_inputs (s : State) (c : ErrCode) (w : CmdWord) : (enterError s c w).inputs = s.inputs := by
  unfold enterError; split <;> rfl
@[simp] theorem enterError_reply (s : State) (c : ErrCode) (w : CmdWord) : (enterError s c w).reply = s.reply := by
  unfold enterError; split <;> rfl

@[simp] theorem enterError_err (s : State) (c : ErrCode) (w : CmdWord) : (enterError s c w).err = true := by
  unfold enterError
  split
  case isTrue h => exact h
  case isFalse => rfl

/-- In the sticky error state the first error is kept (60_exceptions.md R224). -/
theorem enterError_of_err {s : State} (h : s.err = true) (c : ErrCode) (w : CmdWord) : enterError s c w = s := by
  simp [enterError, h]

/-- The first error is recorded (60_exceptions.md R222, R224). -/
theorem enterError_of_not_err {s : State} (h : s.err = false) (c : ErrCode) (w : CmdWord) :
    enterError s c w = { s with err := true, errCode := errNumber c, errInfo := w } := by
  simp [enterError, h]

/-! ## Registers after an update -/

@[simp] theorem regVal_setReg_self (s : State) (r : Reg) (v : BitVector) : regVal (setReg s r v) r = v := by
  simp [regVal]

@[simp] theorem regVal_setReg_ne (s : State) {r q : Reg} (v : BitVector) (h : q ≠ r) :
    regVal (setReg s r v) q = regVal s q := by
  have : r.val ≠ q.val := fun e => h (Fin.ext e.symm)
  simp [regVal, this]

/-- Every register after one is written (10_state.md R20). -/
theorem regVal_setReg (s : State) (r q : Reg) (v : BitVector) :
    regVal (setReg s r v) q = if q = r then v else regVal s q := by
  by_cases h : q = r
  · subst h; simp
  · simp [h]

@[simp] theorem regVal_resetUnit (s : State) (r : Reg) : regVal (resetUnit s) r = [] := by
  simp [regVal]

@[simp] theorem regVal_reset (r : Reg) : regVal State.reset r = [] := by
  simp [regVal, State.reset]

@[simp] theorem regVal_setDataOut (s : State) (v : Word64) (r : Reg) : regVal (setDataOut s v) r = regVal s r := rfl
@[simp] theorem regVal_setRes (s : State) (b : Bool) (r : Reg) : regVal (setRes s b) r = regVal s r := rfl
@[simp] theorem regVal_setBorrow (s : State) (b : Bool) (r : Reg) : regVal (setBorrow s b) r = regVal s r := rfl
@[simp] theorem regVal_retire (s : State) (r : Reg) : regVal (retire s) r = regVal s r := rfl

@[simp] theorem regVal_enterError (s : State) (c : ErrCode) (w : CmdWord) (r : Reg) :
    regVal (enterError s c w) r = regVal s r := by simp [regVal]

end Sys2Proof.Machine
end

