-- ==== Sys2Proof/Laws/Ops.lean ====
section
/-! SUPPORT. What each shared operation answers, said once: the operand forms with their checks, and the end of a command. -/

namespace Sys2Proof.Machine

/-! ## Operands -/

/-- A BitVector operand is what the register holds, which is not empty (10_state.md R23). -/
theorem operand_eq_ok {s : State} {r : Reg} {v : BitVector} : operand s r = .ok v ↔ regVal s r = v ∧ v ≠ [] := by
  unfold operand
  split
  case isTrue h => simp_all
  case isFalse h =>
    simp only [List.isEmpty_iff] at h
    constructor
    · intro e; cases e; exact ⟨rfl, h⟩
    · rintro ⟨rfl, _⟩; rfl

/-- The one error of a BitVector operand. -/
theorem operand_eq_error {s : State} {r : Reg} {c : ErrCode} : operand s r = .error c ↔ regVal s r = [] ∧ c = .empty := by
  unfold operand
  split
  case isTrue h =>
    simp only [List.isEmpty_iff] at h
    exact ⟨fun e => by cases e; exact ⟨h, rfl⟩, fun e => by rw [e.2]⟩
  case isFalse h =>
    simp only [List.isEmpty_iff] at h
    exact ⟨(fun e => by cases e), fun e => absurd e.1 h⟩

@[simp] theorem operand_of_ne {s : State} {r : Reg} (h : regVal s r ≠ []) : operand s r = .ok (regVal s r) :=
  operand_eq_ok.mpr ⟨rfl, h⟩

@[simp] theorem operand_of_empty {s : State} {r : Reg} (h : regVal s r = []) : operand s r = .error .empty :=
  operand_eq_error.mpr ⟨h, rfl⟩

@[simp] theorem operands2_of_ne {s : State} {r1 r2 : Reg} (h1 : regVal s r1 ≠ []) (h2 : regVal s r2 ≠ []) :
    operands2 s r1 r2 = .ok (regVal s r1, regVal s r2) := by
  simp [operands2, h1, h2, bind, Except.bind, pure, Except.pure]

/-- Both operands of a pair, or E_EMPTY. -/
theorem operands2_eq_ok {s : State} {r1 r2 : Reg} {ab : BitVector × BitVector} :
    operands2 s r1 r2 = .ok ab ↔ ab = (regVal s r1, regVal s r2) ∧ regVal s r1 ≠ [] ∧ regVal s r2 ≠ [] := by
  by_cases h1 : regVal s r1 = [] <;> by_cases h2 : regVal s r2 = [] <;>
    simp [operands2, h1, h2, bind, Except.bind, pure, Except.pure, eq_comm]

theorem operands2_of_empty {s : State} {r1 r2 : Reg} (h : regVal s r1 = [] ∨ regVal s r2 = []) :
    operands2 s r1 r2 = .error .empty := by
  by_cases h1 : regVal s r1 = []
  · simp [operands2, h1, bind, Except.bind]
  · simp [operands2, h1, h.resolve_left h1, bind, Except.bind]

/-- A value below 2^64 is admitted as itself (10_state.md R24). -/
@[simp] theorem toInt64_of_lt {v : BitVector} (h : bvVal v < 2 ^ 64) : toInt64 v = .ok (bvVal v) := by
  exact if_pos h

@[simp] theorem toInt64_of_ge {v : BitVector} (h : 2 ^ 64 ≤ bvVal v) : toInt64 v = .error .overflow := by
  exact if_neg (Nat.not_lt.mpr h)

theorem toInt64_eq_ok {v : BitVector} {x : Nat} : toInt64 v = .ok x ↔ bvVal v = x ∧ bvVal v < 2 ^ 64 := by
  by_cases h : bvVal v < 2 ^ 64
  · rw [toInt64_of_lt h]
    exact ⟨fun e => ⟨Except.ok.inj e, h⟩, fun e => by rw [e.1]⟩
  · rw [toInt64_of_ge (Nat.not_lt.mp h)]
    exact ⟨(fun e => by cases e), fun e => absurd e.2 h⟩

@[simp] theorem ntOperand_ok {s : State} {r : Reg} (h : regVal s r ≠ []) (hx : bvVal (regVal s r) < 2 ^ 64) :
    ntOperand s r = .ok (bvVal (regVal s r)) := by
  simp [ntOperand, h, toInt64_of_lt hx, bind, Except.bind]

@[simp] theorem ntOperands2_ok {s : State} {r1 r2 : Reg} (h1 : regVal s r1 ≠ []) (h2 : regVal s r2 ≠ [])
    (hx : bvVal (regVal s r1) < 2 ^ 64) (hy : bvVal (regVal s r2) < 2 ^ 64) :
    ntOperands2 s r1 r2 = .ok (bvVal (regVal s r1), bvVal (regVal s r2)) := by
  simp [ntOperands2, h1, h2, toInt64_of_lt hx, toInt64_of_lt hy, bind, Except.bind, pure, Except.pure]

@[simp] theorem ntOperands3_ok {s : State} {r1 r2 r3 : Reg} (h1 : regVal s r1 ≠ []) (h2 : regVal s r2 ≠ [])
    (h3 : regVal s r3 ≠ []) (hx : bvVal (regVal s r1) < 2 ^ 64) (hy : bvVal (regVal s r2) < 2 ^ 64)
    (hz : bvVal (regVal s r3) < 2 ^ 64) :
    ntOperands3 s r1 r2 r3 = .ok (bvVal (regVal s r1), bvVal (regVal s r2), bvVal (regVal s r3)) := by
  simp [ntOperands3, h1, h2, h3, toInt64_of_lt hx, toInt64_of_lt hy, toInt64_of_lt hz, bind, Except.bind, pure,
    Except.pure]

@[simp] theorem require_ok {b : Bool} {c : ErrCode} (h : b = true) : require b c = .ok () := by simp [require, h]

@[simp] theorem require_error {b : Bool} {c : ErrCode} (h : b = false) : require b c = .error c := by simp [require, h]

/-- A result that fits MAXLEN passes as it is (10_state.md R22). -/
theorem bounded_eq_ok {s : State} {v r : BitVector} : bounded s v = .ok r ↔ r = v ∧ v.length ≤ s.cfg.maxLen := by
  by_cases h : v.length ≤ s.cfg.maxLen
  · simp [bounded, require, h, bind, Except.bind, pure, Except.pure, eq_comm]
  · simp [bounded, require, h, bind, Except.bind]

@[simp] theorem orRaise_some {α : Type} (c : ErrCode) (a : α) : orRaise c (some a) = .ok a := rfl

@[simp] theorem orRaise_none {α : Type} (c : ErrCode) : orRaise c (none : Option α) = .error c := rfl

/-- The latched DATA_IN of a pending command (10_state.md R34). -/
theorem latchedDin_of_pending {s : State} {p : Pending} (h : s.pending = some p) : latchedDin s = p.din.toNat := by
  simp [latchedDin, h]

/-! ## The end of a command -/

@[simp] theorem complete_ok (s s' : State) : complete s (.ok s') = .next (retire s') := rfl

@[simp] theorem complete_error (s : State) (c : ErrCode) :
    complete s (.error c) = .next (retire (enterError s c (pendingWord s))) := rfl

/-- A completion step always answers a next state: all the command's writes, or the error and none of them
(60_exceptions.md R223). -/
theorem complete_cases (s : State) (r : Except ErrCode State) :
    (∃ s', r = .ok s' ∧ complete s r = .next (retire s')) ∨
      ∃ c, r = .error c ∧ complete s r = .next (retire (enterError s c (pendingWord s))) := by
  cases r with
  | ok s' => exact .inl ⟨s', rfl, rfl⟩
  | error c => exact .inr ⟨c, rfl, rfl⟩

/-- The word an error of a pending command records (60_exceptions.md R222). -/
theorem pendingWord_of_pending {s : State} {p : Pending} (h : s.pending = some p) :
    pendingWord s = p.cmd.extractLsb' 0 32 := by
  simp [pendingWord, h, commandWordOf]

end Sys2Proof.Machine
end

