-- ==== Sys2Proof/Laws/Exec.lean ====
section
/-! SUPPORT. What the completion step of a command can do, said once for all 24 (70_reset_and_hazards.md R256): it writes the results the
command has, or it takes an error that is not E_BUSY, or it is an MRTEST that waits. -/

namespace Sys2Proof.Machine

theorem bind_eq_ok {ε α β : Type} {x : Except ε α} {f : α → Except ε β} {b : β} :
    x >>= f = .ok b ↔ ∃ a, x = .ok a ∧ f a = .ok b := by
  cases x <;> simp [bind, Except.bind]

theorem bind_eq_error {ε α β : Type} {x : Except ε α} {f : α → Except ε β} {c : ε} :
    x >>= f = .error c ↔ x = .error c ∨ ∃ a, x = .ok a ∧ f a = .error c := by
  cases x <;> simp [bind, Except.bind]

@[simp] theorem pure_eq_ok {ε α : Type} {a b : α} : (pure a : Except ε α) = .ok b ↔ a = b := by
  simp [pure, Except.pure]

@[simp] theorem pure_ne_error {ε α : Type} {a : α} {c : ε} : (pure a : Except ε α) ≠ .error c := by
  simp [pure, Except.pure]

/-! ## The errors of the operand forms -/

theorem operands2_error {s : State} {r1 r2 : Reg} {c : ErrCode} (h : operands2 s r1 r2 = .error c) : c = .empty := by
  simp only [operands2, bind_eq_error, operand_eq_error, pure_ne_error, and_false, exists_false, or_false] at h
  rcases h with ⟨_, h⟩ | ⟨_, _, _, h⟩ <;> exact h

theorem toInt64_error {v : BitVector} {c : ErrCode} (h : toInt64 v = .error c) : c = .overflow := by
  unfold toInt64 at h
  split at h
  · cases h
  · exact (Except.error.inj h).symm

theorem require_error_code {b : Bool} {c d : ErrCode} (h : require b c = .error d) : d = c := by
  cases b <;> simp_all [require]

theorem bounded_error {s : State} {v : BitVector} {c : ErrCode} (h : bounded s v = .error c) : c = .length := by
  simp only [bounded, bind_eq_error, pure_ne_error, and_false, exists_false, or_false] at h
  exact require_error_code h

theorem orRaise_error {α : Type} {o : Option α} {c d : ErrCode} (h : orRaise c o = .error d) : d = c := by
  cases o with
  | none => exact (Except.error.inj h).symm
  | some a => cases h

theorem ntOperand_error {s : State} {r : Reg} {c : ErrCode} (h : ntOperand s r = .error c) :
    c = .empty ∨ c = .overflow := by
  simp only [ntOperand, bind_eq_error, operand_eq_error] at h
  rcases h with ⟨_, h⟩ | ⟨_, _, h⟩
  · exact .inl h
  · exact .inr (toInt64_error h)

theorem ntOperands2_error {s : State} {r1 r2 : Reg} {c : ErrCode} (h : ntOperands2 s r1 r2 = .error c) :
    c = .empty ∨ c = .overflow := by
  simp only [ntOperands2, bind_eq_error, operand_eq_error, pure_ne_error, and_false, exists_false, or_false] at h
  rcases h with ⟨_, h⟩ | ⟨_, _, ⟨_, h⟩ | ⟨_, _, h | ⟨_, _, h⟩⟩⟩
  · exact .inl h
  · exact .inl h
  · exact .inr (toInt64_error h)
  · exact .inr (toInt64_error h)

theorem ntOperands3_error {s : State} {r1 r2 r3 : Reg} {c : ErrCode} (h : ntOperands3 s r1 r2 r3 = .error c) :
    c = .empty ∨ c = .overflow := by
  simp only [ntOperands3, bind_eq_error, operand_eq_error, pure_ne_error, and_false, exists_false, or_false] at h
  rcases h with ⟨_, h⟩ | ⟨_, _, ⟨_, h⟩ | ⟨_, _, ⟨_, h⟩ | ⟨_, _, h | ⟨_, _, h | ⟨_, _, h⟩⟩⟩⟩⟩
  · exact .inl h
  · exact .inl h
  · exact .inl h
  · exact .inr (toInt64_error h)
  · exact .inr (toInt64_error h)
  · exact .inr (toInt64_error h)

/-! ## One command -/

/-- The writes a command can make, all of them of results it has (R75; 10_state.md R26, R27, R35). -/
inductive Wrote (i : Instr) (s : State) : State → Prop
  | nothing : Wrote i s s
  | reg {rd : Reg} (v : BitVector) : destOf i = some rd → Wrote i s (setReg s rd v)
  | regBorrow {rd : Reg} (v : BitVector) (b : Bool) : destOf i = some rd → writesBorrow i = true →
      Wrote i s (setBorrow (setReg s rd v) b)
  | res (b : Bool) : writesRes i = true → Wrote i s (setRes s b)
  | dataOut (v : Word64) : writesDataOut i = true → Wrote i s (setDataOut s v)

/-- What a command's pseudocode comes to: writes it has, or an error that is not E_BUSY (which no command raises, 60_exceptions.md
R221). -/
def Sound (i : Instr) (s : State) (r : Except ErrCode State) : Prop :=
  (∀ s', r = .ok s' → Wrote i s s') ∧ ∀ c, r = .error c → c ≠ .busy

theorem sound_ok {i : Instr} {s t : State} (h : Wrote i s t) : Sound i s (.ok t) :=
  ⟨fun s' e => by cases e; exact h, fun c e => by cases e⟩

theorem sound_error {i : Instr} {s : State} {c : ErrCode} (h : c ≠ .busy) : Sound i s (.error c) :=
  ⟨fun s' e => (by cases e), fun c' e => by cases e; exact h⟩

theorem sound_bind {i : Instr} {s : State} {α : Type} {x : Except ErrCode α} {f : α → Except ErrCode State}
    (hx : ∀ c, x = .error c → c ≠ .busy) (hf : ∀ a, Sound i s (f a)) : Sound i s (x >>= f) := by
  cases x with
  | error c => exact sound_error (hx c rfl)
  | ok a => exact hf a

theorem sound_operand {i : Instr} {s : State} {r : Reg} {f : BitVector → Except ErrCode State}
    (hf : ∀ a, Sound i s (f a)) : Sound i s (operand s r >>= f) :=
  sound_bind (fun c h => by rw [(operand_eq_error.mp h).2]; decide) hf

theorem sound_operands2 {i : Instr} {s : State} {r1 r2 : Reg} {f : BitVector × BitVector → Except ErrCode State}
    (hf : ∀ a, Sound i s (f a)) : Sound i s (operands2 s r1 r2 >>= f) :=
  sound_bind (fun c h => by rw [operands2_error h]; decide) hf

theorem sound_ntOperand {i : Instr} {s : State} {r : Reg} {f : Nat → Except ErrCode State}
    (hf : ∀ a, Sound i s (f a)) : Sound i s (ntOperand s r >>= f) :=
  sound_bind (fun c h => by rcases ntOperand_error h with e | e <;> rw [e] <;> decide) hf

theorem sound_ntOperands2 {i : Instr} {s : State} {r1 r2 : Reg} {f : Nat × Nat → Except ErrCode State}
    (hf : ∀ a, Sound i s (f a)) : Sound i s (ntOperands2 s r1 r2 >>= f) :=
  sound_bind (fun c h => by rcases ntOperands2_error h with e | e <;> rw [e] <;> decide) hf

theorem sound_ntOperands3 {i : Instr} {s : State} {r1 r2 r3 : Reg} {f : Nat × Nat × Nat → Except ErrCode State}
    (hf : ∀ a, Sound i s (f a)) : Sound i s (ntOperands3 s r1 r2 r3 >>= f) :=
  sound_bind (fun c h => by rcases ntOperands3_error h with e | e <;> rw [e] <;> decide) hf

theorem sound_bounded {i : Instr} {s : State} {v : BitVector} {f : BitVector → Except ErrCode State}
    (hf : ∀ a, Sound i s (f a)) : Sound i s (bounded s v >>= f) :=
  sound_bind (fun c h => by rw [bounded_error h]; decide) hf

theorem sound_require {i : Instr} {s : State} {b : Bool} {c : ErrCode} {f : Unit → Except ErrCode State}
    (hc : c ≠ .busy) (hf : ∀ a, Sound i s (f a)) : Sound i s (require b c >>= f) :=
  sound_bind (fun d h => by rw [require_error_code h]; exact hc) hf

theorem sound_orRaise {i : Instr} {s : State} {α : Type} {o : Option α} {c : ErrCode} {f : α → Except ErrCode State}
    (hc : c ≠ .busy) (hf : ∀ a, Sound i s (f a)) : Sound i s (orRaise c o >>= f) :=
  sound_bind (fun d h => by rw [orRaise_error h]; exact hc) hf

/-- What exec answers for a command that runs to its end. -/
def Ends (i : Instr) (s : State) (a : Answer) : Prop :=
  (∃ s', Wrote i s s' ∧ a = .next (retire s')) ∨
    ∃ c, c ≠ .busy ∧ a = .next (retire (enterError s c (pendingWord s)))

theorem ends_of_sound {i : Instr} {s : State} {r : Except ErrCode State} (h : Sound i s r) :
    Ends i s (complete s r) := by
  rcases complete_cases s r with ⟨s', hr, e⟩ | ⟨c, hr, e⟩
  · exact .inl ⟨s', h.1 s' hr, e⟩
  · exact .inr ⟨c, h.2 c hr, e⟩

theorem wrote_fill (s : State) (rd : Reg) (n : Nat) :
    Wrote (.fill rd n) s (if n > (regVal s rd).length then setReg s rd (zext (regVal s rd) n) else s) := by
  split
  · exact .reg _ rfl
  · exact .nothing

/-- Every command runs to its end, but for an MRTEST that waits for a word. -/
theorem exec_ends (i : Instr) (s : State) :
    Ends i s (exec i s) ∨ ∃ rs1, i = .mrtest rs1 ∧ mrtestOutcome rs1 s = .ok none ∧ exec i s = .next s := by
  cases i with
  | clr rd => exact .inl (ends_of_sound (sound_ok (.reg _ rfl)))
  | mov rd rs1 => exact .inl (ends_of_sound (sound_operand fun v => sound_ok (.reg _ rfl)))
  | wri rd => exact .inl (ends_of_sound (sound_ok (.reg _ rfl)))
  | rdi rs1 => exact .inl (ends_of_sound (sound_ntOperand fun x => sound_ok (.dataOut _ rfl)))
  | rdw rs1 k => exact .inl (ends_of_sound (sound_operand fun v => sound_ok (.dataOut _ rfl)))
  | rdlen rs1 => exact .inl (ends_of_sound (sound_ok (.dataOut _ rfl)))
  | fill rd n => exact .inl (ends_of_sound (sound_require (by decide) fun _ => sound_ok (wrote_fill s rd n)))
  | getbit rs1 k =>
    exact .inl (ends_of_sound (sound_operand fun v => sound_orRaise (by decide) fun b => sound_ok (.res _ rfl)))
  | setb rd k => exact .inl (ends_of_sound (sound_require (by decide) fun _ => sound_ok (.reg _ rfl)))
  | clrb rd k => exact .inl (ends_of_sound (sound_require (by decide) fun _ => sound_ok (.reg _ rfl)))
  | ispow2 rs1 => exact .inl (ends_of_sound (sound_operand fun v => sound_ok (.res _ rfl)))
  | lsb rs1 => exact .inl (ends_of_sound (sound_operand fun v => sound_ok (.res _ rfl)))
  | add rd rs1 rs2 =>
    exact .inl (ends_of_sound (sound_operands2 fun v => sound_bounded fun r => sound_ok (.reg _ rfl)))
  | addn rd rs1 =>
    exact .inl (ends_of_sound (sound_operand fun v => sound_bounded fun r => sound_ok (.reg _ rfl)))
  | sub rd rs1 rs2 =>
    exact .inl (ends_of_sound (sound_operands2 fun v => sound_ok (.regBorrow _ _ rfl rfl)))
  | mul rd rs1 rs2 =>
    exact .inl (ends_of_sound (sound_operands2 fun v => sound_bounded fun r => sound_ok (.reg _ rfl)))
  | pow rd rs1 rs2 =>
    exact .inl (ends_of_sound (sound_operands2 fun v => sound_orRaise (by decide) fun r => sound_ok (.reg _ rfl)))
  | shl rd rs1 k =>
    exact .inl (ends_of_sound (sound_operand fun v => sound_require (by decide) fun _ => sound_ok (.reg _ rfl)))
  | shr rd rs1 k => exact .inl (ends_of_sound (sound_operand fun v => sound_ok (.reg _ rfl)))
  | gcd rd rs1 rs2 => exact .inl (ends_of_sound (sound_ntOperands2 fun v => sound_ok (.reg _ rfl)))
  | modexp rd rs1 rs2 rs3 =>
    exact .inl (ends_of_sound (sound_ntOperands3 fun v => sound_require (by decide) fun _ => sound_ok (.reg _ rfl)))
  | mrtest rs1 =>
    cases h : mrtestOutcome rs1 s with
    | error c =>
      refine .inl (.inr ⟨c, ?_, by simp [exec, execMrtest, h]⟩)
      rcases bind_eq_error.mp h with h | ⟨_, _, h⟩
      · rcases ntOperand_error h with e | e <;> rw [e] <;> decide
      · cases h
    | ok o =>
      cases o with
      | none => exact .inr ⟨rs1, rfl, h, by simp [exec, execMrtest, h]⟩
      | some b => exact .inl (.inl ⟨setRes s b, .res _ rfl, by simp [exec, execMrtest, h]⟩)
  | mrbase rs1 rs2 => exact .inl (ends_of_sound (sound_ntOperands2 fun v => sound_ok (.res _ rfl)))
  | modinv rd rs1 rs2 =>
    exact .inl (ends_of_sound (sound_ntOperands2 fun v => sound_orRaise (by decide) fun d => sound_ok (.reg _ rfl)))

/-- When an MRTEST waits for a word (70_reset_and_hazards.md R259). -/
theorem mrtestOutcome_eq_none_iff {s : State} {rs1 : Reg} :
    mrtestOutcome rs1 s = .ok none ↔
      regVal s rs1 ≠ [] ∧ bvVal (regVal s rs1) < 2 ^ 64 ∧ 3 ≤ bvVal (regVal s rs1) ∧ bvVal (regVal s rs1) % 2 = 1 ∧
        s.rngWords.length < s.cfg.mrRounds ∧
        ∀ w ∈ s.rngWords, mrRound (bvVal (regVal s rs1)) (mrBaseOf w (bvVal (regVal s rs1))) = true := by
  unfold mrtestOutcome
  by_cases h : regVal s rs1 = []
  · simp [ntOperand, h, bind, Except.bind]
  by_cases hx : bvVal (regVal s rs1) < 2 ^ 64
  · rw [ntOperand_ok h hx]
    simp only [bind, Except.bind, pure, Except.pure, Except.ok.injEq]
    by_cases hr : mrRejects (bvVal (regVal s rs1)) = true
    · rw [if_pos hr]
      simp [mrRejects] at hr
      constructor
      · intro h; cases h
      · rintro ⟨_, _, h1, h2, _⟩; omega
    · rw [if_neg hr, mrRounds_eq_none_iff]
      simp [mrRejects] at hr
      exact ⟨fun e => ⟨h, hx, hr.1, hr.2, e⟩, fun e => e.2.2.2.2⟩
  · rw [ntOperand, operand_of_ne h]
    simp only [bind, Except.bind, toInt64_of_ge (Nat.not_lt.mp hx)]
    exact ⟨fun e => (by cases e), fun e => absurd e.2.1 hx⟩

/-- A command whose pseudocode raises the error `e` takes it with the pending command's word (60_exceptions.md R222, R224). -/
theorem raises_of_error {i : Instr} {s : State} {c d : Word64} {e : ErrCode} (hr : Running s c d)
    (h : exec i s = complete s (.error e)) : Raises i s c (errNumber e) := by
  unfold Raises Completes
  rw [h, complete_error, pendingWord_of_pending hr]
  cases hs : s.err <;> simp [enterError, withError, retire, hs]

/-- Every command answers a next state: the RAU never stops on one. -/
theorem exec_answers_next (i : Instr) (s : State) : ∃ t, exec i s = .next t := by
  rcases exec_ends i s with (⟨_, _, h⟩ | ⟨_, _, h⟩) | ⟨_, _, _, h⟩ <;> exact ⟨_, h⟩

end Sys2Proof.Machine
end

