-- ==== Sys2Proof/Laws/Agents.lean ====
section
/-! SUPPORT. What a step of an agent is, said once: which agent moves, what the unit's completion step does with a pending command, which
window register an access selects, what a write of the window can do. -/

namespace Sys2Proof.Machine

/-! ## Which agent moves (70_reset_and_hazards.md R261) -/

theorem step_of_no_input {s : State} (h : s.inputs = []) : step s = completionStep s := by
  simp [step, agentStep, h]

theorem step_of_input {s : State} {i : Input} {rest : List Input} (h : s.inputs = i :: rest) :
    step s = react { s with inputs := rest } i := by
  simp [step, agentStep, h]

/-! ## The unit's turn (70_reset_and_hazards.md R256) -/

theorem completionStep_of_idle {s : State} (h : s.pending = none) : completionStep s = .next s := by
  simp [completionStep, h]

/-- A pending command that decodes runs. -/
theorem completionStep_of_decode {s : State} {c d : Word64} {i : Instr} (hr : Running s c d) (hd : decode c = .ok i) :
    completionStep s = exec i s := by
  simp only [completionStep, show s.pending = some ⟨c, d⟩ from hr, hd]

/-- An ILLEGAL pending command takes E_ILLEGAL. -/
theorem completionStep_of_illegal {s : State} {c d : Word64} {e : Illegal} (hr : Running s c d) (hd : decode c = .error e) :
    completionStep s = complete s (.error .illegal) := by
  simp only [completionStep, show s.pending = some ⟨c, d⟩ from hr, hd]

/-- The unit's turn always answers a next state. -/
theorem completionStep_answers_next (s : State) : ∃ t, completionStep s = .next t := by
  unfold completionStep
  split
  · exact ⟨_, rfl⟩
  · split
    · exact exec_answers_next _ _
    · exact ⟨_, rfl⟩

/-! ## Which register an access selects (20_memory.md R50, R51) -/

/-- The offsets of the window registers are the multiples of 8 below 64. -/
theorem windowRegAt_isSome_iff (k : Nat) : (∃ r, windowRegAt k = some r) ↔ k < 64 ∧ k % 8 = 0 := by
  constructor
  · rintro ⟨r, h⟩
    unfold windowRegAt at h
    split at h <;> first | (constructor <;> omega) | cases h
  · rintro ⟨h1, h2⟩
    have : k = 0 ∨ k = 8 ∨ k = 16 ∨ k = 24 ∨ k = 32 ∨ k = 40 ∨ k = 48 ∨ k = 56 := by omega
    rcases this with rfl | rfl | rfl | rfl | rfl | rfl | rfl | rfl <;> exact ⟨_, rfl⟩

/-- An 8-byte access at a register's offset selects it. -/
theorem selectAccess_at {p : Params} {k : Nat} {r : WindowReg} (h : windowRegAt k = some r) :
    selectAccess p (p.base + k) 8 = .admits r := by
  have := ((windowRegAt_isSome_iff k).mp ⟨r, h⟩).1
  unfold selectAccess touchesWindow
  rw [if_pos (by simp; omega), if_pos ⟨rfl, by omega⟩]
  simp [h]

theorem selectAccess_outside_iff {p : Params} {addr width : Nat} :
    selectAccess p addr width = .outside ↔ touchesWindow p addr width = false := by
  unfold selectAccess
  split
  · rename_i h
    constructor
    · intro h'; split at h' <;> (try split at h') <;> cases h'
    · simp [h]
  · rename_i h; simp [h]

/-! ## What a write of the window can do (20_memory.md R56) -/

/-- A window write changes nothing, or stores DATA_IN, or resets, or records E_BUSY, or accepts a command. -/
theorem writeWindow_cases (s : State) (v : Word64) (r : WindowReg) :
    writeWindow s v r = s ∨
    (r = .dataIn ∧ writeWindow s v r = { s with dataIn := v }) ∨
    (r = .ctrl ∧ v.getLsbD 0 = true ∧ writeWindow s v r = resetUnit s) ∨
    (r = .cmd ∧ s.err = false ∧ busy s = true ∧ writeWindow s v r = enterError s .busy (commandWordOf v)) ∨
    (r = .cmd ∧ s.err = false ∧ s.pending = none ∧ writeWindow s v r = { s with pending := some ⟨v, s.dataIn⟩ }) := by
  cases r with
  | dataIn => exact .inr (.inl ⟨rfl, rfl⟩)
  | ctrl =>
    by_cases h : v.getLsbD 0 = true
    · exact .inr (.inr (.inl ⟨rfl, h, if_pos h⟩))
    · exact .inl (if_neg h)
  | cmd =>
    by_cases he : s.err = true
    · exact .inl (if_pos he)
    · have he' : s.err = false := by simpa using he
      by_cases hb : busy s = true
      · exact .inr (.inr (.inr (.inl ⟨rfl, he', hb, by simp [writeWindow, offerCommand, he', hb]⟩)))
      · have hp : s.pending = none := by simpa [busy] using hb
        exact .inr (.inr (.inr (.inr ⟨rfl, he', hp, by simp [writeWindow, offerCommand, he', hb]⟩)))
  | config => exact .inl rfl
  | status => exact .inl rfl
  | dataOut => exact .inl rfl
  | errInfo => exact .inl rfl
  | reserved => exact .inl rfl

/-! ## The RNG's delivery (70_reset_and_hazards.md R259) -/

theorem wantsWord_iff (s : State) :
    wantsWord s = true ↔ ∃ p rs1, s.pending = some p ∧ decode p.cmd = .ok (.mrtest rs1) ∧ mrtestOutcome rs1 s = .ok none := by
  unfold wantsWord
  split
  · rename_i h; simp [h]
  · rename_i p h
    split
    · rename_i rs1 hd; simp [h, hd, beq_iff_eq]
    · rename_i hd
      constructor
      · intro e; cases e
      · rintro ⟨q, rs1, hq, hdq, _⟩
        rw [h] at hq; cases hq
        exact absurd hdq (hd rs1)

end Sys2Proof.Machine
end

