-- ==== Sys2Proof/Laws/Decode.lean ====
section
/-! SUPPORT. The fields of a command word as arithmetic on its number, and the number that formats R and I lay out
(30_encoding.md R71 to R73): with these a fact about fields is a goal for omega. -/

namespace Sys2Proof

/-! ## Fields as quotients and remainders -/

theorem opOf_toNat (w : CmdWord) : (opOf w).toNat = w.toNat / 2 ^ 26 := by
  have := w.isLt
  simp [opOf, Nat.shiftRight_eq_div_pow]; omega

theorem rdOf_val (w : CmdWord) : (rdOf w).val = w.toNat / 2 ^ 22 % 16 := by
  simp [rdOf, Nat.shiftRight_eq_div_pow]

theorem rs1Of_val (w : CmdWord) : (rs1Of w).val = w.toNat / 2 ^ 18 % 16 := by
  simp [rs1Of, Nat.shiftRight_eq_div_pow]

theorem rs2Of_val (w : CmdWord) : (rs2Of w).val = w.toNat / 2 ^ 14 % 16 := by
  simp [rs2Of, Nat.shiftRight_eq_div_pow]

theorem rs3Of_val (w : CmdWord) : (rs3Of w).val = w.toNat / 2 ^ 10 % 16 := by
  simp [rs3Of, Nat.shiftRight_eq_div_pow]

theorem immOf_eq (w : CmdWord) : immOf w = w.toNat % 2 ^ 18 := by
  simp [immOf]

theorem zeroField_iff (w : CmdWord) (lo n : Nat) : zeroField w lo n = true ↔ w.toNat / 2 ^ lo % 2 ^ n = 0 := by
  rw [zeroField, beq_iff_eq, ← BitVec.toNat_inj, BitVec.extractLsb'_toNat, Nat.shiftRight_eq_div_pow]
  simp

/-! ## The formats as sums -/

theorem append_toNat {m n : Nat} (x : BitVec m) (y : BitVec n) : (x ++ y).toNat = x.toNat * 2 ^ n + y.toNat := by
  rw [BitVec.toNat_append, ← Nat.shiftLeft_add_eq_or_of_lt y.isLt, Nat.shiftLeft_eq]

theorem regField_toNat (r : Reg) : (regField r).toNat = r.val := by
  simp [regField]

theorem formatR_toNat (op : BitVec 6) (rd rs1 rs2 rs3 : Reg) :
    (formatR op rd rs1 rs2 rs3).toNat =
      op.toNat * 2 ^ 26 + rd.val * 2 ^ 22 + rs1.val * 2 ^ 18 + rs2.val * 2 ^ 14 + rs3.val * 2 ^ 10 := by
  simp only [formatR, append_toNat, regField_toNat, BitVec.toNat_ofNat]; omega

theorem formatI_toNat (op : BitVec 6) (rd rs1 : Reg) (imm : Nat) :
    (formatI op rd rs1 imm).toNat = op.toNat * 2 ^ 26 + rd.val * 2 ^ 22 + rs1.val * 2 ^ 18 + imm % 2 ^ 18 := by
  simp only [formatI, append_toNat, regField_toNat, BitVec.toNat_ofNat]; omega

/-! ## The opcode a format lays out -/

@[simp] theorem opOf_formatR (op : BitVec 6) (rd rs1 rs2 rs3 : Reg) : opOf (formatR op rd rs1 rs2 rs3) = op := by
  apply BitVec.eq_of_toNat_eq
  rw [opOf_toNat, formatR_toNat]
  have := rd.isLt; have := rs1.isLt; have := rs2.isLt; have := rs3.isLt
  omega

@[simp] theorem opOf_formatI (op : BitVec 6) (rd rs1 : Reg) (imm : Nat) : opOf (formatI op rd rs1 imm) = op := by
  apply BitVec.eq_of_toNat_eq
  rw [opOf_toNat, formatI_toNat]
  have := rd.isLt; have := rs1.isLt
  omega

/-- A command whose unused fields are 0 decodes, one with another value there does not (R75). -/
theorem ifZero_eq_ok {b : Bool} {i j : Instr} : ifZero b i = .ok j ↔ b = true ∧ i = j := by
  cases b <;> simp [ifZero]

/-- The command word of an encoded CMD value is the encoding (R77). -/
@[simp] theorem commandWordOf_encodeCmd (i : Instr) : commandWordOf (encodeCmd i) = encode i := by
  apply BitVec.eq_of_toNat_eq
  have := (encode i).isLt
  simp [commandWordOf, encodeCmd]; omega

/-- Only the command word of an encoded CMD value matters to the decoder (R77, R78). -/
theorem decode_encodeCmd (i : Instr) : decode (encodeCmd i) = decodeWord (encode i) := by
  have h : (encodeCmd i).extractLsb' 32 32 = 0#32 := by
    apply BitVec.eq_of_toNat_eq
    have := (encode i).isLt
    simp [encodeCmd, Nat.shiftRight_eq_div_pow]; omega
  rw [decode, h, commandWordOf_encodeCmd]; rfl

end Sys2Proof
end

