-- ==== Sys2Proof/Laws/PerInstr.lean ====
section
/-! SUPPORT. The one family of facts made per command: every command's encoding matches the row of the opcode table that has its
mnemonic (30_encoding.md R75, R78, R81). -/

namespace Sys2Proof

/-! ## A format under a mask, field by field (R71 to R73) -/

theorem append_and_append {k n : Nat} (a b : BitVec k) (x y : BitVec n) : (a ++ x) &&& (b ++ y) = (a &&& b) ++ (x &&& y) := by
  apply BitVec.eq_of_getLsbD_eq
  intro i _
  simp only [BitVec.getLsbD_and, BitVec.getLsbD_append]
  split <;> rfl

theorem formatR_and (op m : BitVec 6) (rd rs1 rs2 rs3 : Reg) (md m1 m2 m3 : BitVec 4) (z : BitVec 10) :
    formatR op rd rs1 rs2 rs3 &&& (m ++ md ++ m1 ++ m2 ++ m3 ++ z) =
      (op &&& m) ++ (regField rd &&& md) ++ (regField rs1 &&& m1) ++ (regField rs2 &&& m2) ++ (regField rs3 &&& m3) ++ 0#10 := by
  refine (append_and_append (op ++ regField rd ++ regField rs1 ++ regField rs2 ++ regField rs3) (m ++ md ++ m1 ++ m2 ++ m3) 0#10 z).trans ?_
  simp only [append_and_append, BitVec.zero_and]

theorem formatI_and (op m : BitVec 6) (rd rs1 : Reg) (imm : Nat) (md m1 : BitVec 4) (z : BitVec 18) :
    formatI op rd rs1 imm &&& (m ++ md ++ m1 ++ z) =
      (op &&& m) ++ (regField rd &&& md) ++ (regField rs1 &&& m1) ++ (BitVec.ofNat 18 imm &&& z) := by
  refine (append_and_append (op ++ regField rd ++ regField rs1) (m ++ md ++ m1) (BitVec.ofNat 18 imm) z).trans ?_
  simp only [append_and_append]

theorem op_and_ones (op : BitVec 6) : op &&& 0x3F#6 = op := by
  rw [show 0x3F#6 = BitVec.allOnes 6 from rfl, BitVec.and_allOnes]

theorem zeros_append (op : BitVec 6) : op ++ 0#4 ++ 0#4 ++ 0#4 ++ 0#4 ++ 0#10 = op ++ 0#26 := by
  apply BitVec.eq_of_toNat_eq; simp only [append_toNat]; simp; omega

theorem zeros_append_imm (op : BitVec 6) : op ++ 0#4 ++ 0#4 ++ 0#18 = op ++ 0#26 := by
  apply BitVec.eq_of_toNat_eq; simp only [append_toNat]; simp; omega

/-! ## The nine sets of fields a command can use (R75): under the row's mask only the opcode is left -/

theorem fields_d (op : BitVec 6) (rd : Reg) : formatR op rd 0 0 0 &&& 0xFC3FFFFF#32 = op ++ 0#26 := by
  rw [show 0xFC3FFFFF#32 = 0x3F#6 ++ 0x0#4 ++ 0xF#4 ++ 0xF#4 ++ 0xF#4 ++ 0x3FF#10 from rfl, formatR_and]
  simp [op_and_ones, show regField 0 = 0#4 from rfl, zeros_append]

theorem fields_d1 (op : BitVec 6) (rd rs1 : Reg) : formatR op rd rs1 0 0 &&& 0xFC03FFFF#32 = op ++ 0#26 := by
  rw [show 0xFC03FFFF#32 = 0x3F#6 ++ 0x0#4 ++ 0x0#4 ++ 0xF#4 ++ 0xF#4 ++ 0x3FF#10 from rfl, formatR_and]
  simp [op_and_ones, show regField 0 = 0#4 from rfl, zeros_append]

theorem fields_s1 (op : BitVec 6) (rs1 : Reg) : formatR op 0 rs1 0 0 &&& 0xFFC3FFFF#32 = op ++ 0#26 := by
  rw [show 0xFFC3FFFF#32 = 0x3F#6 ++ 0xF#4 ++ 0x0#4 ++ 0xF#4 ++ 0xF#4 ++ 0x3FF#10 from rfl, formatR_and]
  simp [op_and_ones, show regField 0 = 0#4 from rfl, zeros_append]

theorem fields_d12 (op : BitVec 6) (rd rs1 rs2 : Reg) : formatR op rd rs1 rs2 0 &&& 0xFC003FFF#32 = op ++ 0#26 := by
  rw [show 0xFC003FFF#32 = 0x3F#6 ++ 0x0#4 ++ 0x0#4 ++ 0x0#4 ++ 0xF#4 ++ 0x3FF#10 from rfl, formatR_and]
  simp [op_and_ones, show regField 0 = 0#4 from rfl, zeros_append]

theorem fields_d123 (op : BitVec 6) (rd rs1 rs2 rs3 : Reg) : formatR op rd rs1 rs2 rs3 &&& 0xFC0003FF#32 = op ++ 0#26 := by
  rw [show 0xFC0003FF#32 = 0x3F#6 ++ 0x0#4 ++ 0x0#4 ++ 0x0#4 ++ 0x0#4 ++ 0x3FF#10 from rfl, formatR_and]
  simp [op_and_ones, zeros_append]

theorem fields_s12 (op : BitVec 6) (rs1 rs2 : Reg) : formatR op 0 rs1 rs2 0 &&& 0xFFC03FFF#32 = op ++ 0#26 := by
  rw [show 0xFFC03FFF#32 = 0x3F#6 ++ 0xF#4 ++ 0x0#4 ++ 0x0#4 ++ 0xF#4 ++ 0x3FF#10 from rfl, formatR_and]
  simp [op_and_ones, show regField 0 = 0#4 from rfl, zeros_append]

theorem fields_s1i (op : BitVec 6) (rs1 : Reg) (imm : Nat) : formatI op 0 rs1 imm &&& 0xFFC00000#32 = op ++ 0#26 := by
  rw [show 0xFFC00000#32 = 0x3F#6 ++ 0xF#4 ++ 0x0#4 ++ 0x0#18 from rfl, formatI_and]
  simp [op_and_ones, show regField 0 = 0#4 from rfl, zeros_append_imm]

theorem fields_di (op : BitVec 6) (rd : Reg) (imm : Nat) : formatI op rd 0 imm &&& 0xFC3C0000#32 = op ++ 0#26 := by
  rw [show 0xFC3C0000#32 = 0x3F#6 ++ 0x0#4 ++ 0xF#4 ++ 0x0#18 from rfl, formatI_and]
  simp [op_and_ones, show regField 0 = 0#4 from rfl, zeros_append_imm]

theorem fields_d1i (op : BitVec 6) (rd rs1 : Reg) (imm : Nat) : formatI op rd rs1 imm &&& 0xFC000000#32 = op ++ 0#26 := by
  rw [show 0xFC000000#32 = 0x3F#6 ++ 0x0#4 ++ 0x0#4 ++ 0x0#18 from rfl, formatI_and]
  simp [op_and_ones, zeros_append_imm]

/-! ## The family -/

/-- The encoding of command `i` matches the opcode table's row of its mnemonic. -/
def Laws.TableRow.Statement (i : Instr) : Prop :=
  ∀ r ∈ opcodeTable, r.mnemonic = i.mnemonic → rowMatches r (encode i) = true

theorem Laws.TableRow.clr (rd : Reg) : Laws.TableRow.Statement (.clr rd) := by
  simp [Laws.TableRow.Statement, opcodeTable, Instr.mnemonic, rowMatches, encode, fields_d]

theorem Laws.TableRow.mov (rd rs1 : Reg) : Laws.TableRow.Statement (.mov rd rs1) := by
  simp [Laws.TableRow.Statement, opcodeTable, Instr.mnemonic, rowMatches, encode, fields_d1]

theorem Laws.TableRow.wri (rd : Reg) : Laws.TableRow.Statement (.wri rd) := by
  simp [Laws.TableRow.Statement, opcodeTable, Instr.mnemonic, rowMatches, encode, fields_d]

theorem Laws.TableRow.rdi (rs1 : Reg) : Laws.TableRow.Statement (.rdi rs1) := by
  simp [Laws.TableRow.Statement, opcodeTable, Instr.mnemonic, rowMatches, encode, fields_s1]

theorem Laws.TableRow.rdw (rs1 : Reg) (imm : Nat) : Laws.TableRow.Statement (.rdw rs1 imm) := by
  simp [Laws.TableRow.Statement, opcodeTable, Instr.mnemonic, rowMatches, encode, fields_s1i]

theorem Laws.TableRow.rdlen (rs1 : Reg) : Laws.TableRow.Statement (.rdlen rs1) := by
  simp [Laws.TableRow.Statement, opcodeTable, Instr.mnemonic, rowMatches, encode, fields_s1]

theorem Laws.TableRow.fill (rd : Reg) (imm : Nat) : Laws.TableRow.Statement (.fill rd imm) := by
  simp [Laws.TableRow.Statement, opcodeTable, Instr.mnemonic, rowMatches, encode, fields_di]

theorem Laws.TableRow.getbit (rs1 : Reg) (imm : Nat) : Laws.TableRow.Statement (.getbit rs1 imm) := by
  simp [Laws.TableRow.Statement, opcodeTable, Instr.mnemonic, rowMatches, encode, fields_s1i]

theorem Laws.TableRow.setb (rd : Reg) (imm : Nat) : Laws.TableRow.Statement (.setb rd imm) := by
  simp [Laws.TableRow.Statement, opcodeTable, Instr.mnemonic, rowMatches, encode, fields_di]

theorem Laws.TableRow.clrb (rd : Reg) (imm : Nat) : Laws.TableRow.Statement (.clrb rd imm) := by
  simp [Laws.TableRow.Statement, opcodeTable, Instr.mnemonic, rowMatches, encode, fields_di]

theorem Laws.TableRow.ispow2 (rs1 : Reg) : Laws.TableRow.Statement (.ispow2 rs1) := by
  simp [Laws.TableRow.Statement, opcodeTable, Instr.mnemonic, rowMatches, encode, fields_s1]

theorem Laws.TableRow.lsb (rs1 : Reg) : Laws.TableRow.Statement (.lsb rs1) := by
  simp [Laws.TableRow.Statement, opcodeTable, Instr.mnemonic, rowMatches, encode, fields_s1]

theorem Laws.TableRow.add (rd rs1 rs2 : Reg) : Laws.TableRow.Statement (.add rd rs1 rs2) := by
  simp [Laws.TableRow.Statement, opcodeTable, Instr.mnemonic, rowMatches, encode, fields_d12]

theorem Laws.TableRow.addn (rd rs1 : Reg) : Laws.TableRow.Statement (.addn rd rs1) := by
  simp [Laws.TableRow.Statement, opcodeTable, Instr.mnemonic, rowMatches, encode, fields_d1]

theorem Laws.TableRow.sub (rd rs1 rs2 : Reg) : Laws.TableRow.Statement (.sub rd rs1 rs2) := by
  simp [Laws.TableRow.Statement, opcodeTable, Instr.mnemonic, rowMatches, encode, fields_d12]

theorem Laws.TableRow.mul (rd rs1 rs2 : Reg) : Laws.TableRow.Statement (.mul rd rs1 rs2) := by
  simp [Laws.TableRow.Statement, opcodeTable, Instr.mnemonic, rowMatches, encode, fields_d12]

theorem Laws.TableRow.pow (rd rs1 rs2 : Reg) : Laws.TableRow.Statement (.pow rd rs1 rs2) := by
  simp [Laws.TableRow.Statement, opcodeTable, Instr.mnemonic, rowMatches, encode, fields_d12]

theorem Laws.TableRow.shl (rd rs1 : Reg) (imm : Nat) : Laws.TableRow.Statement (.shl rd rs1 imm) := by
  simp [Laws.TableRow.Statement, opcodeTable, Instr.mnemonic, rowMatches, encode, fields_d1i]

theorem Laws.TableRow.shr (rd rs1 : Reg) (imm : Nat) : Laws.TableRow.Statement (.shr rd rs1 imm) := by
  simp [Laws.TableRow.Statement, opcodeTable, Instr.mnemonic, rowMatches, encode, fields_d1i]

theorem Laws.TableRow.gcd (rd rs1 rs2 : Reg) : Laws.TableRow.Statement (.gcd rd rs1 rs2) := by
  simp [Laws.TableRow.Statement, opcodeTable, Instr.mnemonic, rowMatches, encode, fields_d12]

theorem Laws.TableRow.modexp (rd rs1 rs2 rs3 : Reg) : Laws.TableRow.Statement (.modexp rd rs1 rs2 rs3) := by
  simp [Laws.TableRow.Statement, opcodeTable, Instr.mnemonic, rowMatches, encode, fields_d123]

theorem Laws.TableRow.mrtest (rs1 : Reg) : Laws.TableRow.Statement (.mrtest rs1) := by
  simp [Laws.TableRow.Statement, opcodeTable, Instr.mnemonic, rowMatches, encode, fields_s1]

theorem Laws.TableRow.mrbase (rs1 rs2 : Reg) : Laws.TableRow.Statement (.mrbase rs1 rs2) := by
  simp [Laws.TableRow.Statement, opcodeTable, Instr.mnemonic, rowMatches, encode, fields_s12]

theorem Laws.TableRow.modinv (rd rs1 rs2 : Reg) : Laws.TableRow.Statement (.modinv rd rs1 rs2) := by
  simp [Laws.TableRow.Statement, opcodeTable, Instr.mnemonic, rowMatches, encode, fields_d12]

end Sys2Proof
end

