-- ==== Sys2Proof/Tests/Slice0.lean ====
section
/-! SUPPORT. Small tests. Expected words and values are those of 95_test_vectors.md L1, L2, L3, written out here; then, for every
statement that has hypotheses, a concrete state and operands that meet them. -/

namespace Sys2Proof.Tests

open Sys2Proof.Machine

/-! ## Helpers -/

/-- A BitVector literal as 95_test_vectors.md writes it, most significant bit first. -/
def bv (ds : List Nat) : BitVector := (ds.map (· == 1)).reverse

/-- The reset state with R1, R2, R3 loaded and command `i` pending. -/
def mk (i : Instr) (r1 r2 r3 : BitVector := []) (din : Word64 := 0) (ws : List Word64 := []) : State :=
  { State.reset with
    regs := ((State.reset.regs.set 1 r1).set 2 r2).set 3 r3
    pending := some ⟨encodeCmd i, din⟩
    rngWords := ws }

/-- The state after one answered step. -/
def after : Answer → State
  | .next t => t
  | .fault _ => State.reset
  | .refused _ => State.reset

/-- The state one step after command `i` is pending. -/
def ran (i : Instr) (r1 r2 r3 : BitVector := []) (din : Word64 := 0) (ws : List Word64 := []) : State :=
  after (step (mk i r1 r2 r3 din ws))

/-- ERR, ERRCODE and ERRINFO. -/
def errorOf (s : State) : Bool × Nat × Nat := (s.err, s.errCode.toNat, s.errInfo.toNat)

/-- One host access on the reset state. -/
def access (i : Input) : State := after (step { State.reset with inputs := [i] })

/-! ## Ill-formed terms are refused (30_encoding.md R74, R81; 00_scope.md R7) -/

theorem test_rdw_imm_too_large : (Instr.rdw 1 262144).wellFormed = false := by decide
theorem test_fill_imm_too_large : (Instr.fill 1 262144).wellFormed = false := by decide
theorem test_getbit_imm_too_large : (Instr.getbit 1 262144).wellFormed = false := by decide
theorem test_setb_imm_too_large : (Instr.setb 1 262144).wellFormed = false := by decide
theorem test_clrb_imm_too_large : (Instr.clrb 1 262144).wellFormed = false := by decide
theorem test_shl_imm_too_large : (Instr.shl 2 1 262144).wellFormed = false := by decide
theorem test_shr_imm_too_large : (Instr.shr 2 1 262144).wellFormed = false := by decide
theorem test_maxlen_too_small : (Params.mk 63 16 .exact 0).wellFormed = false := by decide
theorem test_maxlen_too_large : (Params.mk 262144 16 .exact 0).wellFormed = false := by decide
theorem test_mrrounds_too_small : (Params.mk 64 0 .exact 0).wellFormed = false := by decide
theorem test_mrrounds_too_large : (Params.mk 64 256 .exact 0).wellFormed = false := by decide
theorem test_base_unaligned : (Params.mk 64 1 .exact 32).wellFormed = false := by decide

/-! ## Decoding, a written-out word for every command (95_test_vectors.md L2.1) -/

theorem test_decode_clr : decodeTableWord 32 0x05000000 = some (.clr 4) := by decide
theorem test_decode_mov : decodeTableWord 32 0x08840000 = some (.mov 2 1) := by decide
theorem test_decode_wri : decodeTableWord 32 0x0C400000 = some (.wri 1) := by decide
theorem test_decode_rdi : decodeTableWord 32 0x10040000 = some (.rdi 1) := by decide
theorem test_decode_rdw : decodeTableWord 32 0x14180001 = some (.rdw 6 1) := by decide
theorem test_decode_rdlen : decodeTableWord 32 0x18100000 = some (.rdlen 4) := by decide
theorem test_decode_fill : decodeTableWord 32 0x1D000007 = some (.fill 4 7) := by decide
theorem test_decode_getbit : decodeTableWord 32 0x20040001 = some (.getbit 1 1) := by decide
theorem test_decode_setb : decodeTableWord 32 0x25000006 = some (.setb 4 6) := by decide
theorem test_decode_clrb : decodeTableWord 32 0x29000006 = some (.clrb 4 6) := by decide
theorem test_decode_ispow2 : decodeTableWord 32 0x2C040000 = some (.ispow2 1) := by decide
theorem test_decode_lsb : decodeTableWord 32 0x30040000 = some (.lsb 1) := by decide
theorem test_decode_add : decodeTableWord 32 0x40C48000 = some (.add 3 1 2) := by decide
theorem test_decode_addn : decodeTableWord 32 0x44840000 = some (.addn 2 1) := by decide
theorem test_decode_sub : decodeTableWord 32 0x490C4000 = some (.sub 4 3 1) := by decide
theorem test_decode_mul : decodeTableWord 32 0x4CC48000 = some (.mul 3 1 2) := by decide
theorem test_decode_pow : decodeTableWord 32 0x50C48000 = some (.pow 3 1 2) := by decide
theorem test_decode_shl : decodeTableWord 32 0x54840040 = some (.shl 2 1 64) := by decide
theorem test_decode_shr : decodeTableWord 32 0x590C0064 = some (.shr 4 3 100) := by decide
theorem test_decode_gcd : decodeTableWord 32 0x80C48000 = some (.gcd 3 1 2) := by decide
theorem test_decode_modexp : decodeTableWord 32 0x85448C00 = some (.modexp 5 1 2 3) := by decide
theorem test_decode_mrtest : decodeTableWord 32 0x881C0000 = some (.mrtest 7) := by decide
theorem test_decode_mrbase : decodeTableWord 32 0x8C048000 = some (.mrbase 1 2) := by decide
theorem test_decode_modinv : decodeTableWord 32 0x91950000 = some (.modinv 6 5 4) := by decide

/-- `SHL r2, r1, #0x3FFFF` decodes: no must-be-0 bits below bit 18. -/
theorem test_decode_shl_all_ones_imm : decodeTableWord 32 0x5487FFFF = some (.shl 2 1 262143) := by decide

/-- The nine decode corner cases of L2.1. -/
theorem test_decode_illegal_words :
    [0x00000000, 0x34000000, 0xFC000000, 0x04440000, 0x40C48001, 0x14440000, 0x1C440003, 0x88440000].all
      (fun w => decodeTableWord 32 w == none) = true ∧ decodeTableWord 64 0x140C48000 = none := by decide

/-- The error an ILLEGAL word leaves, bits 63:32 not 0 (last row of L2.1). -/
theorem test_illegal_upper_bits :
    errorOf (after (step { State.reset with pending := some ⟨0x140C48000, 0⟩ })) = (true, 1, 0x40C48000) := by decide

theorem test_encode_modexp : encode (.modexp 5 1 2 3) = 0x85448C00#32 := by decide

theorem test_asm_shl : asmText (.shl 2 1 64) = "SHL r2, r1, #64" := by decide

/-- A command placed where the next step runs it. -/
theorem test_withFetchWord_runs_it :
    regVal (after (step (State.reset.withFetchWord 32 0x0C400000))) 1 = bv [0] := by decide

/-! ## BitVector and conversion commands (L2.3) -/

theorem test_clr : regVal (ran (.clr 1) (bv [1, 0, 1])) 1 = [] := by decide
theorem test_mov_keeps_zeros : regVal (ran (.mov 2 1) (bv [0, 0, 1, 1])) 2 = bv [0, 0, 1, 1] := by decide
theorem test_mov_empty : errorOf (ran (.mov 2 1)) = (true, 2, 0x08840000) := by decide
theorem test_wri_13 : regVal (ran (.wri 1) (din := 13)) 1 = bv [1, 1, 0, 1] := by decide
theorem test_wri_0 : regVal (ran (.wri 1)) 1 = bv [0] := by decide
theorem test_rdi_143 : (ran (.rdi 1) (bv [1, 0, 0, 0, 1, 1, 1, 1])).dataOut = 143#64 := by decide
theorem test_rdi_overflow :
    errorOf (ran (.rdi 1) (List.replicate 64 false ++ [true])) = (true, 4, 0x10040000) := by decide
theorem test_rdw_second_group :
    (ran (.rdw 1 1) ([true, false, true] ++ List.replicate 61 false ++ [true])).dataOut = 1#64 := by decide
theorem test_rdw_past_the_end :
    (ran (.rdw 1 2) ([true, false, true] ++ List.replicate 61 false ++ [true])).dataOut = 0#64 := by decide
theorem test_rdlen_7 : (ran (.rdlen 1) (bv [0, 0, 0, 0, 1, 0, 1])).dataOut = 7#64 := by decide
theorem test_rdlen_empty : (ran (.rdlen 1)).dataOut = 0#64 ∧ (ran (.rdlen 1)).err = false := by decide
theorem test_fill_grows : regVal (ran (.fill 1 7) (bv [1, 0, 1])) 1 = bv [0, 0, 0, 0, 1, 0, 1] := by decide
theorem test_fill_too_long : errorOf (ran (.fill 1 4097)) = (true, 5, 0x1C401001) := by decide
theorem test_getbit_3 : (ran (.getbit 1 3) (bv [1, 1, 0, 1])).res = true := by decide
theorem test_getbit_4 : errorOf (ran (.getbit 1 4) (bv [1, 1, 0, 1])) = (true, 3, 0x20040004) := by decide
theorem test_setb_6 : regVal (ran (.setb 1 6) (bv [0, 0, 0, 0, 1, 0, 1])) 1 = bv [1, 0, 0, 0, 1, 0, 1] := by decide
theorem test_setb_empty : errorOf (ran (.setb 1 0)) = (true, 3, 0x24400000) := by decide
theorem test_clrb_6 : regVal (ran (.clrb 1 6) (bv [1, 0, 0, 0, 1, 0, 1])) 1 = bv [0, 0, 0, 0, 1, 0, 1] := by decide
theorem test_ispow2_leading_zero : (ran (.ispow2 1) (bv [0, 1, 0, 0])).res = true := by decide
theorem test_ispow2_two_bits : (ran (.ispow2 1) (bv [0, 1, 1, 0])).res = false := by decide
theorem test_lsb_0 : (ran (.lsb 1) (bv [1, 0])).res = false := by decide
theorem test_lsb_1 : (ran (.lsb 1) (bv [1])).res = true := by decide

/-! ## Arithmetic commands (L2.4) -/

theorem test_add_carry_grows : regVal (ran (.add 3 1 2) (bv [1, 1]) (bv [1])) 3 = bv [1, 0, 0] := by decide
theorem test_add_leading_zeros :
    regVal (ran (.add 3 1 2) (bv [0, 0, 0, 0, 0, 1]) (bv [1])) 3 = bv [0, 0, 0, 0, 1, 0] := by decide
theorem test_addn_12 : regVal (ran (.addn 2 1) (bv [1]) (din := 12)) 2 = bv [1, 1, 0, 1] := by decide
theorem test_sub_keeps_length : regVal (ran (.sub 3 1 2) (bv [1, 0, 1, 0]) (bv [1, 1])) 3 = bv [0, 1, 1, 1] := by decide
theorem test_sub_wraps :
    regVal (ran (.sub 3 1 2) (bv [1]) (bv [0, 1, 1])) 3 = bv [1, 1, 0] ∧
      (ran (.sub 3 1 2) (bv [1]) (bv [0, 1, 1])).borrow = true := by decide
theorem test_mul_egyptian :
    regVal (ran (.mul 3 1 2) (bv [1, 0, 1, 1]) (bv [1, 1, 0, 1])) 3 = bv [1, 0, 0, 0, 1, 1, 1, 1] := by decide
theorem test_mul_shortcut_left_length :
    regVal (ran (.mul 3 1 2) (bv [1, 0, 1]) (bv [1, 0])) 3 = bv [1, 0, 1, 0, 0] := by decide
theorem test_pow_243 :
    regVal (ran (.pow 3 1 2) (bv [1, 1]) (bv [1, 0, 1])) 3 = bv [1, 1, 1, 1, 0, 0, 1, 1] := by decide
theorem test_pow_0_0 : regVal (ran (.pow 3 1 2) (bv [0]) (bv [0])) 3 = bv [1] := by decide
theorem test_shl_3 : regVal (ran (.shl 2 1 3) (bv [1, 0, 1])) 2 = bv [1, 0, 1, 0, 0, 0] := by decide
theorem test_shl_too_long : errorOf (ran (.shl 2 1 4096) (bv [1])) = (true, 5, 0x54841000) := by decide
theorem test_shr_2 : regVal (ran (.shr 2 1 2) (bv [1, 0, 1, 1, 0, 1])) 2 = bv [1, 0, 1, 1] := by decide
theorem test_shr_everything : regVal (ran (.shr 2 1 262143) (bv [1])) 2 = bv [0] := by decide

/-! ## Number-theory commands (L2.5) -/

theorem test_gcd_48_18 : regVal (ran (.gcd 3 1 2) (bv [1, 1, 0, 0, 0, 0]) (bv [1, 0, 0, 1, 0])) 3 = bv [1, 1, 0] := by
  decide
theorem test_gcd_0_0 : regVal (ran (.gcd 3 1 2) (bv [0]) (bv [0])) 3 = bv [0] := by decide
theorem test_modexp_2_7_143 :
    regVal (ran (.modexp 4 1 2 3) (bv [1, 0]) (bv [1, 1, 1]) (bv [1, 0, 0, 0, 1, 1, 1, 1])) 4 = bv [1, 0, 0, 0, 0, 0, 0, 0] := by
  decide
theorem test_modexp_overflow_before_domain :
    (errorOf (ran (.modexp 4 1 2 3) (List.replicate 64 false ++ [true]) (bv [1]) (bv [0]))).2.1 = 4 := by decide +kernel

/-- MRTEST of 91 with the words 8 (base 10, a liar) and 0 (base 2, a witness). -/
theorem test_mrtest_91 :
    (ran (.mrtest 1) (bv [1, 0, 1, 1, 0, 1, 1]) (ws := [8, 0])).res = false ∧
      (ran (.mrtest 1) (bv [1, 0, 1, 1, 0, 1, 1]) (ws := [8, 0])).pending = none := by decide

/-- MRTEST of 97 passes with sixteen words and waits with fifteen. -/
theorem test_mrtest_97 :
    (ran (.mrtest 1) (bv [1, 1, 0, 0, 0, 0, 1]) (ws := List.replicate 16 100)).res = true ∧
      busy (ran (.mrtest 1) (bv [1, 1, 0, 0, 0, 0, 1]) (ws := List.replicate 15 100)) = true := by decide

theorem test_mrbase_9_2 : (ran (.mrbase 1 2) (bv [1, 0, 0, 1]) (bv [1, 0])).res = false := by decide
theorem test_mrbase_91_10 : (ran (.mrbase 1 2) (bv [1, 0, 1, 1, 0, 1, 1]) (bv [1, 0, 1, 0])).res = true := by decide
theorem test_modinv_7_120 :
    regVal (ran (.modinv 3 1 2) (bv [1, 1, 1]) (bv [1, 1, 1, 1, 0, 0, 0])) 3 = bv [1, 1, 0, 0, 1, 1, 1] := by decide
theorem test_modinv_4_6 : errorOf (ran (.modinv 3 1 2) (bv [1, 0, 0]) (bv [1, 1, 0])) = (true, 3, 0x90C48000) := by
  decide

/-! ## Host window and command protocol (L2.2, L2.6) -/

theorem test_read_config : (access (.hostRead 0x00 8)).reply = some (.data 0x0040100010001000) := by decide
theorem test_read_status_4_bytes : (access (.hostRead 0x10 4)).reply = some .busError := by decide
theorem test_read_unaligned : (access (.hostRead 0x04 8)).reply = some .busError := by decide
theorem test_write_data_out_ignored : (access (.hostWrite 0x28 8 5)).dataOut = 0#64 := by decide
theorem test_write_data_in : (access (.hostWrite 0x20 8 7)).dataIn = 7#64 := by decide
theorem test_write_cmd_accepted : (access (.hostWrite 0x18 8 0x40C48000)).pending = some ⟨0x40C48000, 0⟩ := by decide
theorem test_ctrl_bit_0_clear : (after (step { mk (.clr 1) (bv [1]) with inputs := [.hostWrite 0x08 8 2] })).pending ≠ none := by
  decide
theorem test_ctrl_bit_0_set : regVal (after (step { mk (.clr 2) (bv [1]) with inputs := [.hostWrite 0x08 8 1] })) 1 = [] := by
  decide

/-- STATUS = 0x603 after P5's second step: BUSY, ERR and E_BUSY. -/
theorem test_busy_overrun :
    readWindow (after (step { mk (.mrtest 1) (bv [1, 1, 0, 0, 0, 0, 1]) with inputs := [.hostWrite 0x18 8 0x40C44000] })) .status =
      0x603#64 := by decide

/-! ## Witnesses: a state and operands that meet a statement's hypotheses together, one theorem per clause -/

/-- The reset state with CMD value `c` pending. -/
def pend (c : Word64) : State := { State.reset with pending := some ⟨c, 0⟩ }

/-- The reset state with inputs to come. -/
def inp (is : List Input) : State := { State.reset with inputs := is }

/-- `mk` with MAXLEN at its least value, 64. -/
def tight (i : Instr) (r1 r2 : BitVector := []) : State :=
  { mk i r1 r2 with cfg := { Params.default with maxLen := 64 } }

/-- The vector of 64 one-bits. -/
def ones64 : BitVector := List.replicate 64 true

/-- 2^64, of length 65. -/
def wide : BitVector := List.replicate 64 false ++ [true]

/-- The 97 of L2.5. -/
def p97 : BitVector := bv [1, 1, 0, 0, 0, 0, 1]

/-- An MRTEST of 97 that has one word, base 2, and waits for the second. -/
def waiting : State := mk (.mrtest 1) p97 (ws := [0])

theorem witness_DecodeInvertsEncode : (Instr.shl 15 15 262143).wellFormed = true ∧ (Instr.rdw 0 0).wellFormed = true := by
  decide

theorem witness_EncodeInvertsDecode : decode 0x5487FFFF#64 = .ok (.shl 2 1 262143) := by decide

theorem witness_DecodeFollowsOpcodeTable_upper : (0x140C48000#64).extractLsb' 32 32 ≠ 0#32 := by decide

theorem witness_DecodeFollowsOpcodeTable_row :
    (0x40C48000#64).extractLsb' 32 32 = 0#32 ∧ ∃ row ∈ opcodeTable, rowMatches row (commandWordOf 0x40C48000#64) = true := by
  decide

theorem witness_DecodeFollowsOpcodeTable_no_row :
    (0x40C48001#64).extractLsb' 32 32 = 0#32 ∧ ∀ row ∈ opcodeTable, rowMatches row (commandWordOf 0x40C48001#64) = false := by
  decide

/-- The first and the last opcode of each assigned range. -/
theorem witness_OnlyAssignedOpcodesDecode_assigned :
    ∀ op ∈ [0x01#6, 0x0C#6, 0x10#6, 0x16#6, 0x20#6, 0x24#6],
      0x01 ≤ op.toNat ∧ op.toNat ≤ 0x0C ∨ 0x10 ≤ op.toNat ∧ op.toNat ≤ 0x16 ∨ 0x20 ≤ op.toNat ∧ op.toNat ≤ 0x24 := by
  decide

/-- The opcodes next to the assigned ranges, and the last one. -/
theorem witness_OnlyAssignedOpcodesDecode_reserved :
    ∀ op ∈ [0x00#6, 0x0D#6, 0x0F#6, 0x17#6, 0x1F#6, 0x25#6, 0x3F#6],
      ¬ (0x01 ≤ op.toNat ∧ op.toNat ≤ 0x0C ∨ 0x10 ≤ op.toNat ∧ op.toNat ≤ 0x16 ∨ 0x20 ≤ op.toNat ∧ op.toNat ≤ 0x24) ∧
      Running (pend (0#32 ++ op ++ 0#26)) (0#32 ++ op ++ 0#26) 0 ∧ opOf (commandWordOf (0#32 ++ op ++ 0#26)) = op := by
  unfold Running; decide

theorem witness_IllegalCommandRaises_upper :
    Running (pend 0x140C48000) 0x140C48000 0 ∧ (0x140C48000#64).extractLsb' 32 32 ≠ 0#32 := ⟨rfl, by decide⟩

theorem witness_IllegalCommandRaises_word :
    Running (pend 0x04440000) 0x04440000 0 ∧ ∃ e, decode 0x04440000#64 = .error e := ⟨rfl, .mustBeZero, by decide⟩

theorem witness_StepRunsDecodedCommand :
    Running (pend 0x05000000) 0x05000000 0 ∧ decode 0x05000000#64 = .ok (.clr 4) ∧ (pend 0x05000000).inputs = [] ∧
      Running { pend 0x05000000 with inputs := [.unitTurn] } 0x05000000 0 :=
  ⟨rfl, by decide, rfl, rfl⟩

theorem witness_UnitTurnEndsEveryOtherCommand :
    Running (pend 0x05000000) 0x05000000 0 ∧ (∀ rs1, decode 0x05000000#64 ≠ .ok (.mrtest rs1)) ∧ (pend 0x05000000).inputs = [] :=
  ⟨rfl, by decide, rfl⟩

/-- A legal state in the middle of an MRTEST; its step waits. -/
theorem witness_StepKeepsLegal : Legal waiting ∧ step waiting = .next waiting :=
  ⟨⟨by decide, by decide, by decide, by decide, fun _ => ⟨_, 1, rfl, by decide⟩, by decide⟩, by
    have h : mrtestOutcome 1 waiting = .ok none := by decide
    have hr : Running waiting (encodeCmd (.mrtest 1)) 0 := rfl
    have hd : decode (encodeCmd (.mrtest 1)) = .ok (.mrtest 1) := by decide
    rw [step_of_no_input rfl, completionStep_of_decode hr hd]
    simp [exec, execMrtest, h]⟩

/-- The parameters at both ends of their ranges. -/
theorem witness_ConfigShowsParametersForever :
    (Params.mk 64 1 .exact 0).wellFormed = true ∧ (Params.mk 262143 255 .leftLength 64).wellFormed = true ∧
      (inp [.hostRead 0 8]).inputs = .hostRead ((inp []).cfg.base) 8 :: [] ∧
      ∃ t, step (inp [.hostRead 0 8]) = .next t :=
  ⟨by decide, by decide, rfl, _, rfl⟩

theorem witness_CmdWriteIsAccepted_discarded :
    { pend 5 with err := true, inputs := [.hostWrite 0x18 8 7] }.inputs = .hostWrite ((pend 5).cfg.base + 0x18) 8 7 :: [] :=
  rfl

theorem witness_CmdWriteIsAccepted_busy :
    { pend 5 with inputs := [.hostWrite 0x18 8 7] }.inputs = .hostWrite ((pend 5).cfg.base + 0x18) 8 7 :: [] ∧
      (pend 5).err = false ∧ (pend 5).pending ≠ none := ⟨rfl, rfl, by decide⟩

theorem witness_CmdWriteIsAccepted_accepted :
    (inp [.hostWrite 0x18 8 7]).inputs = .hostWrite ((inp []).cfg.base + 0x18) 8 7 :: [] ∧
      (inp [.hostWrite 0x18 8 7]).err = false ∧ (inp [.hostWrite 0x18 8 7]).pending = none := ⟨rfl, rfl, rfl⟩

theorem witness_ErrorsArePrecise :
    Running (mk (.mov 2 1)) (encodeCmd (.mov 2 1)) 0 ∧ (mk (.mov 2 1)).err = false ∧
      ∃ t, exec (.mov 2 1) (mk (.mov 2 1)) = .next t ∧ t.err = true := ⟨rfl, rfl, _, rfl, rfl⟩

theorem witness_ErrorIsSticky :
    { inp [.unitTurn] with err := true }.err = true ∧ ¬ NextIsReset { inp [.unitTurn] with err := true } ∧
      { inp [.unitTurn] with err := true }.pending = none ∧ ∃ t, step { inp [.unitTurn] with err := true } = .next t := by
  refine ⟨rfl, ?_, rfl, _, rfl⟩
  rintro ⟨rest, h | ⟨a, v, h, _⟩⟩ <;> exact absurd h (by simp [inp])

theorem witness_PendingCommandCompletesAfterBusy : ∃ t, exec (.clr 1) (mk (.clr 1) (bv [1])) = .next t := ⟨_, rfl⟩

theorem witness_OverrunOnlyFromCmdWriteWhileBusy :
    NoOverrun (mk (.clr 1)) ∧ ¬ WritesCmdWhileBusy (mk (.clr 1)) ∧ ∃ t, step (mk (.clr 1)) = .next t := by
  refine ⟨by unfold NoOverrun; decide, ?_, _, rfl⟩
  rintro ⟨_, a, v, rest, h, _⟩
  exact absurd h (by simp [mk, State.reset])

theorem witness_ResetsGiveTheResetState :
    { pend 5 with inputs := [.hwReset] }.inputs = .hwReset :: [] ∧
      { pend 5 with inputs := [.hostWrite 0x08 8 1] }.inputs = .hostWrite ((pend 5).cfg.base + 0x08) 8 1 :: [] ∧
      (1#64).getLsbD 0 = true ∧
      { pend 5 with inputs := [.hostWrite 0x08 8 2] }.inputs = .hostWrite ((pend 5).cfg.base + 0x08) 8 2 :: [] ∧
      (2#64).getLsbD 0 = false := ⟨rfl, rfl, rfl, rfl, rfl⟩

theorem witness_ResetWithdrawsThePendingCommand :
    { waiting with inputs := [.hwReset, .rngWord 9, .unitTurn] }.inputs = .hwReset :: .rngWord 9 :: .unitTurn :: [] ∧
      (1#64).getLsbD 0 = true ∧
      { waiting with inputs := [.hostWrite 0x08 8 1, .rngWord 9, .unitTurn] }.inputs =
        .hostWrite (waiting.cfg.base + 0x08) 8 1 :: .rngWord 9 :: .unitTurn :: [] := ⟨rfl, rfl, rfl⟩

/-- The first and the last offset, each read and written. -/
theorem witness_OnlyAlignedEightByteAccesses_admitted :
    touchesWindow Params.default 0 8 = true ∧ touchesWindow Params.default 56 8 = true ∧ (0 - Params.default.base) % 8 = 0 ∧
      (56 - Params.default.base) % 8 = 0 ∧ (inp [.hostRead 56 8]).inputs = .hostRead 56 8 :: [] ∧
      (inp [.hostWrite 0 8 1]).inputs = .hostWrite 0 8 1 :: [] := by decide

/-- A short access, an access at an odd multiple of 4, one that runs past the window's end, and one that starts before it. -/
theorem witness_OnlyAlignedEightByteAccesses_refused :
    (touchesWindow Params.default 16 4 = true ∧ ¬ (4 = 8)) ∧
      (touchesWindow Params.default 4 8 = true ∧ ¬ ((4 - Params.default.base) % 8 = 0)) ∧
      (touchesWindow Params.default 60 8 = true ∧ ¬ ((60 - Params.default.base) % 8 = 0)) ∧
      (touchesWindow { Params.default with base := 64 } 60 8 = true ∧ ¬ (64 ≤ 60)) ∧
      (inp [.hostRead 60 8]).inputs = .hostRead 60 8 :: [] ∧ (inp [.hostWrite 60 8 1]).inputs = .hostWrite 60 8 1 :: [] := by
  decide

/-- A write of DATA_IN; a write at each offset that ignores it; a read at each offset. -/
theorem witness_WindowStoresOnlyDataIn :
    (inp [.hostWrite 0x20 8 7]).inputs = .hostWrite ((inp []).cfg.base + 0x20) 8 7 :: [] ∧
      (∀ off ∈ [0x00, 0x10, 0x28, 0x30, 0x38],
        (inp [.hostWrite off 8 7]).inputs = .hostWrite ((inp []).cfg.base + off) 8 7 :: []) ∧
      ∀ off ∈ [0x08, 0x18, 0x20, 0x28, 0x30, 0x38],
        (inp [.hostRead off 8]).inputs = .hostRead ((inp []).cfg.base + off) 8 :: [] := by decide

theorem witness_StatusLayout : (inp [.hostRead 0x10 8]).inputs = .hostRead ((inp []).cfg.base + 0x10) 8 :: [] := rfl

theorem witness_DataInIsLatched :
    (mk (.wri 1) (din := 13)).pending ≠ none ∧ ∃ t, exec (.wri 1) (mk (.wri 1) (din := 13)) = .next t := ⟨by decide, _, rfl⟩

theorem witness_FrameOfEveryCommand :
    (∃ t, exec (.sub 3 1 2) (mk (.sub 3 1 2) (bv [1]) (bv [1])) = .next t) ∧ destOf (.sub 3 1 2) ≠ some 1 ∧
      writesRes (.sub 3 1 2) = false ∧ writesDataOut (.sub 3 1 2) = false ∧ writesBorrow (.add 3 1 2) = false :=
  ⟨⟨_, rfl⟩, by decide, rfl, rfl, rfl⟩

theorem witness_OnlyClrEmptiesARegister :
    ∃ t, exec (.clr 1) (mk (.clr 1) (bv [1])) = .next t ∧ regVal (mk (.clr 1) (bv [1])) 1 ≠ [] ∧ regVal t 1 = [] :=
  ⟨_, rfl, by decide, by decide⟩

/-- A command that raises nothing, its destination empty before it, with and without an earlier error recorded. -/
theorem witness_OnlyClrEmptiesARegister_result :
    (∃ t, exec (.wri 1) { mk (.wri 1) with err := true } = .next t) ∧
      (∃ u, exec (.wri 1) { mk (.wri 1) with err := false } = .next u ∧ u.err = false) ∧
      destOf (.wri 1) = some 1 ∧ Instr.wri 1 ≠ .clr 1 ∧ Instr.wri 1 ≠ .fill 1 0 ∧ regVal (mk (.wri 1)) 1 = [] :=
  ⟨⟨_, rfl⟩, ⟨_, rfl, rfl⟩, by decide⟩

/-- The last source of three is the empty one. -/
theorem witness_EmptyOperandRaises :
    Running (mk (.modexp 4 1 2 3) wide (bv [1])) (encodeCmd (.modexp 4 1 2 3)) 0 ∧
      ∃ r ∈ sourcesOf (.modexp 4 1 2 3), regVal (mk (.modexp 4 1 2 3) wide (bv [1])) r = [] :=
  ⟨rfl, 3, by decide, rfl⟩

theorem witness_WideOperandRaises :
    Running (mk (.gcd 3 1 2) wide (bv [1])) (encodeCmd (.gcd 3 1 2)) 0 ∧ readsInt64 (.gcd 3 1 2) = true ∧
      (∀ r ∈ sourcesOf (.gcd 3 1 2), regVal (mk (.gcd 3 1 2) wide (bv [1])) r ≠ []) ∧
      ∃ r ∈ sourcesOf (.gcd 3 1 2), 2 ^ 64 ≤ bvVal (regVal (mk (.gcd 3 1 2) wide (bv [1])) r) :=
  ⟨rfl, rfl, by decide, 1, by decide, by decide⟩

theorem witness_OnlyMrtestReadsRngWords : ∀ rs1, Instr.clr 1 ≠ .mrtest rs1 := by decide

/-- A running command whose source register R1 is empty: the E_EMPTY clauses of MOV, RDI, RDW, GETBIT, ISPOW2 and LSB, and the
E_DOMAIN clause of SETB and CLRB on an empty register. -/
theorem witness_empty_source : ∃ c d, Running (mk (.mov 2 1)) c d ∧ regVal (mk (.mov 2 1)) 1 = [] ∧
    (regVal (mk (.mov 2 1)) 1).length ≤ 0 := ⟨_, _, rfl, rfl, Nat.le_refl 0⟩

theorem witness_ClrAndMov : regVal (mk (.mov 2 1) (bv [0])) 1 ≠ [] := by decide

theorem witness_WriLoadsDataIn : Running (mk (.wri 1) (din := 13)) (encodeCmd (.wri 1)) 13 := rfl

/-- The greatest value RDI reads, and the least it does not. -/
theorem witness_RdiReadsTheValue :
    (regVal (mk (.rdi 1) ones64) 1 ≠ [] ∧ bvVal (regVal (mk (.rdi 1) ones64) 1) < 2 ^ 64) ∧
      Running (mk (.rdi 1) wide) (encodeCmd (.rdi 1)) 0 ∧ regVal (mk (.rdi 1) wide) 1 ≠ [] ∧
      2 ^ 64 ≤ bvVal (regVal (mk (.rdi 1) wide) 1) := ⟨by decide, rfl, by decide, by decide⟩

theorem witness_ConversionsAreInverse : bv [0, 1] ≠ [] ∧ Running (mk (.wri 1) (din := 13)) (encodeCmd (.wri 1)) 13 :=
  ⟨by decide, rfl⟩

/-- A group that lies partly above the length, and its last bit. -/
theorem witness_RdwReadsAGroupOfBits : regVal (mk (.rdw 1 1) wide) 1 ≠ [] ∧ (63 : Nat) < 64 := by decide

/-- The greatest length FILL makes, and the least it refuses. -/
theorem witness_FillGrowsWithZeros :
    4096 ≤ (mk (.fill 1 4096)).cfg.maxLen ∧ Running (mk (.fill 1 4097)) (encodeCmd (.fill 1 4097)) 0 ∧
      (mk (.fill 1 4097)).cfg.maxLen < 4097 := ⟨by decide, rfl, by decide⟩

/-- The last bit, and the first there is not. -/
theorem witness_GetbitReadsTheBit :
    (regVal (mk (.getbit 1 3) (bv [1, 1, 0, 1])) 1)[3]? = some true ∧
      Running (mk (.getbit 1 4) (bv [1, 1, 0, 1])) (encodeCmd (.getbit 1 4)) 0 ∧
      regVal (mk (.getbit 1 4) (bv [1, 1, 0, 1])) 1 ≠ [] ∧ (regVal (mk (.getbit 1 4) (bv [1, 1, 0, 1])) 1).length ≤ 4 :=
  ⟨by decide, rfl, by decide, by decide⟩

theorem witness_SetbAndClrbWriteTheBit :
    6 < (regVal (mk (.setb 1 6) (bv [0, 0, 0, 0, 1, 0, 1])) 1).length ∧
      Running (mk (.setb 1 7) (bv [0, 0, 0, 0, 1, 0, 1])) (encodeCmd (.setb 1 7)) 0 ∧
      (regVal (mk (.setb 1 7) (bv [0, 0, 0, 0, 1, 0, 1])) 1).length ≤ 7 := ⟨by decide, rfl, by decide⟩

theorem witness_Ispow2TestsForOneSetBit : regVal (mk (.ispow2 1) (bv [0, 1, 0, 0])) 1 ≠ [] := by decide

theorem witness_LsbReadsBitZero : (regVal (mk (.lsb 1) (bv [1, 0])) 1)[0]? = some false := by decide

/-! ### Two operands: loaded and fitting, and a result one bit too long -/

theorem witness_AddResult :
    regVal (tight (.add 3 1 2) ones64 (bv [0])) 1 ≠ [] ∧ regVal (tight (.add 3 1 2) ones64 (bv [0])) 2 ≠ [] ∧
      max (max 64 1) (bitlen (bvVal ones64 + 0)) ≤ (tight (.add 3 1 2) ones64 (bv [0])).cfg.maxLen := by decide

theorem witness_AddResult_too_long :
    Running (tight (.add 3 1 2) ones64 (bv [1])) (encodeCmd (.add 3 1 2)) 0 ∧
      regVal (tight (.add 3 1 2) ones64 (bv [1])) 1 ≠ [] ∧ regVal (tight (.add 3 1 2) ones64 (bv [1])) 2 ≠ [] ∧
      (tight (.add 3 1 2) ones64 (bv [1])).cfg.maxLen < max (max 64 1) (bitlen (bvVal ones64 + 1)) :=
  ⟨rfl, by decide⟩

theorem witness_AddnResult :
    Running (mk (.addn 2 1) (bv [1]) (din := 12)) (encodeCmd (.addn 2 1)) 12 ∧ regVal (mk (.addn 2 1) (bv [1]) (din := 12)) 1 ≠ [] ∧
      max (max 1 (max 1 (bitlen 12))) (bitlen (1 + 12)) ≤ (mk (.addn 2 1) (bv [1]) (din := 12)).cfg.maxLen :=
  ⟨rfl, by decide⟩

theorem witness_AddnResult_too_long :
    Running { tight (.addn 2 1) ones64 with pending := some ⟨encodeCmd (.addn 2 1), 1⟩ } (encodeCmd (.addn 2 1)) 1 ∧
      regVal { tight (.addn 2 1) ones64 with pending := some ⟨encodeCmd (.addn 2 1), 1⟩ } 1 ≠ [] ∧
      (tight (.addn 2 1) ones64).cfg.maxLen < max (max 64 (max 1 (bitlen 1))) (bitlen (bvVal ones64 + 1)) :=
  ⟨rfl, by decide⟩

theorem witness_SubResult :
    regVal (mk (.sub 3 1 2) (bv [1]) (bv [0, 1, 1])) 1 ≠ [] ∧ regVal (mk (.sub 3 1 2) (bv [1]) (bv [0, 1, 1])) 2 ≠ [] := by decide

theorem witness_MulResult :
    regVal (mk (.mul 3 1 2) (bv [1, 0, 1]) (bv [1, 0])) 1 = bv [1, 0, 1] ∧
      regVal (mk (.mul 3 1 2) (bv [1, 0, 1]) (bv [1, 0])) 2 = bv [1, 0] ∧ bv [1, 0, 1] ≠ [] ∧ bv [1, 0] ≠ [] ∧
      (dec2bin (5 * 2 ^ 2)).length ≤ (mk (.mul 3 1 2) (bv [1, 0, 1]) (bv [1, 0])).cfg.maxLen := by decide

/-- The Egyptian product of 2^64 − 1 and 3 needs more than 64 bits. -/
theorem witness_MulResult_too_long :
    Running (tight (.mul 3 1 2) ones64 (bv [1, 1])) (encodeCmd (.mul 3 1 2)) 0 ∧
      regVal (tight (.mul 3 1 2) ones64 (bv [1, 1])) 1 = ones64 ∧ regVal (tight (.mul 3 1 2) ones64 (bv [1, 1])) 2 = bv [1, 1] ∧
      isPow2 ones64 = false ∧ isPow2 (bv [1, 1]) = false ∧
      (tight (.mul 3 1 2) ones64 (bv [1, 1])).cfg.maxLen <
        (bvn (bvVal ones64 * 3) (max (max 64 2) (bitlen (bvVal ones64 * 3)))).length := ⟨rfl, by decide⟩

theorem witness_ShortcutIsExactWhen : bv [0, 1, 0, 0] ≠ [] ∧ bv [1, 1] ≠ [] ∧ isPow2 (bv [0, 1, 0, 0]) = true := by decide

/-- The accumulators of 3 to the 5 in R150. -/
def accs3 : Nat → BitVector
  | 0 => [true]
  | 1 => bv [1, 1]
  | 2 => bv [1, 1]
  | _ => bv [1, 1, 1, 1, 0, 0, 1, 1]

/-- The bases of 3 to the 5 in R150. -/
def bases3 : Nat → BitVector
  | 0 => bv [1, 1]
  | 1 => bv [1, 0, 0, 1]
  | _ => bv [1, 0, 1, 0, 0, 0, 1]

/-- 3 to the 5, with R150's accumulators and bases; every product fits. -/
theorem witness_PowResult :
    regVal (mk (.pow 3 1 2) (bv [1, 1]) (bv [1, 0, 1])) 1 = bases3 0 ∧ bases3 0 ≠ [] ∧
      regVal (mk (.pow 3 1 2) (bv [1, 1]) (bv [1, 0, 1])) 2 ≠ [] ∧ bvVal (bv [1, 0, 1]) = 5 ∧ accs3 0 = [true] ∧
      (∀ k, k < bitlen 5 →
        accs3 (k + 1) = (if 5 / 2 ^ k % 2 = 1 then bvMul .leftLength (accs3 k) (bases3 k) else accs3 k) ∧
        bases3 (k + 1) = (if 0 < 5 / 2 ^ (k + 1) then bvMul .leftLength (bases3 k) (bases3 k) else bases3 k)) ∧
      (∀ k, k < bitlen 5 → (5 / 2 ^ k % 2 = 1 → (accs3 (k + 1)).length ≤ 4096) ∧
        (0 < 5 / 2 ^ (k + 1) → (bases3 (k + 1)).length ≤ 4096)) ∧
      bvPow Params.default (bases3 0) 5 = some (accs3 (bitlen 5)) := by decide

/-- The accumulators and the bases of 2^63, of length 64, to the 2: the square needs length 127, and the accumulator with it. -/
def sq63 (one : BitVector) : Nat → BitVector
  | 0 => one
  | 1 => if one = [true] then [true] else List.replicate 126 false ++ [true]
  | _ => List.replicate 126 false ++ [true]

/-- The first squaring is too long for MAXLEN 64. -/
theorem witness_PowResult_too_long :
    Running (tight (.pow 3 1 2) (List.replicate 63 false ++ [true]) (bv [1, 0])) (encodeCmd (.pow 3 1 2)) 0 ∧
      regVal (tight (.pow 3 1 2) (List.replicate 63 false ++ [true]) (bv [1, 0])) 1 = sq63 (List.replicate 63 false ++ [true]) 0 ∧
      regVal (tight (.pow 3 1 2) (List.replicate 63 false ++ [true]) (bv [1, 0])) 2 = bv [1, 0] ∧ bvVal (bv [1, 0]) = 2 ∧
      (∀ k, k < bitlen 2 →
        sq63 [true] (k + 1) = (if 2 / 2 ^ k % 2 = 1 then
          bvMul .leftLength (sq63 [true] k) (sq63 (List.replicate 63 false ++ [true]) k) else sq63 [true] k) ∧
        sq63 (List.replicate 63 false ++ [true]) (k + 1) = (if 0 < 2 / 2 ^ (k + 1) then
          bvMul .leftLength (sq63 (List.replicate 63 false ++ [true]) k) (sq63 (List.replicate 63 false ++ [true]) k)
          else sq63 (List.replicate 63 false ++ [true]) k)) ∧
      (∃ k, k < bitlen 2 ∧ 0 < 2 / 2 ^ (k + 1) ∧
        (tight (.pow 3 1 2)).cfg.maxLen < (sq63 (List.replicate 63 false ++ [true]) (k + 1)).length) ∧
      bvPow (tight (.pow 3 1 2)).cfg (List.replicate 63 false ++ [true]) 2 = none :=
  ⟨rfl, by decide +kernel, rfl, rfl, by decide +kernel, ⟨0, by decide +kernel⟩, by decide +kernel⟩

/-- 3^5; 4 of length 4 squared in both modes; 0^0; 3^4 of a longer 3. -/
theorem witness_PowValue :
    bv [1, 1] ≠ [] ∧ bvPow Params.default (bv [1, 1]) 5 = some (bv [1, 1, 1, 1, 0, 0, 1, 1]) ∧
      ¬ (isPow2 (bv [1, 1]) = true ∧ bitlen (bvVal (bv [1, 1])) < (bv [1, 1]).length ∧ 2 ≤ 5) ∧
      bvPow { Params.default with mulMode := .exact } (bv [0, 1, 0, 0]) 2 = some (bv [1, 0, 0, 0, 0]) ∧
      bvPow Params.default (bv [0]) 0 = some [true] ∧
      isPow2 (bv [0, 1, 0, 0]) = true ∧ bvVal (bv [0, 1, 0, 0]) = 2 ^ 2 ∧ Params.default.mulMode = .leftLength ∧
      bvPow Params.default (bv [0, 1, 0, 0]) 2 = some (bv [1, 0, 0, 0, 0, 0]) ∧
      isPow2 (bv [0, 1, 1]) = false ∧ 4 = 2 ^ Nat.log2 4 ∧ ¬ 5 = 2 ^ Nat.log2 5 := by decide

/-- The product of length and exponent equal to MAXLEN. -/
theorem witness_PowCompletes :
    regVal (tight (.pow 3 1 2) (bv [1, 0]) (bv [1, 0, 0, 0, 0, 0])) 1 = bv [1, 0] ∧ bv [1, 0] ≠ [] ∧
      regVal (tight (.pow 3 1 2) (bv [1, 0]) (bv [1, 0, 0, 0, 0, 0])) 2 ≠ [] ∧ bvVal (bv [1, 0, 0, 0, 0, 0]) = 32 ∧
      (bv [1, 0]).length * max 1 32 ≤ (tight (.pow 3 1 2)).cfg.maxLen := by decide

/-- The values 0, as long as MAXLEN, and 1, with an exponent of 64 one-bits; 1 with a leading zero only in exact mode. -/
theorem witness_PowCompletes_zero_one :
    (bvVal (List.replicate 64 false) = 0 ∧ (List.replicate 64 false).length ≤ (tight (.pow 3 1 2)).cfg.maxLen ∧
        regVal (tight (.pow 3 1 2) (List.replicate 64 false) ones64) 1 = List.replicate 64 false) ∧
      (bvVal (bv [1]) = 1 ∧ (bv [1]).length = 1 ∧ 1 ≤ (tight (.pow 3 1 2)).cfg.maxLen) ∧ bvVal (bv [0, 1]) = 1 ∧
      { (tight (.pow 3 1 2)).cfg with mulMode := .exact }.mulMode = .exact ∧ ones64 ≠ [] := by decide +kernel

theorem witness_ShlResult :
    regVal (tight (.shl 2 1 63) (bv [1])) 1 ≠ [] ∧ (regVal (tight (.shl 2 1 63) (bv [1])) 1).length + 63 ≤ (tight (.shl 2 1 63)).cfg.maxLen ∧
      Running (tight (.shl 2 1 64) (bv [1])) (encodeCmd (.shl 2 1 64)) 0 ∧
      (tight (.shl 2 1 64)).cfg.maxLen < (regVal (tight (.shl 2 1 64) (bv [1])) 1).length + 64 :=
  ⟨by decide, by decide, rfl, by decide⟩

theorem witness_ShrResult : regVal (mk (.shr 2 1 1) (bv [1, 0])) 1 ≠ [] := by decide

/-! ### Number theory: the greatest operand, and each error's -/

theorem witness_GcdResult :
    regVal (mk (.gcd 3 1 2) ones64 (bv [0])) 1 ≠ [] ∧ regVal (mk (.gcd 3 1 2) ones64 (bv [0])) 2 ≠ [] ∧
      bvVal (regVal (mk (.gcd 3 1 2) ones64 (bv [0])) 1) < 2 ^ 64 ∧ bvVal (regVal (mk (.gcd 3 1 2) ones64 (bv [0])) 2) < 2 ^ 64 := by
  decide

theorem witness_ModexpResult :
    regVal (mk (.modexp 4 1 2 3) ones64 ones64 (bv [1])) 1 ≠ [] ∧ regVal (mk (.modexp 4 1 2 3) ones64 ones64 (bv [1])) 2 ≠ [] ∧
      regVal (mk (.modexp 4 1 2 3) ones64 ones64 (bv [1])) 3 ≠ [] ∧ bvVal ones64 < 2 ^ 64 ∧ bvVal (bv [1]) ≠ 0 := by
  decide

theorem witness_ModexpResult_zero_modulus :
    Running (mk (.modexp 4 1 2 3) (bv [1]) (bv [1]) (bv [0])) (encodeCmd (.modexp 4 1 2 3)) 0 ∧
      (∀ r ∈ [1, 2, 3], regVal (mk (.modexp 4 1 2 3) (bv [1]) (bv [1]) (bv [0])) r ≠ []) ∧ bvVal (bv [0]) = 0 :=
  ⟨rfl, by decide, by decide⟩

theorem witness_ModinvResult :
    regVal (mk (.modinv 3 1 2) (bv [1, 1, 1]) (bv [1, 1, 1, 1, 0, 0, 0])) 1 ≠ [] ∧
      bvVal (regVal (mk (.modinv 3 1 2) (bv [1, 1, 1]) (bv [1, 1, 1, 1, 0, 0, 0])) 1) = 7 ∧
      bvVal (regVal (mk (.modinv 3 1 2) (bv [1, 1, 1]) (bv [1, 1, 1, 1, 0, 0, 0])) 2) = 120 ∧ (120 : Nat) ≠ 0 ∧ Nat.gcd 7 120 = 1 := by
  decide

theorem witness_ModinvResult_not_coprime :
    Running (mk (.modinv 3 1 2) (bv [1, 0, 0]) (bv [1, 1, 0])) (encodeCmd (.modinv 3 1 2)) 0 ∧
      bvVal (regVal (mk (.modinv 3 1 2) (bv [1, 0, 0]) (bv [1, 1, 0])) 1) = 4 ∧
      bvVal (regVal (mk (.modinv 3 1 2) (bv [1, 0, 0]) (bv [1, 1, 0])) 2) = 6 ∧ Nat.gcd 4 6 ≠ 1 :=
  ⟨rfl, by decide⟩

/-- The modulus 0. -/
theorem witness_ModinvResult_zero_modulus :
    Running (mk (.modinv 3 1 2) (bv [1, 0, 1]) (bv [0])) (encodeCmd (.modinv 3 1 2)) 0 ∧
      regVal (mk (.modinv 3 1 2) (bv [1, 0, 1]) (bv [0])) 1 ≠ [] ∧ regVal (mk (.modinv 3 1 2) (bv [1, 0, 1]) (bv [0])) 2 ≠ [] ∧
      bvVal (regVal (mk (.modinv 3 1 2) (bv [1, 0, 1]) (bv [0])) 1) = 5 ∧
      bvVal (regVal (mk (.modinv 3 1 2) (bv [1, 0, 1]) (bv [0])) 2) = 0 :=
  ⟨rfl, by decide⟩

/-- E1 to E5 of L1. -/
theorem witness_RsaRoundTrip :
    Nat.Prime 11 ∧ Nat.Prime 13 ∧ 11 ≠ 13 ∧ ntModinv 7 ((11 - 1) * (13 - 1)) = some 103 ∧ 0 < 2 ∧ 2 < 11 * 13 ∧
      Nat.gcd 2 (11 * 13) = 1 := by
  refine ⟨by norm_num, by norm_num, ?_⟩; decide

/-- 97 − 1 = 3 · 2^5, and the values 2 and 4 that are answered 0 at once. -/
theorem witness_MrbaseIsTheStrongProbablePrimeRound :
    regVal (mk (.mrbase 1 2) p97 (bv [1, 0])) 1 ≠ [] ∧ regVal (mk (.mrbase 1 2) p97 (bv [1, 0])) 2 ≠ [] ∧
      bvVal (regVal (mk (.mrbase 1 2) p97 (bv [1, 0])) 1) = 97 ∧ bvVal (regVal (mk (.mrbase 1 2) p97 (bv [1, 0])) 2) = 2 ∧
      3 ≤ 97 ∧ 97 % 2 = 1 ∧ 97 - 1 = 3 * 2 ^ 5 ∧ 3 % 2 = 1 ∧
      bvVal (regVal (mk (.mrbase 1 2) (bv [1, 0, 0]) (bv [1, 0])) 1) % 2 = 0 ∧
      bvVal (regVal (mk (.mrbase 1 2) (bv [1, 0]) (bv [1, 0])) 1) < 3 := by decide

theorem witness_MrtestResult_rejects :
    regVal (mk (.mrtest 1) (bv [1, 0])) 1 ≠ [] ∧ bvVal (regVal (mk (.mrtest 1) (bv [1, 0])) 1) < 3 := by decide

/-- 3, whose every base is 2: the smallest candidate that is tested. -/
theorem witness_MrtestResult_passes :
    regVal (mk (.mrtest 1) (bv [1, 1]) (ws := List.replicate 16 7)) 1 ≠ [] ∧
      bvVal (regVal (mk (.mrtest 1) (bv [1, 1]) (ws := List.replicate 16 7)) 1) = 3 ∧
      Params.default.mrRounds ≤ (List.replicate 16 (7 : Word64)).length ∧
      ∀ w ∈ (List.replicate 16 (7 : Word64)).take Params.default.mrRounds, mrRound 3 (2 + w.toNat % max 1 (3 - 3)) = true := by
  refine ⟨by decide, by decide, by decide, fun w hw => ?_⟩
  rw [List.eq_of_mem_replicate (List.mem_of_mem_take hw)]
  decide

theorem witness_MrtestResult_fails :
    bvVal (regVal (mk (.mrtest 1) (bv [1, 0, 1, 1, 0, 1, 1]) (ws := [8, 0])) 1) = 91 ∧
      ∃ w ∈ [(8 : Word64), 0].take Params.default.mrRounds, mrRound 91 (2 + w.toNat % max 1 (91 - 3)) = false :=
  ⟨by decide, 0, by decide, by decide⟩

theorem witness_MrtestPassesEveryOddPrime :
    regVal (mk (.mrtest 1) p97 (ws := List.replicate 16 100)) 1 ≠ [] ∧
      bvVal (regVal (mk (.mrtest 1) p97 (ws := List.replicate 16 100)) 1) = 97 ∧ Nat.Prime 97 ∧ 97 ≠ 2 ∧
      (mk (.mrtest 1) p97).cfg.mrRounds ≤ (List.replicate 16 (100 : Word64)).length := by
  refine ⟨by decide, by decide, by norm_num, by decide, by decide⟩

theorem witness_MrtestWaitsWithoutWords :
    Running waiting (encodeCmd (.mrtest 1)) 0 ∧ decode (encodeCmd (.mrtest 1)) = .ok (.mrtest 1) ∧ waiting.inputs = [] ∧
      regVal waiting 1 ≠ [] ∧ bvVal (regVal waiting 1) = 97 ∧ 97 < 2 ^ 64 ∧ 3 ≤ 97 ∧ 97 % 2 = 1 ∧
      waiting.rngWords.length < waiting.cfg.mrRounds ∧ ∀ w ∈ waiting.rngWords, mrRound 97 (mrBaseOf w 97) = true :=
  ⟨rfl, by decide, rfl, by decide, by decide, by decide, by decide, by decide, by decide, fun w hw => by
    rw [show waiting.rngWords = [0] from rfl, List.mem_singleton] at hw
    rw [hw]; decide⟩

theorem witness_RngWordGoesOnlyToAWaitingMrtest_taken :
    { waiting with inputs := [.rngWord 9] }.inputs = .rngWord 9 :: [] ∧
      ∃ c d rs1, Running { waiting with inputs := [.rngWord 9] } c d ∧ decode c = .ok (.mrtest rs1) ∧ regVal waiting rs1 ≠ [] ∧
        bvVal (regVal waiting rs1) < 2 ^ 64 ∧ 3 ≤ bvVal (regVal waiting rs1) ∧ bvVal (regVal waiting rs1) % 2 = 1 ∧
        waiting.rngWords.length < waiting.cfg.mrRounds ∧
        ∀ u ∈ waiting.rngWords, mrRound (bvVal (regVal waiting rs1)) (mrBaseOf u (bvVal (regVal waiting rs1))) = true :=
  ⟨rfl, encodeCmd (.mrtest 1), 0, 1, rfl, by decide, by decide, by decide, by decide, by decide,
    by decide, fun w hw => by
      rw [show waiting.rngWords = [0] from rfl, List.mem_singleton] at hw
      rw [hw]; decide⟩

/-- Nothing is pending. -/
theorem witness_RngWordGoesOnlyToAWaitingMrtest_discarded :
    (inp [.rngWord 9]).inputs = .rngWord 9 :: [] ∧ ¬ ∃ c d, Running (inp [.rngWord 9]) c d := by
  refine ⟨rfl, ?_⟩
  rintro ⟨c, d, h⟩
  exact absurd h (by simp [Running, inp, State.reset])

/-- A LI's WRI issued on the reset state, with two early polls. -/
theorem witness_IssueRunsTheCommand :
    (Instr.wri 1).wellFormed = true ∧ (inp (issueSeq 0 2 (.wri 1))).err = false ∧ (inp (issueSeq 0 2 (.wri 1))).pending = none ∧
      (inp (issueSeq 0 2 (.wri 1))).inputs = issueSeq (inp []).cfg.base 2 (.wri 1) ++ [] ∧
      ∃ t, exec (.wri 1) { inp (issueSeq 0 2 (.wri 1)) with pending := some ⟨encodeCmd (.wri 1), 0⟩, inputs := [] } = .next t :=
  ⟨rfl, rfl, rfl, rfl, _, rfl⟩

end Sys2Proof.Tests
end

section
/-! The invariant `Legal` of Sys2Proof/Safety.lean holds after reset, and every step of every agent keeps it: first that no command makes
a register longer than MAXLEN, then what each operation over the state does to `Legal`, then the agents' steps one by one. -/

namespace Sys2Proof.Machine

/-! ## The lengths of results (10_state.md R22; 41_arithmetic.md R140) -/

/-- A product that passes the check of 41_arithmetic.md R150 fits MAXLEN. -/
theorem boundedMul_length_le {p : Params} {a b r : BitVector} (h : boundedMul p a b = some r) : r.length ≤ p.maxLen := by
  simp only [boundedMul] at h
  split at h
  case isTrue hle => cases h; exact hle
  case isFalse => cases h

/-- One iteration of R150: the accumulator, then the squared base, then the rest of the loop. -/
theorem powLoop_succ {p : Params} {fuel e : Nat} {acc base : BitVector} (he : e ≠ 0) :
    powLoop p (fuel + 1) acc base e =
      (if e % 2 = 1 then boundedMul p acc base else some acc).bind fun acc' =>
        (if e / 2 > 0 then boundedMul p base base else some base).bind fun base' =>
          powLoop p fuel acc' base' (e / 2) := by
  rw [powLoop, if_neg he]
  split <;> split <;> rfl

/-- The accumulator of R150 fits MAXLEN in every iteration. -/
theorem powLoop_length_le {p : Params} {fuel e : Nat} {acc base r : BitVector} (hacc : acc.length ≤ p.maxLen)
    (h : powLoop p fuel acc base e = some r) : r.length ≤ p.maxLen := by
  induction fuel generalizing acc base e with
  | zero => cases h; exact hacc
  | succ fuel ih =>
    by_cases he : e = 0
    · rw [powLoop, if_pos he] at h
      cases h; exact hacc
    · rw [powLoop_succ he] at h
      obtain ⟨acc', hacc', h⟩ := Option.bind_eq_some_iff.mp h
      obtain ⟨base', -, h⟩ := Option.bind_eq_some_iff.mp h
      refine ih ?_ h
      split at hacc'
      · exact boundedMul_length_le hacc'
      · cases hacc'; exact hacc

theorem bvPow_length_le {p : Params} {x r : BitVector} {n : Nat} (hp : 1 ≤ p.maxLen) (h : bvPow p x n = some r) :
    r.length ≤ p.maxLen :=
  powLoop_length_le (acc := [true]) hp h

theorem latchedDin_lt (s : State) : latchedDin s < 2 ^ 64 := by
  unfold latchedDin
  split <;> exact BitVec.isLt _

theorem ntOperands2_lt {s : State} {r1 r2 : Reg} {x y : Nat} (h : ntOperands2 s r1 r2 = .ok (x, y)) :
    x < 2 ^ 64 ∧ y < 2 ^ 64 := by
  simp only [ntOperands2, bind_eq_ok, toInt64_eq_ok, pure_eq_ok, Prod.mk.injEq] at h
  obtain ⟨a, -, b, -, _, ⟨rfl, hx⟩, _, ⟨rfl, hy⟩, rfl, rfl⟩ := h
  exact ⟨hx, hy⟩

theorem ntOperands3_lt {s : State} {r1 r2 r3 : Reg} {x y z : Nat} (h : ntOperands3 s r1 r2 r3 = .ok (x, y, z)) :
    x < 2 ^ 64 ∧ y < 2 ^ 64 ∧ z < 2 ^ 64 := by
  simp only [ntOperands3, bind_eq_ok, toInt64_eq_ok, pure_eq_ok, Prod.mk.injEq] at h
  obtain ⟨a, -, b, -, c, -, _, ⟨rfl, hx⟩, _, ⟨rfl, hy⟩, _, ⟨rfl, hz⟩, rfl, rfl, rfl⟩ := h
  exact ⟨hx, hy, hz⟩

theorem ntGcd_lt {a b n : Nat} (ha : a < n) (hb : b < n) : ntGcd a b < n := by
  rw [ntGcd_eq]
  rcases Nat.eq_zero_or_pos a with rfl | hpos
  · simpa using hb
  · exact lt_of_le_of_lt (Nat.gcd_le_left b hpos) ha

theorem ntModexp_lt (b e : Nat) {m : Nat} (hm : m ≠ 0) : ntModexp b e m < m := by
  rw [ntModexp_eq]
  exact Nat.mod_lt _ (Nat.pos_of_ne_zero hm)

/-- The inverse that R190 answers is reduced modulo `phi`. -/
theorem ntModinv_lt {e phi d : Nat} (h : ntModinv e phi = some d) : d < phi := by
  unfold ntModinv at h
  split at h
  case isTrue => cases h
  case isFalse hphi =>
    simp only at h
    split at h
    · cases h
    · cases h
      have hpos : (0 : Int) < phi := by omega
      have hlt := Int.emod_lt_of_pos
        (if (eeaLoop (e + 1) (phi, e) (1, 0) (0, 1)).2 < 0 then (eeaLoop (e + 1) (phi, e) (1, 0) (0, 1)).2 + phi
          else (eeaLoop (e + 1) (phi, e) (1, 0) (0, 1)).2) hpos
      omega

theorem require_eq_ok {b : Bool} {c : ErrCode} {u : Unit} : require b c = .ok u ↔ b = true := by
  cases b <;> simp [require]

theorem orRaise_eq_ok {α : Type} {c : ErrCode} {o : Option α} {a : α} : orRaise c o = .ok a ↔ o = some a := by
  cases o <;> simp [orRaise]

/-! ## No command makes a register longer than MAXLEN (10_state.md R20, R22) -/

/-- No register is longer than `n`; `Legal` says it with MAXLEN. -/
def RegsWithin (n : Nat) (s : State) : Prop := ∀ r : Reg, (regVal s r).length ≤ n

theorem regsWithin_setReg {n : Nat} {s : State} (hs : RegsWithin n s) (rd : Reg) {v : BitVector} (hv : v.length ≤ n) :
    RegsWithin n (setReg s rd v) := by
  intro q
  rw [regVal_setReg]
  split
  · exact hv
  · exact hs q

/-- A command's pseudocode leaves no register longer than `n` where it does not raise. -/
def WritesWithin (n : Nat) (r : Except ErrCode State) : Prop := ∀ s', r = .ok s' → RegsWithin n s'

theorem writesWithin_ok {n : Nat} {s : State} (hs : RegsWithin n s) : WritesWithin n (.ok s) := by
  intro s' h
  cases h
  exact hs

theorem writesWithin_bind {n : Nat} {α : Type} {x : Except ErrCode α} {f : α → Except ErrCode State}
    (hf : ∀ a, x = .ok a → WritesWithin n (f a)) : WritesWithin n (x >>= f) := by
  intro s' h
  obtain ⟨a, hx, ha⟩ := bind_eq_ok.mp h
  exact hf a hx s' ha

/-- The next state that is answered has no register longer than `n`. -/
def AnswersWithin (n : Nat) (a : Answer) : Prop := ∀ t, a = .next t → RegsWithin n t

theorem answersWithin_complete {n : Nat} {s : State} {r : Except ErrCode State} (hs : RegsWithin n s)
    (hr : WritesWithin n r) : AnswersWithin n (complete s r) := by
  intro t ht q
  rcases complete_cases s r with ⟨s', hok, e⟩ | ⟨c, -, e⟩
  · rw [e] at ht; cases ht
    rw [regVal_retire]; exact hr s' hok q
  · rw [e] at ht; cases ht
    rw [regVal_retire, regVal_enterError]; exact hs q

/-- A command without a destination leaves every register as it is (30_encoding.md R75). -/
theorem regVal_exec_of_no_dest {i : Instr} {s t : State} (hi : destOf i = none) (h : exec i s = .next t) (q : Reg) :
    regVal t q = regVal s q := by
  rcases exec_ends i s with (⟨s', hw, e⟩ | ⟨c, -, e⟩) | ⟨-, -, -, e⟩ <;> rw [e] at h <;> cases h
  · cases hw with
    | nothing => rfl
    | reg v hd => rw [hi] at hd; cases hd
    | regBorrow v b hd => rw [hi] at hd; cases hd
    | res b => rfl
    | dataOut v => rfl
  · simp
  · rfl

theorem exec_within_of_no_dest {n : Nat} {i : Instr} {s : State} (hs : RegsWithin n s) (hi : destOf i = none) :
    AnswersWithin n (exec i s) := by
  intro t h q
  rw [regVal_exec_of_no_dest hi h]
  exact hs q

/-- The one write of a command that ends with a register's new value. -/
theorem writesWithin_setReg {n : Nat} {s : State} (hs : RegsWithin n s) (rd : Reg) {v : BitVector} (hv : v.length ≤ n) :
    WritesWithin n (.ok (setReg s rd v)) :=
  writesWithin_ok (regsWithin_setReg hs rd hv)

/-- A result that is checked against MAXLEN before it is written (41_arithmetic.md R140). -/
theorem writesWithin_bounded {s : State} (hs : RegsWithin s.cfg.maxLen s) (rd : Reg) {v : BitVector} :
    WritesWithin s.cfg.maxLen (bounded s v >>= fun r => .ok (setReg s rd r)) := by
  refine writesWithin_bind fun r hr => ?_
  obtain ⟨rfl, hle⟩ := bounded_eq_ok.mp hr
  exact writesWithin_setReg hs rd hle

theorem writesWithin_writeBit {n : Nat} {s : State} (hs : RegsWithin n s) (rd : Reg) (k : Nat) (b : Bool) :
    WritesWithin n (writeBit s rd k b) :=
  writesWithin_bind fun _ _ => writesWithin_setReg hs rd (by rw [List.length_set]; exact hs rd)

/-- The numbers a command writes are below 2^64, and MAXLEN is at least 64 (00_scope.md R7). -/
theorem dec2bin_length_le_of_lt {x n : Nat} (hn : 64 ≤ n) (hx : x < 2 ^ 64) : (dec2bin x).length ≤ n :=
  le_trans (dec2bin_length_le (by omega) hx) hn

/-- Each of the 24 commands keeps the registers within MAXLEN: its result is a copy, is checked, or has 64 bits at most. -/
theorem exec_within (i : Instr) {s : State} (hs : RegsWithin s.cfg.maxLen s) (h64 : 64 ≤ s.cfg.maxLen) :
    AnswersWithin s.cfg.maxLen (exec i s) := by
  have operand_le : ∀ {r : Reg} {v : BitVector}, operand s r = .ok v → v.length ≤ s.cfg.maxLen := by
    intro r v hv
    rw [← (operand_eq_ok.mp hv).1]
    exact hs r
  cases i with
  | clr rd => exact answersWithin_complete hs (writesWithin_setReg hs rd (Nat.zero_le _))
  | mov rd rs1 =>
    exact answersWithin_complete hs (writesWithin_bind fun v hv => writesWithin_setReg hs rd (operand_le hv))
  | wri rd =>
    exact answersWithin_complete hs (writesWithin_setReg hs rd (dec2bin_length_le_of_lt h64 (latchedDin_lt s)))
  | fill rd n =>
    refine answersWithin_complete hs (writesWithin_bind fun _ hn => writesWithin_ok ?_)
    have hle : n ≤ s.cfg.maxLen := by simpa using require_eq_ok.mp hn
    split
    · exact regsWithin_setReg hs rd (by rw [zext_length]; exact max_le (hs rd) hle)
    · exact hs
  | setb rd k => exact answersWithin_complete hs (writesWithin_writeBit hs rd k true)
  | clrb rd k => exact answersWithin_complete hs (writesWithin_writeBit hs rd k false)
  | add rd rs1 rs2 =>
    exact answersWithin_complete hs (writesWithin_bind fun _ _ => writesWithin_bounded hs rd)
  | addn rd rs1 =>
    exact answersWithin_complete hs (writesWithin_bind fun _ _ => writesWithin_bounded hs rd)
  | sub rd rs1 rs2 =>
    refine answersWithin_complete hs (writesWithin_bind fun ab hab => ?_)
    obtain ⟨rfl, -, -⟩ := operands2_eq_ok.mp hab
    have hle : (bvSub (regVal s rs1) (regVal s rs2)).1.length ≤ s.cfg.maxLen := by
      rw [bvSub_length]; exact max_le (hs rs1) (hs rs2)
    exact writesWithin_ok (s := setBorrow (setReg s rd _) _) (regsWithin_setReg hs rd hle)
  | mul rd rs1 rs2 =>
    exact answersWithin_complete hs (writesWithin_bind fun _ _ => writesWithin_bounded hs rd)
  | pow rd rs1 rs2 =>
    exact answersWithin_complete hs (writesWithin_bind fun _ _ => writesWithin_bind fun r hr =>
      writesWithin_setReg hs rd (bvPow_length_le (by omega) (orRaise_eq_ok.mp hr)))
  | shl rd rs1 k =>
    refine answersWithin_complete hs (writesWithin_bind fun a _ => writesWithin_bind fun _ hr => ?_)
    have hle : a.length + k ≤ s.cfg.maxLen := by simpa using require_eq_ok.mp hr
    exact writesWithin_setReg hs rd (by rw [bvShl_length]; exact hle)
  | shr rd rs1 k =>
    refine answersWithin_complete hs (writesWithin_bind fun a ha => writesWithin_setReg hs rd ?_)
    have hle := operand_le ha
    rw [bvShr_length]
    split <;> omega
  | gcd rd rs1 rs2 =>
    refine answersWithin_complete hs (writesWithin_bind fun ab hab => ?_)
    obtain ⟨ha, hb⟩ := ntOperands2_lt hab
    exact writesWithin_setReg hs rd (dec2bin_length_le_of_lt h64 (ntGcd_lt ha hb))
  | modexp rd rs1 rs2 rs3 =>
    refine answersWithin_complete hs (writesWithin_bind fun bem hbem => writesWithin_bind fun _ hr => ?_)
    obtain ⟨-, -, hm⟩ := ntOperands3_lt hbem
    have hne : bem.2.2 ≠ 0 := by simpa using require_eq_ok.mp hr
    exact writesWithin_setReg hs rd (dec2bin_length_le_of_lt h64 (lt_trans (ntModexp_lt _ _ hne) hm))
  | modinv rd rs1 rs2 =>
    refine answersWithin_complete hs (writesWithin_bind fun ep hep => writesWithin_bind fun d hd => ?_)
    obtain ⟨-, hphi⟩ := ntOperands2_lt hep
    exact writesWithin_setReg hs rd (dec2bin_length_le_of_lt h64 (lt_trans (ntModinv_lt (orRaise_eq_ok.mp hd)) hphi))
  | rdi rs1 => exact exec_within_of_no_dest hs rfl
  | rdw rs1 k => exact exec_within_of_no_dest hs rfl
  | rdlen rs1 => exact exec_within_of_no_dest hs rfl
  | getbit rs1 k => exact exec_within_of_no_dest hs rfl
  | ispow2 rs1 => exact exec_within_of_no_dest hs rfl
  | lsb rs1 => exact exec_within_of_no_dest hs rfl
  | mrtest rs1 => exact exec_within_of_no_dest hs rfl
  | mrbase rs1 rs2 => exact exec_within_of_no_dest hs rfl

/-! ## What each operation over the state does to the invariant -/

theorem wellFormed_maxLen {p : Params} (h : p.wellFormed = true) : 64 ≤ p.maxLen := by
  simp only [Params.wellFormed, Bool.and_eq_true, decide_eq_true_eq] at h
  omega

/-- The error codes are 1 to 6 (60_exceptions.md R220). -/
theorem errNumber_range (c : ErrCode) : 1 ≤ (errNumber c).toNat ∧ (errNumber c).toNat ≤ 6 := by
  cases c <;> decide

theorem legal_inputs {s : State} (h : Legal s) (is : List Input) : Legal { s with inputs := is } :=
  ⟨h.params, h.lengths, h.noError, h.error, h.words, h.wordCount⟩

theorem legal_reply {s : State} (h : Legal s) (r : Option BusReply) : Legal { s with reply := r } :=
  ⟨h.params, h.lengths, h.noError, h.error, h.words, h.wordCount⟩

theorem legal_dataIn {s : State} (h : Legal s) (v : Word64) : Legal { s with dataIn := v } :=
  ⟨h.params, h.lengths, h.noError, h.error, h.words, h.wordCount⟩

theorem legal_retire {s : State} (h : Legal s) : Legal (retire s) :=
  ⟨h.params, h.lengths, h.noError, h.error, fun hne => absurd rfl hne, Nat.zero_le _⟩

/-- Only the parameters pass through a reset (10_state.md R40, R30). -/
theorem legal_resetUnit {s : State} (h : s.cfg.wellFormed = true) : Legal (resetUnit s) where
  params := h
  lengths r := by simp
  noError _ := ⟨rfl, rfl⟩
  error he := by cases he
  words hne := absurd rfl hne
  wordCount := Nat.zero_le _

theorem legal_enterError {s : State} (h : Legal s) (c : ErrCode) (w : CmdWord) : Legal (enterError s c w) := by
  cases he : s.err with
  | true => rw [enterError_of_err he]; exact h
  | false =>
    rw [enterError_of_not_err he]
    exact ⟨h.params, h.lengths, fun hf => (by cases hf), fun _ => errNumber_range c, h.words, h.wordCount⟩

/-- A command's writes keep the invariant where they keep the lengths. -/
theorem legal_wrote {i : Instr} {s s' : State} (h : Legal s) (hw : Wrote i s s') (hl : RegsWithin s.cfg.maxLen s') :
    Legal s' := by
  cases hw <;> exact ⟨h.params, hl, h.noError, h.error, h.words, h.wordCount⟩

/-- An idle unit holds no RNG word, so the command it accepts starts with none (70_reset_and_hazards.md R259). -/
theorem legal_accept {s : State} (h : Legal s) (hp : s.pending = none) (p : Pending) :
    Legal { s with pending := some p } where
  params := h.params
  lengths := h.lengths
  noError := h.noError
  error := h.error
  words hne := by
    obtain ⟨q, rs1, hq, -⟩ := h.words hne
    rw [hp] at hq
    cases hq
  wordCount := h.wordCount

/-! ## The agents' steps (70_reset_and_hazards.md R261) -/

theorem legal_exec {i : Instr} {s t : State} (h : Legal s) (ht : exec i s = .next t) : Legal t := by
  have hl : RegsWithin s.cfg.maxLen t := exec_within i h.lengths (wellFormed_maxLen h.params) t ht
  rcases exec_ends i s with (⟨s', hw, e⟩ | ⟨c, -, e⟩) | ⟨-, -, -, e⟩ <;> rw [e] at ht <;> cases ht
  · exact legal_retire (legal_wrote h hw hl)
  · exact legal_retire (legal_enterError h c _)
  · exact h

theorem legal_completionStep {s t : State} (h : Legal s) (ht : completionStep s = .next t) : Legal t := by
  cases hp : s.pending with
  | none =>
    rw [completionStep_of_idle hp] at ht
    cases ht
    exact h
  | some p =>
    cases hd : decode p.cmd with
    | ok i =>
      rw [completionStep_of_decode hp hd] at ht
      exact legal_exec h ht
    | error e =>
      rw [completionStep_of_illegal hp hd] at ht
      cases ht
      exact legal_retire (legal_enterError h _ _)

/-- A delivered word goes only to an MRTEST that has fewer words than rounds. -/
theorem legal_deliver {s : State} (h : Legal s) (w : Word64) : Legal (deliver s w) := by
  unfold deliver
  split
  case isTrue hw =>
    obtain ⟨p, rs1, hp, hd, hnone⟩ := (wantsWord_iff s).mp hw
    obtain ⟨-, -, -, -, hlt, -⟩ := mrtestOutcome_eq_none_iff.mp hnone
    exact ⟨h.params, h.lengths, h.noError, h.error, fun _ => ⟨p, rs1, hp, hd⟩, by simpa using hlt⟩
  case isFalse => exact h

theorem legal_writeWindow {s : State} (h : Legal s) (v : Word64) (r : WindowReg) : Legal (writeWindow s v r) := by
  rcases writeWindow_cases s v r with e | ⟨-, e⟩ | ⟨-, -, e⟩ | ⟨-, -, -, e⟩ | ⟨-, -, hp, e⟩ <;> rw [e]
  · exact h
  · exact legal_dataIn h v
  · exact legal_resetUnit h.params
  · exact legal_enterError h _ _
  · exact legal_accept h hp _

/-- A host read changes only the bus's answer (20_memory.md R56). -/
theorem hostReads_next {s t : State} {addr width : Nat} (ht : hostReads s addr width = .next t) :
    ∃ r, t = { s with reply := r } := by
  unfold hostReads at ht
  split at ht <;> cases ht <;> exact ⟨_, rfl⟩

/-- A host write changes the bus's answer, and what the window register's write changes. -/
theorem hostWrites_next {s t : State} {addr width : Nat} {v : Word64} (ht : hostWrites s addr width v = .next t) :
    ∃ r, t = { s with reply := r } ∨ ∃ reg, t = { writeWindow s v reg with reply := r } := by
  unfold hostWrites at ht
  split at ht <;> cases ht
  · exact ⟨_, .inl rfl⟩
  · exact ⟨_, .inr ⟨_, rfl⟩⟩

theorem legal_react {s t : State} {i : Input} (h : Legal s) (ht : react s i = .next t) : Legal t := by
  cases i with
  | hostRead addr width =>
    obtain ⟨r, rfl⟩ := hostReads_next ht
    exact legal_reply h r
  | hostWrite addr width v =>
    obtain ⟨r, rfl | ⟨reg, rfl⟩⟩ := hostWrites_next ht
    · exact legal_reply h r
    · exact legal_reply (legal_writeWindow h v reg) r
  | unitTurn => exact legal_completionStep h ht
  | rngWord w =>
    cases ht
    exact legal_deliver h w
  | hwReset =>
    cases ht
    exact legal_resetUnit h.params

/-! ## The obligations -/

/-- Settles O10: the reset state is what a reset of the unit makes of it. -/
theorem resetIsLegal : Obligations.ResetIsLegal :=
  legal_resetUnit (s := State.reset) (by decide)

/-- Settles O11, by the agent that moves: the unit by itself when no input is left, otherwise the first input's agent. -/
theorem stepKeepsLegal : Obligations.StepKeepsLegal := by
  intro s t h ht
  cases hin : s.inputs with
  | nil =>
    rw [step_of_no_input hin] at ht
    exact legal_completionStep h ht
  | cons i rest =>
    rw [step_of_input hin] at ht
    exact legal_react (legal_inputs h rest) ht

end Sys2Proof.Machine
end

section
/-! What a host access at a register's offset does in one step, the fields of STATUS and CONFIG, and the resets (10_state.md R29, R30,
R40; 20_memory.md R51). -/

namespace Sys2Proof.Machine

/-! ## A host access at a register's offset (20_memory.md R51, R56) -/

/-- Taking an input off the list changes nothing the host can read. -/
@[simp] theorem readWindow_inputs (s : State) (is : List Input) (r : WindowReg) :
    readWindow { s with inputs := is } r = readWindow s r := by
  cases r <;> rfl

theorem step_of_hostRead_at {s : State} {off : Nat} {r : WindowReg} {rest : List Input} (hr : windowRegAt off = some r)
    (hin : s.inputs = .hostRead (s.cfg.base + off) 8 :: rest) :
    step s = .next { s with inputs := rest, reply := some (.data (readWindow s r)) } := by
  rw [step_of_input hin]
  simp only [react, hostReads, selectAccess_at hr, readWindow_inputs]

theorem step_of_hostWrite_at {s : State} {off : Nat} {r : WindowReg} {v : Word64} {rest : List Input}
    (hr : windowRegAt off = some r) (hin : s.inputs = .hostWrite (s.cfg.base + off) 8 v :: rest) :
    step s = .next { writeWindow { s with inputs := rest } v r with reply := some .written } := by
  rw [step_of_input hin]
  simp only [react, hostWrites, selectAccess_at hr]

/-! ## A field of a window register as a quotient and a remainder (as for the fields of a command word) -/

theorem extractLsb'_eq_iff {m n : Nat} (w : BitVec m) (lo : Nat) (f : BitVec n) :
    w.extractLsb' lo n = f ↔ w.toNat / 2 ^ lo % 2 ^ n = f.toNat := by
  rw [← BitVec.toNat_inj, BitVec.extractLsb'_toNat, Nat.shiftRight_eq_div_pow]

theorem getLsbD_eq_iff {m : Nat} (w : BitVec m) (i : Nat) (b : Bool) :
    w.getLsbD i = b ↔ w.toNat / 2 ^ i % 2 = b.toNat := by
  rw [BitVec.getLsbD, Nat.testBit_eq_decide_div_mod_eq]
  cases b <;> simp

/-! ## STATUS (10_state.md R29) -/

theorem busy_iff (s : State) : busy s = true ↔ s.pending ≠ none := by
  simp [busy, Option.isSome_iff_ne_none]

theorem statusWord_toNat (s : State) :
    (statusWord s).toNat =
      s.errCode.toNat * 2 ^ 8 + s.borrow.toNat * 2 ^ 3 + s.res.toNat * 2 ^ 2 + s.err.toNat * 2 + (busy s).toNat := by
  simp only [statusWord, append_toNat, BitVec.toNat_ofBool, BitVec.toNat_ofNat]; omega

theorem statusWord_fields (s : State) :
    (statusWord s).getLsbD 0 = busy s ∧ (statusWord s).getLsbD 1 = s.err ∧ (statusWord s).getLsbD 2 = s.res ∧
      (statusWord s).getLsbD 3 = s.borrow ∧ (statusWord s).extractLsb' 4 4 = 0#4 ∧
      (statusWord s).extractLsb' 8 4 = s.errCode ∧ (statusWord s).extractLsb' 12 52 = 0#52 := by
  have hcode := s.errCode.isLt
  have hborrow := Bool.toNat_le s.borrow
  have hres := Bool.toNat_le s.res
  have herr := Bool.toNat_le s.err
  have hbusy := Bool.toNat_le (busy s)
  simp only [getLsbD_eq_iff, extractLsb'_eq_iff, statusWord_toNat, BitVec.toNat_ofNat]
  omega

/-- Settles O23: each field of STATUS is a part of `statusWord`, and a read at offset 0x10 changes only the bus's answer. -/
theorem statusLayout : Obligations.StatusLayout := by
  intro s
  obtain ⟨hbusy, herr, hres, hborrow, hzero, hcode, hupper⟩ := statusWord_fields s
  exact ⟨by rw [← busy_iff, ← hbusy]; rfl, herr, hres, hborrow, hzero, hcode, hupper, fun v => rfl, by decide,
    fun rest hin => step_of_hostRead_at rfl hin⟩

/-! ## The resets (10_state.md R31, R40; 70_reset_and_hazards.md R250, R251) -/

/-- Settles O18: the reset state is written out field by field. -/
theorem resetState : Obligations.ResetState :=
  ⟨regVal_reset, rfl, rfl, rfl, rfl, rfl, rfl, rfl, rfl, by decide⟩

/-- Settles O19: the hardware reset and a CTRL write with bit 0 set are both `resetUnit`, which keeps only the parameters and what is
outside the unit. -/
theorem resetsGiveTheResetState : Obligations.ResetsGiveTheResetState := by
  rintro s rest t rfl
  have hstatus : readWindow State.reset .status = 0#64 := by decide
  refine ⟨hstatus, rfl, fun hin => step_of_input hin, fun v hin => ⟨some .written, fun hv => ?_, fun hv => ?_⟩⟩ <;>
    rw [step_of_hostWrite_at rfl hin, writeWindow, writeCtrl, hv] <;> rfl

/-! ## CONFIG (10_state.md R30) -/

theorem configWord_toNat {p : Params} (hp : p.wellFormed = true) :
    (configWord p).toNat =
      64 * 2 ^ 48 + 16 * 2 ^ 40 + (modeBit p.mulMode).toNat * 2 ^ 32 + p.mrRounds * 2 ^ 24 + p.maxLen := by
  simp only [Params.wellFormed, Bool.and_eq_true, decide_eq_true_eq] at hp
  simp only [configWord, append_toNat, BitVec.toNat_ofNat, nreg, ntWidth]
  omega

theorem modeBit_toNat (m : MulMode) : (modeBit m).toNat = (decide (m = .exact)).toNat := by
  cases m <;> rfl

theorem configWord_fields {p : Params} (hp : p.wellFormed = true) :
    ((configWord p).extractLsb' 0 24).toNat = p.maxLen ∧ ((configWord p).extractLsb' 24 8).toNat = p.mrRounds ∧
      (configWord p).getLsbD 32 = decide (p.mulMode = .exact) ∧ (configWord p).extractLsb' 33 7 = 0#7 ∧
      (configWord p).extractLsb' 40 8 = 16#8 ∧ (configWord p).extractLsb' 48 8 = 64#8 ∧
      (configWord p).extractLsb' 56 8 = 0#8 := by
  have hmode := Bool.toNat_le (decide (p.mulMode = .exact))
  simp only [getLsbD_eq_iff, extractLsb'_eq_iff, BitVec.extractLsb'_toNat, Nat.shiftRight_eq_div_pow,
    configWord_toNat hp, modeBit_toNat, BitVec.toNat_ofNat]
  simp only [Params.wellFormed, Bool.and_eq_true, decide_eq_true_eq] at hp
  omega

end Sys2Proof.Machine
end

section
/-! What every command and every step leaves unchanged (10_state.md R20, R26 to R28, R30, R34, R35; 60_exceptions.md R225). -/

namespace Sys2Proof.Machine

/-! ## The frame of the 24 commands -/

/-- What command `i` may have changed on the way from `s` to `t`: only its own results, and the record of an error. -/
structure InFrame (i : Instr) (s t : State) : Prop where
  regs    : ∀ r, destOf i ≠ some r → regVal t r = regVal s r
  res     : writesRes i = false → t.res = s.res
  borrow  : writesBorrow i = false → t.borrow = s.borrow
  dataOut : writesDataOut i = false → t.dataOut = s.dataOut
  dataIn  : t.dataIn = s.dataIn
  cfg     : t.cfg = s.cfg
  inputs  : t.inputs = s.inputs
  reply   : t.reply = s.reply

theorem inFrame_refl (i : Instr) (s : State) : InFrame i s s :=
  ⟨fun _ _ => rfl, fun _ => rfl, fun _ => rfl, fun _ => rfl, rfl, rfl, rfl, rfl⟩

theorem inFrame_retire {i : Instr} {s t : State} (h : InFrame i s t) : InFrame i s (retire t) :=
  ⟨h.regs, h.res, h.borrow, h.dataOut, h.dataIn, h.cfg, h.inputs, h.reply⟩

theorem inFrame_enterError (i : Instr) (s : State) (c : ErrCode) (w : CmdWord) : InFrame i s (enterError s c w) := by
  constructor <;> simp

theorem inFrame_setReg {i : Instr} {s : State} {rd : Reg} (v : BitVector) (hd : destOf i = some rd) :
    InFrame i s (setReg s rd v) where
  regs r hr := regVal_setReg_ne s v (fun e => hr (by rw [hd, e]))
  res _ := rfl
  borrow _ := rfl
  dataOut _ := rfl
  dataIn := rfl
  cfg := rfl
  inputs := rfl
  reply := rfl

/-- The results a command writes are its own (30_encoding.md R75; 10_state.md R26, R27, R35). -/
theorem inFrame_wrote {i : Instr} {s t : State} (h : Wrote i s t) : InFrame i s t := by
  cases h with
  | nothing => exact inFrame_refl i s
  | reg v hd => exact inFrame_setReg v hd
  | regBorrow v b hd hb =>
    exact { inFrame_setReg v hd with borrow := fun hb' => absurd (hb.symm.trans hb') (by decide) }
  | res b hw => exact { inFrame_refl i s with res := fun hw' => absurd (hw.symm.trans hw') (by decide) }
  | dataOut v hw => exact { inFrame_refl i s with dataOut := fun hw' => absurd (hw.symm.trans hw') (by decide) }

theorem inFrame_exec {i : Instr} {s t : State} (h : exec i s = .next t) : InFrame i s t := by
  rcases exec_ends i s with (⟨s', hw, e⟩ | ⟨c, -, e⟩) | ⟨-, -, -, e⟩ <;> rw [e] at h <;> cases h
  · exact inFrame_retire (inFrame_wrote hw)
  · exact inFrame_retire (inFrame_enterError i s c _)
  · exact inFrame_refl i s

/-- Settles O25: a command ends with writes of its own results, with an error, or as it began. -/
theorem frameOfEveryCommand : Obligations.FrameOfEveryCommand := by
  intro i s t h
  obtain ⟨hregs, hres, hborrow, hdataOut, hdataIn, hcfg, hinputs, hreply⟩ := inFrame_exec h
  exact ⟨hregs, hres, hborrow, hdataOut, hdataIn, hcfg, hinputs, hreply⟩

/-! ## The parameters (10_state.md R30; log entry 1) -/

theorem completionStep_cfg {s t : State} (h : completionStep s = .next t) : t.cfg = s.cfg := by
  cases hp : s.pending with
  | none => rw [completionStep_of_idle hp] at h; cases h; rfl
  | some p =>
    cases hd : decode p.cmd with
    | ok i => rw [completionStep_of_decode hp hd] at h; exact (inFrame_exec h).cfg
    | error e => rw [completionStep_of_illegal hp hd] at h; cases h; simp

theorem writeWindow_cfg (s : State) (v : Word64) (r : WindowReg) : (writeWindow s v r).cfg = s.cfg := by
  rcases writeWindow_cases s v r with e | ⟨-, e⟩ | ⟨-, -, e⟩ | ⟨-, -, -, e⟩ | ⟨-, -, -, e⟩ <;> rw [e]
  · exact resetUnit_cfg s
  · exact enterError_cfg s _ _

/-- A delivered word is held or discarded; nothing else happens (70_reset_and_hazards.md R259). -/
theorem deliver_eq (s : State) (w : Word64) : ∃ ws, deliver s w = { s with rngWords := ws } := by
  unfold deliver
  split
  · exact ⟨_, rfl⟩
  · exact ⟨s.rngWords, rfl⟩

theorem react_cfg {s t : State} {i : Input} (h : react s i = .next t) : t.cfg = s.cfg := by
  cases i with
  | hostRead addr width => obtain ⟨r, rfl⟩ := hostReads_next h; rfl
  | hostWrite addr width v =>
    obtain ⟨r, rfl | ⟨reg, rfl⟩⟩ := hostWrites_next h
    · rfl
    · exact writeWindow_cfg s v reg
  | unitTurn => exact completionStep_cfg h
  | rngWord w =>
    cases h
    obtain ⟨ws, e⟩ := deliver_eq s w
    rw [e]
  | hwReset => cases h; rfl

/-- No step of any agent changes a parameter. -/
theorem step_cfg {s t : State} (h : step s = .next t) : t.cfg = s.cfg := by
  cases hin : s.inputs with
  | nil => rw [step_of_no_input hin] at h; exact completionStep_cfg h
  | cons i rest => rw [step_of_input hin] at h; exact (react_cfg h :)

/-- Settles O12: CONFIG is a function of the parameters alone, which no step changes. -/
theorem configShowsParametersForever : Obligations.ConfigShowsParametersForever := by
  intro s hp
  obtain ⟨hlen, hrounds, hmode, h33, h40, h48, h56⟩ := configWord_fields hp
  exact ⟨hlen, hrounds, by rw [readWindow, hmode, decide_eq_true_iff], h33, h40, h48, h56, fun v => rfl,
    fun rest hin => step_of_hostRead_at (off := 0) rfl hin, fun t ht => congrArg configWord (step_cfg ht)⟩

/-! ## The sticky error state (10_state.md R28; 60_exceptions.md R224, R225) -/

/-- The error recorded in `s` is the one recorded in `t`, and an idle unit has stayed idle and written nothing. -/
structure KeepsError (s t : State) : Prop where
  err     : t.err = s.err
  errCode : t.errCode = s.errCode
  errInfo : t.errInfo = s.errInfo
  idle    : s.pending = none →
    t.pending = none ∧ t.regs = s.regs ∧ t.res = s.res ∧ t.borrow = s.borrow ∧ t.dataOut = s.dataOut

theorem keepsError_refl (s : State) : KeepsError s s :=
  ⟨rfl, rfl, rfl, fun hp => ⟨hp, rfl, rfl, rfl, rfl⟩⟩

theorem keepsError_reply {s t : State} (h : KeepsError s t) (r : Option BusReply) :
    KeepsError s { t with reply := r } :=
  ⟨h.err, h.errCode, h.errInfo, h.idle⟩

theorem keepsError_inputs {s t : State} {is : List Input} (h : KeepsError { s with inputs := is } t) : KeepsError s t :=
  ⟨h.err, h.errCode, h.errInfo, h.idle⟩

/-- A command writes no part of the error record; an error it takes does not replace the first. -/
theorem keepsError_exec {i : Instr} {s t : State} (he : s.err = true) (hp : s.pending ≠ none) (h : exec i s = .next t) :
    KeepsError s t := by
  rcases exec_ends i s with (⟨s', hw, e⟩ | ⟨c, -, e⟩) | ⟨-, -, -, e⟩ <;> rw [e] at h <;> cases h
  · cases hw <;> exact ⟨rfl, rfl, rfl, fun hn => absurd hn hp⟩
  · rw [enterError_of_err he]
    exact ⟨rfl, rfl, rfl, fun hn => absurd hn hp⟩
  · exact keepsError_refl s

theorem keepsError_completionStep {s t : State} (he : s.err = true) (h : completionStep s = .next t) :
    KeepsError s t := by
  cases hp : s.pending with
  | none =>
    rw [completionStep_of_idle hp] at h
    cases h
    exact keepsError_refl s
  | some p =>
    have hne : s.pending ≠ none := by rw [hp]; exact Option.some_ne_none p
    cases hd : decode p.cmd with
    | ok i =>
      rw [completionStep_of_decode hp hd] at h
      exact keepsError_exec he hne h
    | error e =>
      rw [completionStep_of_illegal hp hd, complete_error, enterError_of_err he] at h
      cases h
      exact ⟨rfl, rfl, rfl, fun hn => absurd hn hne⟩

/-- Of the writes of the window only a CTRL write with bit 0 set ends the sticky error state. -/
theorem keepsError_writeWindow {s : State} (he : s.err = true) {v : Word64} {r : WindowReg}
    (hr : ¬ (r = .ctrl ∧ v.getLsbD 0 = true)) : KeepsError s (writeWindow s v r) := by
  rcases writeWindow_cases s v r with e | ⟨-, e⟩ | ⟨hctrl, hbit, -⟩ | ⟨-, hne, -⟩ | ⟨-, hne, -⟩
  · rw [e]; exact keepsError_refl s
  · rw [e]; exact ⟨rfl, rfl, rfl, fun hp => ⟨hp, rfl, rfl, rfl, rfl⟩⟩
  · exact absurd ⟨hctrl, hbit⟩ hr
  · rw [he] at hne; cases hne
  · rw [he] at hne; cases hne

/-- Only 8-byte accesses are admitted (20_memory.md R51). -/
theorem width_of_selectAccess {p : Params} {addr width : Nat} {r : WindowReg}
    (h : selectAccess p addr width = .admits r) : width = 8 := by
  unfold selectAccess at h
  split at h
  · split at h
    case isTrue hw => exact hw.1
    case isFalse => cases h
  · cases h

/-- A host write is an admitted write of a window register, or changes only the bus's answer. -/
theorem hostWrites_next_admits {s t : State} {addr width : Nat} {v : Word64} (h : hostWrites s addr width v = .next t) :
    ∃ r, t = { s with reply := r } ∨
      ∃ reg, selectAccess s.cfg addr width = .admits reg ∧ t = { writeWindow s v reg with reply := r } := by
  unfold hostWrites at h
  split at h
  · cases h
  · cases h; exact ⟨_, .inl rfl⟩
  · next reg hsel => cases h; exact ⟨_, .inr ⟨reg, hsel, rfl⟩⟩

/-- Of all inputs only the two resets end the sticky error state (60_exceptions.md R225). -/
theorem keepsError_react {s t : State} {i : Input} {rest : List Input} (he : s.err = true) (hreset : ¬ NextIsReset s)
    (hin : s.inputs = i :: rest) (h : react { s with inputs := rest } i = .next t) : KeepsError s t := by
  refine keepsError_inputs (is := rest) ?_
  cases i with
  | hostRead addr width =>
    obtain ⟨r, rfl⟩ := hostReads_next h
    exact keepsError_reply (keepsError_refl _) r
  | hostWrite addr width v =>
    obtain ⟨r, rfl | ⟨reg, hsel, rfl⟩⟩ := hostWrites_next_admits h
    · exact keepsError_reply (keepsError_refl _) r
    · refine keepsError_reply (keepsError_writeWindow (s := { s with inputs := rest }) he ?_) r
      rintro ⟨rfl, hbit⟩
      obtain rfl := width_of_selectAccess hsel
      exact hreset ⟨rest, .inr ⟨addr, v, hin, hsel, hbit⟩⟩
  | unitTurn => exact keepsError_completionStep he h
  | rngWord w =>
    cases h
    obtain ⟨ws, e⟩ := deliver_eq { s with inputs := rest } w
    rw [e]
    exact ⟨rfl, rfl, rfl, fun hp => ⟨hp, rfl, rfl, rfl, rfl⟩⟩
  | hwReset => exact absurd ⟨rest, .inl hin⟩ hreset

/-- Settles O15, by the agent that moves: of all inputs only the two resets touch a recorded error. -/
theorem errorIsSticky : Obligations.ErrorIsSticky := by
  intro s t he hreset ht
  have keeps : KeepsError s t := by
    cases hin : s.inputs with
    | nil =>
      rw [step_of_no_input hin] at ht
      exact keepsError_completionStep he ht
    | cons i rest =>
      rw [step_of_input hin] at ht
      exact keepsError_react he hreset hin ht
  exact ⟨keeps.err.trans he, keeps.errCode, keeps.errInfo, keeps.idle⟩

end Sys2Proof.Machine
end

section
/-! What a command depends on: the parameters, the registers, the latched DATA_IN and, for MRTEST alone, the words the RNG has delivered
(10_state.md R33, R34; 20_memory.md R60; 70_reset_and_hazards.md R259). Two states that agree on these meet the same errors and the same
writes. -/

namespace Sys2Proof.Machine

/-! ## The writes of a command as data -/

/-- One choice of the writes `Wrote` lists. -/
inductive Write where
  | nothing
  | reg (rd : Reg) (v : BitVector)
  | regBorrow (rd : Reg) (v : BitVector) (b : Bool)
  | res (b : Bool)
  | dataOut (v : Word64)

def Write.apply (s : State) : Write → State
  | .nothing => s
  | .reg rd v => setReg s rd v
  | .regBorrow rd v b => setBorrow (setReg s rd v) b
  | .res b => setRes s b
  | .dataOut v => setDataOut s v

/-! ## States that a command cannot tell apart -/

/-- `s'` has the parameters, the registers and the latched DATA_IN of `s`. -/
structure SameOperands (s s' : State) : Prop where
  cfg  : s'.cfg = s.cfg
  regs : s'.regs = s.regs
  din  : latchedDin s' = latchedDin s

section
variable {s s' : State} (h : SameOperands s s')
include h

theorem SameOperands.regVal (r : Reg) : regVal s' r = regVal s r := by
  rw [Machine.regVal, Machine.regVal, h.regs]

theorem SameOperands.operand (r : Reg) : operand s' r = operand s r := by
  rw [Machine.operand, Machine.operand, h.regVal]

theorem SameOperands.operands2 (r1 r2 : Reg) : operands2 s' r1 r2 = operands2 s r1 r2 := by
  rw [Machine.operands2, Machine.operands2, h.operand, h.operand]

theorem SameOperands.ntOperand (r : Reg) : ntOperand s' r = ntOperand s r := by
  rw [Machine.ntOperand, Machine.ntOperand, h.operand]

theorem SameOperands.ntOperands2 (r1 r2 : Reg) : ntOperands2 s' r1 r2 = ntOperands2 s r1 r2 := by
  rw [Machine.ntOperands2, Machine.ntOperands2, h.operand, h.operand]

theorem SameOperands.ntOperands3 (r1 r2 r3 : Reg) : ntOperands3 s' r1 r2 r3 = ntOperands3 s r1 r2 r3 := by
  rw [Machine.ntOperands3, Machine.ntOperands3, h.operand, h.operand, h.operand]

theorem SameOperands.bounded (v : BitVector) : bounded s' v = bounded s v := by
  rw [Machine.bounded, Machine.bounded, h.cfg]

theorem SameOperands.mrtestOutcome (hw : s'.rngWords = s.rngWords) (r : Reg) : mrtestOutcome r s' = mrtestOutcome r s := by
  rw [Machine.mrtestOutcome, Machine.mrtestOutcome, h.ntOperand, h.cfg, hw]

end

/-! ## Pseudocode that reads only its operands -/

/-- The pseudocode `f` of a command comes, in every state a command cannot tell from `s`, to the same error or the same writes. -/
def ReadsOnlyOperands (s : State) (f : State → Except ErrCode State) : Prop :=
  ∃ r : Except ErrCode Write, ∀ s', SameOperands s s' → f s' = r.map (Write.apply s')

theorem readsOnly_write {s : State} {f : State → State} (w : Write) (hf : ∀ s', SameOperands s s' → f s' = w.apply s') :
    ReadsOnlyOperands s fun s' => .ok (f s') :=
  ⟨.ok w, fun s' h => congrArg Except.ok (hf s' h)⟩

theorem readsOnly_bind {s : State} {α : Type} {x : State → Except ErrCode α} {f : State → α → Except ErrCode State}
    (hx : ∀ s', SameOperands s s' → x s' = x s) (hf : ∀ a, ReadsOnlyOperands s fun s' => f s' a) :
    ReadsOnlyOperands s fun s' => x s' >>= f s' := by
  cases e : x s with
  | error c => exact ⟨.error c, fun s' h => by beta_reduce; rw [hx s' h, e]; rfl⟩
  | ok a =>
    obtain ⟨r, hr⟩ := hf a
    exact ⟨r, fun s' h => by beta_reduce; rw [hx s' h, e]; exact hr s' h⟩

theorem readsOnly_reg (s : State) (rd : Reg) (v : BitVector) : ReadsOnlyOperands s fun s' => .ok (setReg s' rd v) :=
  readsOnly_write (.reg rd v) fun _ _ => rfl

theorem readsOnly_res (s : State) (b : Bool) : ReadsOnlyOperands s fun s' => .ok (setRes s' b) :=
  readsOnly_write (.res b) fun _ _ => rfl

theorem readsOnly_dataOut (s : State) (v : Word64) : ReadsOnlyOperands s fun s' => .ok (setDataOut s' v) :=
  readsOnly_write (.dataOut v) fun _ _ => rfl

/-- A check or a partial function whose arguments no longer depend on the state. -/
theorem readsOnly_bind_const {s : State} {α : Type} (x : Except ErrCode α) {f : State → α → Except ErrCode State}
    (hf : ∀ a, ReadsOnlyOperands s fun s' => f s' a) : ReadsOnlyOperands s fun s' => x >>= f s' :=
  readsOnly_bind (fun _ _ => rfl) hf

theorem readsOnly_bounded (s : State) (rd : Reg) (v : BitVector) :
    ReadsOnlyOperands s fun s' => bounded s' v >>= fun r => .ok (setReg s' rd r) :=
  readsOnly_bind (fun _ h => h.bounded v) (readsOnly_reg s rd)

theorem readsOnly_writeBit (s : State) (rd : Reg) (k : Nat) (b : Bool) : ReadsOnlyOperands s fun s' => writeBit s' rd k b :=
  readsOnly_bind (x := fun s' => require (k < (regVal s' rd).length) .domain) (fun _ h => by rw [h.regVal]) fun _ =>
    readsOnly_write (.reg rd ((regVal s rd).set k b)) fun _ h => by rw [h.regVal]; rfl

theorem readsOnly_fill (s : State) (rd : Reg) (n : Nat) :
    ReadsOnlyOperands s fun s' => .ok (if n > (regVal s' rd).length then setReg s' rd (zext (regVal s' rd) n) else s') :=
  readsOnly_write (if n > (regVal s rd).length then .reg rd (zext (regVal s rd) n) else .nothing) fun s' h => by
    rw [h.regVal]
    split <;> rfl

/-! ## The 24 commands -/

/-- Every command but MRTEST is the completion of pseudocode that reads only its operands. -/
theorem exec_readsOnlyOperands (i : Instr) (hi : ∀ rs1, i ≠ .mrtest rs1) (s : State) :
    ∃ f, (∀ s', exec i s' = complete s' (f s')) ∧ ReadsOnlyOperands s f := by
  cases i with
  | clr rd => exact ⟨_, fun _ => rfl, readsOnly_reg s rd _⟩
  | mov rd rs1 => exact ⟨_, fun _ => rfl, readsOnly_bind (fun _ h => h.operand rs1) (readsOnly_reg s rd)⟩
  | wri rd =>
    exact ⟨_, fun _ => rfl, readsOnly_write (.reg rd (dec2bin (latchedDin s))) fun _ h => by rw [h.din]; rfl⟩
  | rdi rs1 =>
    exact ⟨_, fun _ => rfl, readsOnly_bind (fun _ h => h.ntOperand rs1) fun x => readsOnly_dataOut s _⟩
  | rdw rs1 k =>
    exact ⟨_, fun _ => rfl, readsOnly_bind (fun _ h => h.operand rs1) fun v => readsOnly_dataOut s _⟩
  | rdlen rs1 =>
    exact ⟨_, fun _ => rfl, readsOnly_write (.dataOut (BitVec.ofNat 64 (regVal s rs1).length)) fun _ h => by
      rw [h.regVal]; rfl⟩
  | fill rd n =>
    exact ⟨_, fun _ => rfl, readsOnly_bind (fun _ h => by rw [h.cfg]) fun _ => readsOnly_fill s rd n⟩
  | getbit rs1 k =>
    exact ⟨_, fun _ => rfl, readsOnly_bind (fun _ h => h.operand rs1) fun v => readsOnly_bind_const _ fun b =>
      readsOnly_res s b⟩
  | setb rd k => exact ⟨_, fun _ => rfl, readsOnly_writeBit s rd k true⟩
  | clrb rd k => exact ⟨_, fun _ => rfl, readsOnly_writeBit s rd k false⟩
  | ispow2 rs1 => exact ⟨_, fun _ => rfl, readsOnly_bind (fun _ h => h.operand rs1) fun v => readsOnly_res s _⟩
  | lsb rs1 => exact ⟨_, fun _ => rfl, readsOnly_bind (fun _ h => h.operand rs1) fun v => readsOnly_res s _⟩
  | add rd rs1 rs2 =>
    exact ⟨_, fun _ => rfl, readsOnly_bind (fun _ h => h.operands2 rs1 rs2) fun ab => readsOnly_bounded s rd _⟩
  | addn rd rs1 =>
    exact ⟨_, fun _ => rfl, readsOnly_bind (fun _ h => h.operand rs1) fun a =>
      readsOnly_bind (fun _ h => by rw [h.din, h.bounded]) (readsOnly_reg s rd)⟩
  | sub rd rs1 rs2 =>
    exact ⟨_, fun _ => rfl, readsOnly_bind (fun _ h => h.operands2 rs1 rs2) fun ab =>
      readsOnly_write (.regBorrow rd _ _) fun _ _ => rfl⟩
  | mul rd rs1 rs2 =>
    exact ⟨_, fun _ => rfl, readsOnly_bind (fun _ h => h.operands2 rs1 rs2) fun ab =>
      readsOnly_bind (fun _ h => by rw [h.cfg, h.bounded]) (readsOnly_reg s rd)⟩
  | pow rd rs1 rs2 =>
    exact ⟨_, fun _ => rfl, readsOnly_bind (fun _ h => h.operands2 rs1 rs2) fun xn =>
      readsOnly_bind (fun _ h => by rw [h.cfg]) (readsOnly_reg s rd)⟩
  | shl rd rs1 k =>
    exact ⟨_, fun _ => rfl, readsOnly_bind (fun _ h => h.operand rs1) fun a =>
      readsOnly_bind (fun _ h => by rw [h.cfg]) fun _ => readsOnly_reg s rd _⟩
  | shr rd rs1 k => exact ⟨_, fun _ => rfl, readsOnly_bind (fun _ h => h.operand rs1) fun a => readsOnly_reg s rd _⟩
  | gcd rd rs1 rs2 =>
    exact ⟨_, fun _ => rfl, readsOnly_bind (fun _ h => h.ntOperands2 rs1 rs2) fun ab => readsOnly_reg s rd _⟩
  | modexp rd rs1 rs2 rs3 =>
    exact ⟨_, fun _ => rfl, readsOnly_bind (fun _ h => h.ntOperands3 rs1 rs2 rs3) fun bem =>
      readsOnly_bind_const _ fun _ => readsOnly_reg s rd _⟩
  | mrtest rs1 => exact absurd rfl (hi rs1)
  | mrbase rs1 rs2 =>
    exact ⟨_, fun _ => rfl, readsOnly_bind (fun _ h => h.ntOperands2 rs1 rs2) fun xa => readsOnly_res s _⟩
  | modinv rd rs1 rs2 =>
    exact ⟨_, fun _ => rfl, readsOnly_bind (fun _ h => h.ntOperands2 rs1 rs2) fun ep =>
      readsOnly_bind_const _ fun d => readsOnly_reg s rd _⟩

/-- A command but MRTEST completes with the same error or the same writes in all states it cannot tell apart. -/
theorem exec_of_sameOperands (i : Instr) (hi : ∀ rs1, i ≠ .mrtest rs1) (s : State) :
    ∃ r : Except ErrCode Write, ∀ s', SameOperands s s' → exec i s' = complete s' (r.map (Write.apply s')) := by
  obtain ⟨f, hf, r, hr⟩ := exec_readsOnlyOperands i hi s
  exact ⟨r, fun s' h => by rw [hf, hr s' h]⟩

/-- So does MRTEST where the RNG words agree too, or it waits in all of them. -/
theorem execMrtest_of_sameOperands (rs1 : Reg) (s : State) :
    (∃ r : Except ErrCode Write, ∀ s', SameOperands s s' → s'.rngWords = s.rngWords →
      exec (.mrtest rs1) s' = complete s' (r.map (Write.apply s'))) ∨
    ∀ s', SameOperands s s' → s'.rngWords = s.rngWords → exec (.mrtest rs1) s' = .next s' := by
  rcases e : mrtestOutcome rs1 s with c | _ | b
  · exact .inl ⟨.error c, fun s' h hw => by rw [exec, execMrtest, h.mrtestOutcome hw, e]; rfl⟩
  · exact .inr fun s' h hw => by rw [exec, execMrtest, h.mrtestOutcome hw, e]
  · exact .inl ⟨.ok (.res b), fun s' h hw => by rw [exec, execMrtest, h.mrtestOutcome hw, e]; rfl⟩

/-- Every command, in all states that agree on what it can read: one error, one set of writes, or the wait for an RNG word. -/
theorem exec_of_sameReads (i : Instr) (s : State) :
    (∃ r : Except ErrCode Write, ∀ s', SameOperands s s' → s'.rngWords = s.rngWords →
      exec i s' = complete s' (r.map (Write.apply s'))) ∨
    ∀ s', SameOperands s s' → s'.rngWords = s.rngWords → exec i s' = .next s' := by
  by_cases hi : ∃ rs1, i = .mrtest rs1
  · obtain ⟨rs1, rfl⟩ := hi
    exact execMrtest_of_sameOperands rs1 s
  · obtain ⟨r, hr⟩ := exec_of_sameOperands i (fun rs1 e => hi ⟨rs1, e⟩) s
    exact .inl ⟨r, fun s' h _ => hr s' h⟩

/-! ## RNG words and DATA_IN -/

theorem sameOperands_refl (s : State) : SameOperands s s := ⟨rfl, rfl, rfl⟩

/-- The end of a command gives up the words that were held, whatever it wrote. -/
theorem complete_rngWords (s : State) (r : Except ErrCode Write) (ws : List Word64) :
    complete { s with rngWords := ws } (r.map (Write.apply { s with rngWords := ws })) =
      complete s (r.map (Write.apply s)) := by
  cases r with
  | error c => cases he : s.err <;> simp [Except.map, retire, enterError, pendingWord, he]
  | ok w => cases w <;> rfl

/-- No write of a command and no error reads or writes DATA_IN. -/
theorem complete_dataIn {s t : State} {r : Except ErrCode Write} (v : Word64)
    (h : complete s (r.map (Write.apply s)) = .next t) :
    complete { s with dataIn := v } (r.map (Write.apply { s with dataIn := v })) = .next { t with dataIn := v } := by
  cases r with
  | error c => cases h; cases he : s.err <;> simp [Except.map, retire, enterError, pendingWord, he]
  | ok w => cases h; cases w <;> rfl

/-- Settles O29: a command but MRTEST completes in the same way with any words held, and its end leaves none. -/
theorem onlyMrtestReadsRngWords : Obligations.OnlyMrtestReadsRngWords := by
  intro i s ws hi
  obtain ⟨r, hr⟩ := exec_of_sameOperands i hi s
  rw [hr s (sameOperands_refl s), hr { s with rngWords := ws } ⟨rfl, rfl, rfl⟩, complete_rngWords]

/-- Settles O24: with a command pending, DIN is the value latched with it, so a state with another DATA_IN is one the command cannot
tell apart. -/
theorem dataInIsLatched : Obligations.DataInIsLatched := by
  intro i s t v hp h
  refine ⟨(inFrame_exec h).dataIn, ?_⟩
  obtain ⟨p, hp⟩ := Option.ne_none_iff_exists'.mp hp
  have same : SameOperands s { s with dataIn := v } :=
    ⟨rfl, rfl, (latchedDin_of_pending (s := { s with dataIn := v }) hp).trans (latchedDin_of_pending hp).symm⟩
  rcases exec_of_sameReads i s with ⟨r, hr⟩ | hwait
  · rw [hr s (sameOperands_refl s) rfl] at h
    rw [hr _ same rfl]
    exact complete_dataIn v h
  · rw [hwait s (sameOperands_refl s) rfl] at h
    cases h
    exact hwait _ same rfl

end Sys2Proof.Machine
end

section
/-! The errors of the operand forms, in the order of 60_exceptions.md R228: first an empty source register, then a 64-bit operand of 2^64
or more. -/

namespace Sys2Proof.Machine

/-! ## Pseudocode that stops at its operands -/

/-- Pseudocode whose first step raises raises that error. -/
theorem complete_bind_error {s : State} {α : Type} {x : Except ErrCode α} {c : ErrCode} (h : x = .error c)
    (f : α → Except ErrCode State) : complete s (x >>= f) = complete s (.error c) := by
  rw [h]; rfl

/-- An MRTEST whose operand raises does not wait. -/
theorem execMrtest_of_operand_error {s : State} {rs1 : Reg} {c : ErrCode} (h : ntOperand s rs1 = .error c) :
    exec (.mrtest rs1) s = complete s (.error c) := by
  have e : mrtestOutcome rs1 s = .error c := by rw [mrtestOutcome, h]; rfl
  rw [exec, execMrtest, e]

/-! ## Empty operands (10_state.md R23; 60_exceptions.md R228 item 2) -/

theorem ntOperand_of_empty {s : State} {r : Reg} (h : regVal s r = []) : ntOperand s r = .error .empty := by
  rw [ntOperand, operand_of_empty h]; rfl

theorem ntOperands2_of_empty {s : State} {r1 r2 : Reg} (h : regVal s r1 = [] ∨ regVal s r2 = []) :
    ntOperands2 s r1 r2 = .error .empty := by
  by_cases h1 : regVal s r1 = []
  · rw [ntOperands2, operand_of_empty h1]; rfl
  · rw [ntOperands2, operand_of_ne h1, operand_of_empty (h.resolve_left h1)]; rfl

theorem ntOperands3_of_empty {s : State} {r1 r2 r3 : Reg}
    (h : regVal s r1 = [] ∨ regVal s r2 = [] ∨ regVal s r3 = []) : ntOperands3 s r1 r2 r3 = .error .empty := by
  by_cases h1 : regVal s r1 = []
  · rw [ntOperands3, operand_of_empty h1]; rfl
  by_cases h2 : regVal s r2 = []
  · rw [ntOperands3, operand_of_ne h1, operand_of_empty h2]; rfl
  · rw [ntOperands3, operand_of_ne h1, operand_of_ne h2,
      operand_of_empty ((h.resolve_left h1).resolve_left h2)]; rfl

/-- Every command with a source register reads its sources before all else. -/
theorem exec_of_empty_source {i : Instr} {s : State} (h : ∃ r ∈ sourcesOf i, regVal s r = []) :
    exec i s = complete s (.error .empty) := by
  cases i <;> simp only [sourcesOf, List.mem_cons, List.not_mem_nil, or_false, exists_eq_or_imp, exists_eq_left,
    false_and, exists_false] at h
  case mov rd a => exact complete_bind_error (operand_of_empty h) _
  case rdi a => exact complete_bind_error (ntOperand_of_empty h) _
  case rdw a k => exact complete_bind_error (operand_of_empty h) _
  case getbit a k => exact complete_bind_error (operand_of_empty h) _
  case ispow2 a => exact complete_bind_error (operand_of_empty h) _
  case lsb a => exact complete_bind_error (operand_of_empty h) _
  case add rd a b => exact complete_bind_error (operands2_of_empty h) _
  case addn rd a => exact complete_bind_error (operand_of_empty h) _
  case sub rd a b => exact complete_bind_error (operands2_of_empty h) _
  case mul rd a b => exact complete_bind_error (operands2_of_empty h) _
  case pow rd a b => exact complete_bind_error (operands2_of_empty h) _
  case shl rd a k => exact complete_bind_error (operand_of_empty h) _
  case shr rd a k => exact complete_bind_error (operand_of_empty h) _
  case gcd rd a b => exact complete_bind_error (ntOperands2_of_empty h) _
  case modexp rd a b c => exact complete_bind_error (ntOperands3_of_empty h) _
  case mrtest a => exact execMrtest_of_operand_error (ntOperand_of_empty h)
  case mrbase a b => exact complete_bind_error (ntOperands2_of_empty h) _
  case modinv rd a b => exact complete_bind_error (ntOperands2_of_empty h) _

/-- Settles O27: the E_EMPTY of the operands is the command's. -/
theorem emptyOperandRaises : Obligations.EmptyOperandRaises :=
  fun _ _ _ _ hr h => raises_of_error hr (exec_of_empty_source h)

/-! ## Wide operands (10_state.md R24; 42_number_theory.md R180; 60_exceptions.md R228 item 3) -/

theorem ntOperand_of_wide {s : State} {r : Reg} (h : regVal s r ≠ []) (hw : 2 ^ 64 ≤ bvVal (regVal s r)) :
    ntOperand s r = .error .overflow := by
  rw [ntOperand, operand_of_ne h]
  exact toInt64_of_ge hw

/-- Two values admitted in turn: a wide one among them raises E_OVERFLOW. -/
theorem toInt64_pair_of_wide {a b : BitVector} (h : 2 ^ 64 ≤ bvVal a ∨ 2 ^ 64 ≤ bvVal b) {α : Type}
    (f : Nat → Nat → Except ErrCode α) :
    (toInt64 a >>= fun x => toInt64 b >>= fun y => f x y) = .error .overflow := by
  rcases Nat.lt_or_ge (bvVal a) (2 ^ 64) with ha | ha
  · rw [toInt64_of_lt ha, toInt64_of_ge (h.resolve_left (Nat.not_le.mpr ha))]; rfl
  · rw [toInt64_of_ge ha]; rfl

theorem ntOperands2_of_wide {s : State} {r1 r2 : Reg} (h1 : regVal s r1 ≠ []) (h2 : regVal s r2 ≠ [])
    (h : 2 ^ 64 ≤ bvVal (regVal s r1) ∨ 2 ^ 64 ≤ bvVal (regVal s r2)) :
    ntOperands2 s r1 r2 = .error .overflow := by
  rw [ntOperands2, operand_of_ne h1, operand_of_ne h2]
  exact toInt64_pair_of_wide h _

theorem ntOperands3_of_wide {s : State} {r1 r2 r3 : Reg} (h1 : regVal s r1 ≠ []) (h2 : regVal s r2 ≠ [])
    (h3 : regVal s r3 ≠ [])
    (h : 2 ^ 64 ≤ bvVal (regVal s r1) ∨ 2 ^ 64 ≤ bvVal (regVal s r2) ∨ 2 ^ 64 ≤ bvVal (regVal s r3)) :
    ntOperands3 s r1 r2 r3 = .error .overflow := by
  rw [ntOperands3, operand_of_ne h1, operand_of_ne h2, operand_of_ne h3]
  change toInt64 (regVal s r1) >>= _ = _
  rcases Nat.lt_or_ge (bvVal (regVal s r1)) (2 ^ 64) with hx | hx
  · rw [toInt64_of_lt hx]
    exact toInt64_pair_of_wide (h.resolve_left (Nat.not_le.mpr hx)) _
  · rw [toInt64_of_ge hx]; rfl

/-- The six commands that read 64-bit operands check their range before their domain. -/
theorem exec_of_wide_source {i : Instr} {s : State} (hi : readsInt64 i = true) (hne : ∀ r ∈ sourcesOf i, regVal s r ≠ [])
    (h : ∃ r ∈ sourcesOf i, 2 ^ 64 ≤ bvVal (regVal s r)) : exec i s = complete s (.error .overflow) := by
  cases i <;> simp only [readsInt64, Bool.false_eq_true] at hi <;>
    simp only [sourcesOf, List.mem_cons, List.not_mem_nil, or_false, exists_eq_or_imp, exists_eq_left,
      forall_eq_or_imp, forall_eq] at h hne
  case rdi a => exact complete_bind_error (ntOperand_of_wide hne h) _
  case gcd rd a b => exact complete_bind_error (ntOperands2_of_wide hne.1 hne.2 h) _
  case modexp rd a b c =>
    obtain ⟨ha, hb, hc⟩ := hne
    exact complete_bind_error (ntOperands3_of_wide ha hb hc h) _
  case mrtest a => exact execMrtest_of_operand_error (ntOperand_of_wide hne h)
  case mrbase a b => exact complete_bind_error (ntOperands2_of_wide hne.1 hne.2 h) _
  case modinv rd a b => exact complete_bind_error (ntOperands2_of_wide hne.1 hne.2 h) _

/-- Settles O28: the E_OVERFLOW of the operands is the command's. -/
theorem wideOperandRaises : Obligations.WideOperandRaises :=
  fun _ _ _ _ hr hi hne h => raises_of_error hr (exec_of_wide_source hi hne h)

end Sys2Proof.Machine
end

section
/-! No command but CLR leaves its destination empty (10_state.md R21): each result has a bit, or the register keeps the bits it had. -/

namespace Sys2Proof.Machine

/-! ## Results are not empty -/

theorem bvAdd_ne_nil {a b : BitVector} (ha : a ≠ []) : bvAdd a b ≠ [] := by
  rw [← List.length_pos_iff] at ha ⊢
  rw [bvAdd_length]; omega

theorem bvSub_ne_nil {a b : BitVector} (ha : a ≠ []) : (bvSub a b).1 ≠ [] := by
  rw [← List.length_pos_iff] at ha ⊢
  rw [bvSub_length]; omega

theorem mulEgyptian_ne_nil {a b : BitVector} (ha : a ≠ []) : mulEgyptian a b ≠ [] := by
  rw [← List.length_pos_iff] at ha ⊢
  rw [mulEgyptian_length]; omega

theorem bvMul_ne_nil {mode : MulMode} {a b : BitVector} (ha : a ≠ []) : bvMul mode a b ≠ [] := by
  unfold bvMul
  split
  · cases mode <;> exact dec2bin_ne_nil _
  · exact mulEgyptian_ne_nil ha

theorem boundedMul_ne_nil {p : Params} {a b r : BitVector} (ha : a ≠ []) (h : boundedMul p a b = some r) : r ≠ [] := by
  simp only [boundedMul] at h
  split at h
  · cases h; exact bvMul_ne_nil ha
  · cases h

/-- The accumulator of R150 starts as `bv"1"` and every iteration keeps it or multiplies it. -/
theorem powLoop_ne_nil {p : Params} {fuel e : Nat} {acc base r : BitVector} (hacc : acc ≠ [])
    (h : powLoop p fuel acc base e = some r) : r ≠ [] := by
  induction fuel generalizing acc base e with
  | zero => cases h; exact hacc
  | succ fuel ih =>
    by_cases he : e = 0
    · rw [powLoop, if_pos he] at h
      cases h; exact hacc
    · rw [powLoop_succ he] at h
      obtain ⟨acc', hacc', h⟩ := Option.bind_eq_some_iff.mp h
      obtain ⟨base', -, h⟩ := Option.bind_eq_some_iff.mp h
      refine ih ?_ h
      split at hacc'
      · exact boundedMul_ne_nil hacc hacc'
      · cases hacc'; exact hacc

theorem bvPow_ne_nil {p : Params} {x r : BitVector} {n : Nat} (h : bvPow p x n = some r) : r ≠ [] :=
  powLoop_ne_nil (List.cons_ne_nil true []) h

theorem bvShl_ne_nil {a : BitVector} (k : Nat) (ha : a ≠ []) : bvShl a k ≠ [] :=
  List.append_ne_nil_of_right_ne_nil _ ha

theorem bvShr_ne_nil (a : BitVector) (k : Nat) : bvShr a k ≠ [] := by
  rw [← List.length_pos_iff, bvShr_length]
  split <;> omega

theorem zext_ne_nil {v : BitVector} {n : Nat} (hn : n ≠ 0) : zext v n ≠ [] := by
  rw [← List.length_pos_iff, zext_length]; omega

/-! ## The destination after a command -/

/-- Pseudocode that, where it does not raise, leaves register `rd` with a bit. -/
def Fills (rd : Reg) (r : Except ErrCode State) : Prop := ∀ s', r = .ok s' → regVal s' rd ≠ []

theorem fills_setReg (s : State) (rd : Reg) {v : BitVector} (hv : v ≠ []) : Fills rd (.ok (setReg s rd v)) := by
  rintro s' ⟨⟩
  rwa [regVal_setReg_self]

theorem fills_setBorrow {s : State} {rd : Reg} (h : Fills rd (.ok s)) (b : Bool) : Fills rd (.ok (setBorrow s b)) := by
  rintro s' ⟨⟩
  exact h s rfl

theorem fills_bind {rd : Reg} {α : Type} {x : Except ErrCode α} {f : α → Except ErrCode State}
    (hf : ∀ a, x = .ok a → Fills rd (f a)) : Fills rd (x >>= f) := by
  intro s' h
  obtain ⟨a, hx, ha⟩ := bind_eq_ok.mp h
  exact hf a hx s' ha

/-- An operand that was read is not empty. -/
theorem fills_operand {s : State} {rd r : Reg} {f : BitVector → Except ErrCode State}
    (hf : ∀ a, a ≠ [] → Fills rd (f a)) : Fills rd (operand s r >>= f) :=
  fills_bind fun a ha => hf a (operand_eq_ok.mp ha).2

theorem fills_operands2 {s : State} {rd r1 r2 : Reg} {f : BitVector × BitVector → Except ErrCode State}
    (hf : ∀ a b, a ≠ [] → Fills rd (f (a, b))) : Fills rd (operands2 s r1 r2 >>= f) := by
  refine fills_bind fun ab hab => ?_
  obtain ⟨rfl, h1, -⟩ := operands2_eq_ok.mp hab
  exact hf _ _ h1

theorem fills_bounded {s : State} {rd : Reg} {v : BitVector} (hv : v ≠ []) :
    Fills rd (bounded s v >>= fun r => .ok (setReg s rd r)) := by
  refine fills_bind fun r hr => ?_
  obtain ⟨rfl, -⟩ := bounded_eq_ok.mp hr
  exact fills_setReg s rd hv

/-- A register that has a bit to write keeps its length (40_bitvector.md R111, R112). -/
theorem fills_writeBit (s : State) (rd : Reg) (k : Nat) (b : Bool) : Fills rd (writeBit s rd k b) := by
  refine fills_bind fun _ hk => fills_setReg s rd ?_
  have hlt : k < (regVal s rd).length := by simpa using require_eq_ok.mp hk
  rw [← List.length_pos_iff, List.length_set]
  omega

/-- FILL grows the register or leaves it, and it was not empty or is to have a length that is not 0 (40_bitvector.md R109). -/
theorem fills_fill {s : State} {rd : Reg} {n : Nat} (h : n ≠ 0 ∨ regVal s rd ≠ []) :
    Fills rd (.ok (if n > (regVal s rd).length then setReg s rd (zext (regVal s rd) n) else s)) := by
  split
  · exact fills_setReg s rd (zext_ne_nil (by omega))
  · rintro s' ⟨⟩
    rw [← List.length_pos_iff] at h ⊢
    omega

/-- Every command with a destination, but CLR and a FILL #0 of an empty register, fills it unless it raises. -/
theorem exec_fills {i : Instr} {s : State} {rd : Reg} (hd : destOf i = some rd) (hclr : i ≠ .clr rd)
    (hfill : i ≠ .fill rd 0 ∨ regVal s rd ≠ []) : ∃ r, exec i s = complete s r ∧ Fills rd r := by
  cases i <;> cases hd
  case clr => exact absurd rfl hclr
  case mov rs1 => exact ⟨_, rfl, fills_operand fun _ => fills_setReg s rd⟩
  case wri => exact ⟨_, rfl, fills_setReg s rd (dec2bin_ne_nil _)⟩
  case fill n =>
    refine ⟨_, rfl, fills_bind fun _ _ => fills_fill (hfill.imp_left ?_)⟩
    rintro hne rfl
    exact hne rfl
  case setb k => exact ⟨_, rfl, fills_writeBit s rd k true⟩
  case clrb k => exact ⟨_, rfl, fills_writeBit s rd k false⟩
  case add rs1 rs2 => exact ⟨_, rfl, fills_operands2 fun _ _ ha => fills_bounded (bvAdd_ne_nil ha)⟩
  case addn rs1 => exact ⟨_, rfl, fills_operand fun _ ha => fills_bounded (bvAdd_ne_nil ha)⟩
  case sub rs1 rs2 =>
    exact ⟨_, rfl, fills_operands2 fun _ _ ha => fills_setBorrow (fills_setReg s rd (bvSub_ne_nil ha)) _⟩
  case mul rs1 rs2 => exact ⟨_, rfl, fills_operands2 fun _ _ ha => fills_bounded (bvMul_ne_nil ha)⟩
  case pow rs1 rs2 =>
    exact ⟨_, rfl, fills_operands2 fun _ _ _ => fills_bind fun _ hr =>
      fills_setReg s rd (bvPow_ne_nil (orRaise_eq_ok.mp hr))⟩
  case shl rs1 k =>
    exact ⟨_, rfl, fills_operand fun _ ha => fills_bind fun _ _ => fills_setReg s rd (bvShl_ne_nil k ha)⟩
  case shr rs1 k => exact ⟨_, rfl, fills_operand fun a _ => fills_setReg s rd (bvShr_ne_nil a k)⟩
  case gcd rs1 rs2 => exact ⟨_, rfl, fills_bind fun _ _ => fills_setReg s rd (dec2bin_ne_nil _)⟩
  case modexp rs1 rs2 rs3 =>
    exact ⟨_, rfl, fills_bind fun _ _ => fills_bind fun _ _ => fills_setReg s rd (dec2bin_ne_nil _)⟩
  case modinv rs1 rs2 =>
    exact ⟨_, rfl, fills_bind fun _ _ => fills_bind fun _ _ => fills_setReg s rd (dec2bin_ne_nil _)⟩

/-- A register that is not empty stays so under every command but its CLR, an error included. -/
theorem exec_keeps_nonempty {i : Instr} {s t : State} {r : Reg} (h : exec i s = .next t) (hs : regVal s r ≠ [])
    (hclr : i ≠ .clr r) : regVal t r ≠ [] := by
  by_cases hd : destOf i = some r
  · obtain ⟨x, he, hfills⟩ := exec_fills hd hclr (.inr hs)
    rw [he] at h
    rcases complete_cases s x with ⟨s', hok, e⟩ | ⟨c, -, e⟩ <;> rw [e] at h <;> cases h
    · rw [regVal_retire]; exact hfills s' hok
    · rwa [regVal_retire, regVal_enterError]
  · rwa [(inFrame_exec h).regs r hd]

/-- A command that ends with ERR = 0 has filled its destination. -/
theorem exec_fills_of_not_err {i : Instr} {s t : State} {r : Reg} (h : exec i s = .next t) (ht : t.err = false)
    (hd : destOf i = some r) (hclr : i ≠ .clr r) (hfill : i ≠ .fill r 0) : regVal t r ≠ [] := by
  obtain ⟨x, he, hfills⟩ := exec_fills hd hclr (.inl hfill)
  rw [he] at h
  rcases complete_cases s x with ⟨s', hok, e⟩ | ⟨c, -, e⟩ <;> rw [e] at h <;> cases h
  · rw [regVal_retire]; exact hfills s' hok
  · rw [retire_err, enterError_err] at ht; cases ht

/-- What a command that raises nothing writes does not depend on an error recorded before it (60_exceptions.md R227). -/
theorem exec_regs_of_clearedErr {i : Instr} {s t u : State} (ht : exec i s = .next t)
    (hu : exec i { s with err := false } = .next u) (herr : u.err = false) : t.regs = u.regs := by
  rcases exec_of_sameReads i s with ⟨r, hr⟩ | hwait
  · rw [hr s (sameOperands_refl s) rfl] at ht
    rw [hr { s with err := false } ⟨rfl, rfl, rfl⟩ rfl] at hu
    cases r with
    | error c =>
      cases hu
      rw [retire_err, enterError_err] at herr
      cases herr
    | ok w =>
      cases ht
      cases hu
      cases w <;> rfl
  · rw [hwait s (sameOperands_refl s) rfl] at ht
    rw [hwait { s with err := false } ⟨rfl, rfl, rfl⟩ rfl] at hu
    cases ht
    cases hu
    rfl

/-- Settles O26: an emptied register was cleared, and a command that raises nothing fills its destination. -/
theorem onlyClrEmptiesARegister : Obligations.OnlyClrEmptiesARegister := by
  refine ⟨regVal_reset, fun i s t r ht hs hempty => ?_, fun i s t u r ht hu herr hd hclr hfill => ?_⟩
  · by_contra hclr
    exact exec_keeps_nonempty ht hs hclr hempty
  · rw [regVal, exec_regs_of_clearedErr ht hu herr]
    exact exec_fills_of_not_err hu herr hd hclr hfill

end Sys2Proof.Machine
end

section
/-! SUB as a whole (10_state.md R27; 41_arithmetic.md R144, R145), and where a word of the RNG goes (10_state.md R33;
70_reset_and_hazards.md R252, R259). -/

namespace Sys2Proof.Machine

/-! ## SUB -/

/-- The closed form of R144. -/
theorem bvSub_eq (a b : BitVector) :
    bvSub a b =
      (bvn ((bvVal a + 2 ^ max a.length b.length - bvVal b) % 2 ^ max a.length b.length) (max a.length b.length),
        decide (bvVal a < bvVal b)) :=
  Prod.ext (eq_bvn (bvSub_length a b) (bvVal_bvSub a b)) (bvSub_borrow a b)

/-- Settles O43: with both operands loaded SUB writes the closed form of `bvSub` and its BORROW. -/
theorem subResult : Obligations.SubResult := by
  rintro s rd rs1 rs2 h1 h2 w rfl
  unfold Completes
  rw [exec, execSub, operands2_of_ne h1 h2]
  change complete s (.ok (setBorrow (setReg s rd (bvSub _ _).1) (bvSub _ _).2)) = _
  rw [bvSub_eq]
  rfl

/-! ## The RNG's word -/

/-- A word is wanted exactly by a pending MRTEST of an odd operand of 3 to 2^64 - 1 that has passed every round it has a word for, and
has rounds left. -/
theorem wantsWord_iff_round_left (s : State) :
    wantsWord s = true ↔
      ∃ c d rs1, Running s c d ∧ decode c = .ok (.mrtest rs1) ∧ regVal s rs1 ≠ [] ∧ bvVal (regVal s rs1) < 2 ^ 64 ∧
        3 ≤ bvVal (regVal s rs1) ∧ bvVal (regVal s rs1) % 2 = 1 ∧ s.rngWords.length < s.cfg.mrRounds ∧
        ∀ u ∈ s.rngWords, mrRound (bvVal (regVal s rs1)) (mrBaseOf u (bvVal (regVal s rs1))) = true := by
  rw [wantsWord_iff]
  constructor
  · rintro ⟨⟨c, d⟩, rs1, hp, hd, hnone⟩
    exact ⟨c, d, rs1, hp, hd, mrtestOutcome_eq_none_iff.mp hnone⟩
  · rintro ⟨c, d, rs1, hp, hd, hwaits⟩
    exact ⟨⟨c, d⟩, rs1, hp, hd, mrtestOutcome_eq_none_iff.mpr hwaits⟩

/-- What comes next from outside does not decide whether a word is wanted. -/
theorem wantsWord_inputs (s : State) (is : List Input) : wantsWord { s with inputs := is } = wantsWord s := rfl

theorem step_of_rngWord {s : State} {w : Word64} {rest : List Input} (hin : s.inputs = .rngWord w :: rest) :
    step s = .next (if wantsWord s then { s with inputs := rest, rngWords := s.rngWords ++ [w] }
      else { s with inputs := rest }) := by
  rw [step_of_input hin, react, deliver, wantsWord_inputs]

/-- Settles O59: the delivery's own test is that a round is left without a word. -/
theorem rngWordGoesOnlyToAWaitingMrtest : Obligations.RngWordGoesOnlyToAWaitingMrtest := by
  intro s w rest hin
  rw [← wantsWord_iff_round_left, step_of_rngWord hin]
  exact ⟨fun h => by rw [if_pos h], fun h => by rw [if_neg h]⟩

end Sys2Proof.Machine
end

section
/-! What an access of the host comes to, wherever it lies (20_memory.md R50, R51, R56; 10_state.md R31 to R38; 60_exceptions.md R233): a bus
error, the read or write of one window register, or the fault that is the only way a step stops (log entry 5). -/

namespace Sys2Proof.Machine

/-! ## Which access is admitted, and which refused (20_memory.md R51) -/

theorem touchesWindow_iff {p : Params} {addr width : Nat} :
    touchesWindow p addr width = true ↔ addr < p.base + 64 ∧ p.base < addr + width := by
  simp [touchesWindow]

theorem windowRegAt_of_aligned {p : Params} {addr width : Nat} (ht : touchesWindow p addr width = true) (hle : p.base ≤ addr)
    (hal : (addr - p.base) % 8 = 0) : ∃ r, windowRegAt (addr - p.base) = some r := by
  obtain ⟨hend, -⟩ := touchesWindow_iff.mp ht
  exact (windowRegAt_isSome_iff _).mpr ⟨by omega, hal⟩

/-- An access that touches the window is refused unless it has 8 bytes and an offset that is a multiple of 8. -/
theorem selectAccess_refused {p : Params} {addr width : Nat} (ht : touchesWindow p addr width = true)
    (h : ¬ (width = 8 ∧ p.base ≤ addr ∧ (addr - p.base) % 8 = 0)) : selectAccess p addr width = .refused := by
  rw [selectAccess, if_pos ht]
  split
  case isFalse => rfl
  case isTrue hw =>
    obtain ⟨hwidth, hle⟩ := hw
    cases hr : windowRegAt (addr - p.base) with
    | none => rfl
    | some r =>
      obtain ⟨-, hal⟩ := (windowRegAt_isSome_iff _).mp ⟨r, hr⟩
      exact absurd ⟨hwidth, hle, hal⟩ h

theorem step_of_hostRead_refused {s : State} {addr width : Nat} {rest : List Input}
    (hsel : selectAccess s.cfg addr width = .refused) (hin : s.inputs = .hostRead addr width :: rest) :
    step s = .next { s with inputs := rest, reply := some .busError } := by
  rw [step_of_input hin]
  simp only [react, hostReads, hsel]

theorem step_of_hostWrite_refused {s : State} {addr width : Nat} {v : Word64} {rest : List Input}
    (hsel : selectAccess s.cfg addr width = .refused) (hin : s.inputs = .hostWrite addr width v :: rest) :
    step s = .next { s with inputs := rest, reply := some .busError } := by
  rw [step_of_input hin]
  simp only [react, hostWrites, hsel]

/-- Settles O21: an aligned 8-byte access is one at its register's offset, and every other that touches the window is refused. -/
theorem onlyAlignedEightByteAccesses : Obligations.OnlyAlignedEightByteAccesses := by
  intro s addr width ht
  constructor
  · rintro ⟨rfl, hle, hal⟩
    obtain ⟨r, hr⟩ := windowRegAt_of_aligned ht hle hal
    have haddr : s.cfg.base + (addr - s.cfg.base) = addr := Nat.add_sub_cancel' hle
    exact ⟨r, hr, fun rest hin => step_of_hostRead_at hr (haddr.symm ▸ hin),
      fun v rest hin => step_of_hostWrite_at hr (haddr.symm ▸ hin)⟩
  · intro hother
    have hsel := selectAccess_refused ht hother
    exact ⟨fun rest hin => step_of_hostRead_refused hsel hin, fun v rest hin => step_of_hostWrite_refused hsel hin⟩

/-! ## The only stop (20_memory.md R50, R58; log entry 5) -/

theorem hostReads_stops_only_outside (s : State) (addr width : Nat) :
    (∃ t, hostReads s addr width = .next t) ∨
      (hostReads s addr width = .fault .outsideWindow ∧ touchesWindow s.cfg addr width = false) := by
  unfold hostReads
  cases hsel : selectAccess s.cfg addr width with
  | outside => exact .inr ⟨rfl, selectAccess_outside_iff.mp hsel⟩
  | refused => exact .inl ⟨_, rfl⟩
  | admits r => exact .inl ⟨_, rfl⟩

theorem hostWrites_stops_only_outside (s : State) (addr width : Nat) (v : Word64) :
    (∃ t, hostWrites s addr width v = .next t) ∨
      (hostWrites s addr width v = .fault .outsideWindow ∧ touchesWindow s.cfg addr width = false) := by
  unfold hostWrites
  cases hsel : selectAccess s.cfg addr width with
  | outside => exact .inr ⟨rfl, selectAccess_outside_iff.mp hsel⟩
  | refused => exact .inl ⟨_, rfl⟩
  | admits r => exact .inl ⟨_, rfl⟩

/-- Settles O9, by the agent that moves: the unit, the RNG and the hardware reset always answer a next state, and an access of the host
unless it lies outside the window. -/
theorem stepStopsOnlyOutsideWindow : Obligations.StepStopsOnlyOutsideWindow := by
  intro s
  cases hin : s.inputs with
  | nil =>
    rw [step_of_no_input hin]
    exact .inl (completionStep_answers_next s)
  | cons i rest =>
    rw [step_of_input hin]
    cases i with
    | hostRead addr width =>
      exact (hostReads_stops_only_outside { s with inputs := rest } addr width).imp_right fun ⟨hfault, hout⟩ =>
        ⟨hfault, addr, width, rest, hout, .inl rfl⟩
    | hostWrite addr width v =>
      exact (hostWrites_stops_only_outside { s with inputs := rest } addr width v).imp_right fun ⟨hfault, hout⟩ =>
        ⟨hfault, addr, width, rest, hout, .inr ⟨v, rfl⟩⟩
    | unitTurn => exact .inl (completionStep_answers_next _)
    | rngWord w => exact .inl ⟨_, rfl⟩
    | hwReset => exact .inl ⟨_, rfl⟩

/-! ## What each offset stores and reads (20_memory.md R56; 10_state.md R31, R32, R34 to R36, R38) -/

/-- ERRINFO's upper half reads 0 (10_state.md R36). -/
theorem errInfoWord_eq_append (s : State) : errInfoWord s = 0#32 ++ s.errInfo :=
  BitVec.setWidth_eq_append (by decide)

/-- CONFIG, STATUS, DATA_OUT, ERRINFO and offset 0x38 ignore a write. -/
theorem writeWindow_ignored_at {off : Nat} (h : off ∈ [0x00, 0x10, 0x28, 0x30, 0x38]) :
    ∃ r, windowRegAt off = some r ∧ ∀ s v, writeWindow s v r = s := by
  simp only [List.mem_cons, List.not_mem_nil, or_false] at h
  obtain rfl | rfl | rfl | rfl | rfl := h
  · exact ⟨.config, rfl, fun _ _ => rfl⟩
  · exact ⟨.status, rfl, fun _ _ => rfl⟩
  · exact ⟨.dataOut, rfl, fun _ _ => rfl⟩
  · exact ⟨.errInfo, rfl, fun _ _ => rfl⟩
  · exact ⟨.reserved, rfl, fun _ _ => rfl⟩

/-- What the host reads at each offset but those of CONFIG and STATUS. -/
theorem readWindow_at {s : State} {off : Nat} {val : Word64}
    (h : (off, val) ∈ [(0x08, 0#64), (0x18, 0#64), (0x20, s.dataIn), (0x28, s.dataOut), (0x30, 0#32 ++ s.errInfo), (0x38, 0#64)]) :
    ∃ r, windowRegAt off = some r ∧ readWindow s r = val := by
  simp only [List.mem_cons, List.not_mem_nil, or_false, Prod.mk.injEq] at h
  obtain ⟨rfl, rfl⟩ | ⟨rfl, rfl⟩ | ⟨rfl, rfl⟩ | ⟨rfl, rfl⟩ | ⟨rfl, rfl⟩ | ⟨rfl, rfl⟩ := h
  · exact ⟨.ctrl, rfl, rfl⟩
  · exact ⟨.cmd, rfl, rfl⟩
  · exact ⟨.dataIn, rfl, rfl⟩
  · exact ⟨.dataOut, rfl, rfl⟩
  · exact ⟨.errInfo, rfl, errInfoWord_eq_append s⟩
  · exact ⟨.reserved, rfl, rfl⟩

theorem step_of_ignored_hostWrite {s : State} {off : Nat} {v : Word64} {rest : List Input}
    (hoff : off ∈ [0x00, 0x10, 0x28, 0x30, 0x38]) (hin : s.inputs = .hostWrite (s.cfg.base + off) 8 v :: rest) :
    step s = .next { s with inputs := rest, reply := some .written } := by
  obtain ⟨r, hr, hignored⟩ := writeWindow_ignored_at hoff
  rw [step_of_hostWrite_at hr hin, hignored]

/-- Settles O22: the register functions by their equations, and the accesses by the register at each offset. -/
theorem windowStoresOnlyDataIn : Obligations.WindowStoresOnlyDataIn := by
  intro s v
  refine ⟨rfl, rfl, rfl, rfl, rfl, rfl, rfl, rfl, rfl, rfl, fun rest hin => ?stores, fun off hoff rest hin => ?ignores,
    fun off val hval rest hin => ?reads⟩
  case stores => exact ⟨_, step_of_hostWrite_at (r := .dataIn) rfl hin⟩
  case ignores => exact ⟨_, step_of_ignored_hostWrite hoff hin⟩
  case reads =>
    obtain ⟨r, hr, rfl⟩ := readWindow_at hval
    exact step_of_hostRead_at hr hin

end Sys2Proof.Machine
end

section
/-! Encoding and decoding are inverse to each other (30_encoding.md R71 to R75, R78, R81). A word is laid out in format R or I exactly when
its fields have the values laid out, and the fields a command must keep 0 are themselves operand fields. -/

namespace Sys2Proof

/-! ## The fields that must be 0 (R75), as operand fields -/

theorem zeroField_rd (w : CmdWord) : zeroField w 22 4 = true ↔ rdOf w = 0 := by
  rw [zeroField_iff, Fin.ext_iff, rdOf_val]; rfl

theorem zeroField_rs1 (w : CmdWord) : zeroField w 18 4 = true ↔ rs1Of w = 0 := by
  rw [zeroField_iff, Fin.ext_iff, rs1Of_val]; rfl

theorem zeroField_low14 (w : CmdWord) : zeroField w 0 14 = true ↔ rs3Of w = 0 ∧ zeroField w 0 10 = true := by
  rw [zeroField_iff, zeroField_iff, Fin.ext_iff, rs3Of_val, Fin.val_zero]; omega

theorem zeroField_low18 (w : CmdWord) : zeroField w 0 18 = true ↔ rs2Of w = 0 ∧ zeroField w 0 14 = true := by
  rw [zeroField_iff, zeroField_iff, Fin.ext_iff, rs2Of_val, Fin.val_zero]; omega

theorem zeroField_low22 (w : CmdWord) : zeroField w 0 22 = true ↔ rs1Of w = 0 ∧ zeroField w 0 18 = true := by
  rw [zeroField_iff, zeroField_iff, Fin.ext_iff, rs1Of_val, Fin.val_zero]; omega

/-! ## A word in a format -/

/-- Format R (R72). -/
theorem formatR_eq_iff {op : BitVec 6} {rd rs1 rs2 rs3 : Reg} (w : CmdWord) :
    formatR op rd rs1 rs2 rs3 = w ↔
      opOf w = op ∧ rdOf w = rd ∧ rs1Of w = rs1 ∧ rs2Of w = rs2 ∧ rs3Of w = rs3 ∧ zeroField w 0 10 = true := by
  rw [← BitVec.toNat_inj, formatR_toNat, ← BitVec.toNat_inj, opOf_toNat, zeroField_iff]
  simp only [Fin.ext_iff, rdOf_val, rs1Of_val, rs2Of_val, rs3Of_val]
  omega

theorem immFits_immOf (w : CmdWord) : immFits (immOf w) = true := by
  rw [immFits, decide_eq_true_iff, immOf_eq]
  exact Nat.mod_lt _ (by decide)

/-- Format I (R73), which holds the immediates of R74. -/
theorem formatI_eq_iff {op : BitVec 6} {rd rs1 : Reg} {imm : Nat} {w : CmdWord} (himm : immFits imm = true) :
    formatI op rd rs1 imm = w ↔ opOf w = op ∧ rdOf w = rd ∧ rs1Of w = rs1 ∧ immOf w = imm := by
  rw [immFits, decide_eq_true_iff] at himm
  rw [← BitVec.toNat_inj, formatI_toNat, ← BitVec.toNat_inj, opOf_toNat, immOf_eq]
  simp only [Fin.ext_iff, rdOf_val, rs1Of_val]
  omega

/-! ## The round trips on command words -/

theorem decodeWord_encode {i : Instr} (h : i.wellFormed = true) : decodeWord (encode i) = .ok i := by
  obtain ⟨w, hw⟩ : ∃ w, encode i = w := ⟨_, rfl⟩
  rw [hw]
  cases i with
  | rdw rs1 n | fill rd n | getbit rs1 n | setb rd n | clrb rd n | shl rd rs1 n | shr rd rs1 n =>
    obtain ⟨hop, hrd, hrs1, himm⟩ := (formatI_eq_iff h).mp hw
    simp [decodeWord, hop, ifZero, zeroField_rd, zeroField_rs1, hrd, hrs1, himm]
  | _ =>
    obtain ⟨hop, hrd, hrs1, hrs2, hrs3, hlow⟩ := (formatR_eq_iff w).mp hw
    simp [decodeWord, hop, ifZero, zeroField_rd, zeroField_low22, zeroField_low18, zeroField_low14, hrd, hrs1, hrs2, hrs3, hlow]

/-- A word decodes only where its opcode's arm of R75 finds the unused fields 0, and there it is the encoding. Arms 18 and 19 are SHL and
SHR, which use every field; the last arm is that of the reserved opcodes. -/
theorem encode_of_decodeWord {w : CmdWord} {i : Instr} (h : decodeWord w = .ok i) : i.wellFormed = true ∧ encode i = w := by
  unfold decodeWord at h
  split at h
  case h_25 => cases h
  case h_18 hop | h_19 hop =>
    cases h
    exact ⟨immFits_immOf w, (formatI_eq_iff (immFits_immOf w)).mpr ⟨hop, rfl, rfl, rfl⟩⟩
  all_goals
    next hop =>
    obtain ⟨hzero, rfl⟩ := ifZero_eq_ok.mp h
    simpa [encode, Instr.wellFormed, immFits_immOf, formatR_eq_iff, formatI_eq_iff, hop, zeroField_rd, zeroField_rs1,
      zeroField_low22, zeroField_low18, zeroField_low14] using hzero

/-! ## The round trips on CMD values -/

/-- Only a CMD value with bits 63:32 zero decodes (R77), and it is its own command word zero-extended. -/
theorem decode_eq_ok_iff {c : Word64} {i : Instr} :
    decode c = .ok i ↔ c.extractLsb' 32 32 = 0#32 ∧ decodeWord (commandWordOf c) = .ok i := by
  by_cases h : c.extractLsb' 32 32 = 0#32 <;> simp [decode, h]

theorem setWidth_commandWordOf {c : Word64} (h : c.extractLsb' 32 32 = 0#32) : (commandWordOf c).setWidth 64 = c := by
  have hupper : c.toNat / 2 ^ 32 % 2 ^ 32 = 0 := (Machine.extractLsb'_eq_iff c 32 0#32).mp h
  have hlt := c.isLt
  apply BitVec.eq_of_toNat_eq
  rw [BitVec.toNat_setWidth, commandWordOf, BitVec.extractLsb'_toNat, Nat.shiftRight_zero]
  omega

/-- Settles O1: a word in a command's format has that command's fields, which is all the decoder asks. -/
theorem decodeInvertsEncode : Obligations.DecodeInvertsEncode := by
  intro i hwf
  rw [decode_encodeCmd, decodeWord_encode hwf]

/-- Settles O2: the fields the decoder reads and those it finds 0 are the whole word, and bits 63:32 are 0. -/
theorem encodeInvertsDecode : Obligations.EncodeInvertsDecode := by
  intro c i h
  obtain ⟨hupper, hword⟩ := decode_eq_ok_iff.mp h
  obtain ⟨hwf, henc⟩ := encode_of_decodeWord hword
  exact ⟨hwf, by rw [encodeCmd, henc, setWidth_commandWordOf hupper]⟩

end Sys2Proof
end

section
/-! The decoder and the match and mask values of the opcode table (30_encoding.md R75, R78): a word that matches a row is the encoding of a
command of that row, and each encoding matches its own row. -/

namespace Sys2Proof

/-! ## What a match says of the word, field by field -/

theorem extractLsb'_of_masked {w m p : CmdWord} (h : w &&& m = p) (lo n : Nat) (hm : m.extractLsb' lo n = BitVec.allOnes n) :
    w.extractLsb' lo n = p.extractLsb' lo n := by
  rw [← h, BitVec.extractLsb'_and, hm, BitVec.and_allOnes]

section
variable {w m : CmdWord} {op : BitVec 6} (h : w &&& m = op ++ 0#26)
include h

theorem opOf_of_masked (hm : m.extractLsb' 26 6 = BitVec.allOnes 6) : opOf w = op := by
  rw [opOf, extractLsb'_of_masked h 26 6 hm, Machine.extractLsb'_eq_iff, append_toNat]
  have hop := op.isLt
  have hzero : (0#26).toNat = 0 := rfl
  omega

theorem zeroField_of_masked {lo n : Nat} (hlo : lo + n ≤ 26) (hm : m.extractLsb' lo n = BitVec.allOnes n) :
    zeroField w lo n = true := by
  rw [zeroField, beq_iff_eq, extractLsb'_of_masked h lo n hm]
  apply BitVec.eq_of_getLsbD_eq
  intro i hi
  have happend : (op ++ 0#26).getLsbD (lo + i) = false := by
    rw [BitVec.getLsbD_append, if_pos (by omega), BitVec.getLsbD_zero]
  rw [BitVec.getLsbD_extractLsb', BitVec.getLsbD_zero, happend, Bool.and_false]

end

/-! ## The nine sets of fields a command can use (R75), named as in `fields_d` to `fields_d1i`: a match makes the word the format of its
own fields -/

section
variable {w : CmdWord} {op : BitVec 6}

theorem format_eq_of_masked_d (h : w &&& 0xFC3FFFFF#32 = op ++ 0#26) : formatR op (rdOf w) 0 0 0 = w := by
  have hzero := zeroField_of_masked (lo := 0) (n := 22) h (by decide) rfl
  simp only [zeroField_low22, zeroField_low18, zeroField_low14] at hzero
  exact (formatR_eq_iff w).mpr ⟨opOf_of_masked h rfl, rfl, hzero⟩

theorem format_eq_of_masked_d1 (h : w &&& 0xFC03FFFF#32 = op ++ 0#26) : formatR op (rdOf w) (rs1Of w) 0 0 = w := by
  have hzero := zeroField_of_masked (lo := 0) (n := 18) h (by decide) rfl
  simp only [zeroField_low18, zeroField_low14] at hzero
  exact (formatR_eq_iff w).mpr ⟨opOf_of_masked h rfl, rfl, rfl, hzero⟩

theorem format_eq_of_masked_s1 (h : w &&& 0xFFC3FFFF#32 = op ++ 0#26) : formatR op 0 (rs1Of w) 0 0 = w := by
  have hrd := (zeroField_rd w).mp (zeroField_of_masked h (by decide) rfl)
  have hzero := zeroField_of_masked (lo := 0) (n := 18) h (by decide) rfl
  simp only [zeroField_low18, zeroField_low14] at hzero
  exact (formatR_eq_iff w).mpr ⟨opOf_of_masked h rfl, hrd, rfl, hzero⟩

theorem format_eq_of_masked_d12 (h : w &&& 0xFC003FFF#32 = op ++ 0#26) : formatR op (rdOf w) (rs1Of w) (rs2Of w) 0 = w := by
  have hzero := (zeroField_low14 w).mp (zeroField_of_masked h (by decide) rfl)
  exact (formatR_eq_iff w).mpr ⟨opOf_of_masked h rfl, rfl, rfl, rfl, hzero⟩

theorem format_eq_of_masked_d123 (h : w &&& 0xFC0003FF#32 = op ++ 0#26) :
    formatR op (rdOf w) (rs1Of w) (rs2Of w) (rs3Of w) = w :=
  (formatR_eq_iff w).mpr ⟨opOf_of_masked h rfl, rfl, rfl, rfl, rfl, zeroField_of_masked h (by decide) rfl⟩

theorem format_eq_of_masked_s12 (h : w &&& 0xFFC03FFF#32 = op ++ 0#26) : formatR op 0 (rs1Of w) (rs2Of w) 0 = w := by
  have hrd := (zeroField_rd w).mp (zeroField_of_masked h (by decide) rfl)
  have hzero := (zeroField_low14 w).mp (zeroField_of_masked h (by decide) rfl)
  exact (formatR_eq_iff w).mpr ⟨opOf_of_masked h rfl, hrd, rfl, rfl, hzero⟩

theorem format_eq_of_masked_s1i (h : w &&& 0xFFC00000#32 = op ++ 0#26) : formatI op 0 (rs1Of w) (immOf w) = w := by
  have hrd := (zeroField_rd w).mp (zeroField_of_masked h (by decide) rfl)
  exact (formatI_eq_iff (immFits_immOf w)).mpr ⟨opOf_of_masked h rfl, hrd, rfl, rfl⟩

theorem format_eq_of_masked_di (h : w &&& 0xFC3C0000#32 = op ++ 0#26) : formatI op (rdOf w) 0 (immOf w) = w := by
  have hrs1 := (zeroField_rs1 w).mp (zeroField_of_masked h (by decide) rfl)
  exact (formatI_eq_iff (immFits_immOf w)).mpr ⟨opOf_of_masked h rfl, rfl, hrs1, rfl⟩

theorem format_eq_of_masked_d1i (h : w &&& 0xFC000000#32 = op ++ 0#26) : formatI op (rdOf w) (rs1Of w) (immOf w) = w :=
  (formatI_eq_iff (immFits_immOf w)).mpr ⟨opOf_of_masked h rfl, rfl, rfl, rfl⟩

end

/-! ## Rows and encodings -/

/-- A word that matches a row is the encoding of a command with the row's mnemonic. -/
theorem exists_encode_of_rowMatches (w : CmdWord) : ∀ row ∈ opcodeTable, rowMatches row w = true →
    ∃ i : Instr, i.wellFormed = true ∧ i.mnemonic = row.mnemonic ∧ encode i = w := by
  simp only [opcodeTable, List.forall_mem_cons, rowMatches, beq_iff_eq]
  exact ⟨
    fun h => ⟨.clr _, rfl, rfl, format_eq_of_masked_d h⟩,
    fun h => ⟨.mov _ _, rfl, rfl, format_eq_of_masked_d1 h⟩,
    fun h => ⟨.wri _, rfl, rfl, format_eq_of_masked_d h⟩,
    fun h => ⟨.rdi _, rfl, rfl, format_eq_of_masked_s1 h⟩,
    fun h => ⟨.rdw _ _, immFits_immOf w, rfl, format_eq_of_masked_s1i h⟩,
    fun h => ⟨.rdlen _, rfl, rfl, format_eq_of_masked_s1 h⟩,
    fun h => ⟨.fill _ _, immFits_immOf w, rfl, format_eq_of_masked_di h⟩,
    fun h => ⟨.getbit _ _, immFits_immOf w, rfl, format_eq_of_masked_s1i h⟩,
    fun h => ⟨.setb _ _, immFits_immOf w, rfl, format_eq_of_masked_di h⟩,
    fun h => ⟨.clrb _ _, immFits_immOf w, rfl, format_eq_of_masked_di h⟩,
    fun h => ⟨.ispow2 _, rfl, rfl, format_eq_of_masked_s1 h⟩,
    fun h => ⟨.lsb _, rfl, rfl, format_eq_of_masked_s1 h⟩,
    fun h => ⟨.add _ _ _, rfl, rfl, format_eq_of_masked_d12 h⟩,
    fun h => ⟨.addn _ _, rfl, rfl, format_eq_of_masked_d1 h⟩,
    fun h => ⟨.sub _ _ _, rfl, rfl, format_eq_of_masked_d12 h⟩,
    fun h => ⟨.mul _ _ _, rfl, rfl, format_eq_of_masked_d12 h⟩,
    fun h => ⟨.pow _ _ _, rfl, rfl, format_eq_of_masked_d12 h⟩,
    fun h => ⟨.shl _ _ _, immFits_immOf w, rfl, format_eq_of_masked_d1i h⟩,
    fun h => ⟨.shr _ _ _, immFits_immOf w, rfl, format_eq_of_masked_d1i h⟩,
    fun h => ⟨.gcd _ _ _, rfl, rfl, format_eq_of_masked_d12 h⟩,
    fun h => ⟨.modexp _ _ _ _, rfl, rfl, format_eq_of_masked_d123 h⟩,
    fun h => ⟨.mrtest _, rfl, rfl, format_eq_of_masked_s1 h⟩,
    fun h => ⟨.mrbase _ _, rfl, rfl, format_eq_of_masked_s12 h⟩,
    fun h => ⟨.modinv _ _ _, rfl, rfl, format_eq_of_masked_d12 h⟩,
    List.forall_mem_nil _⟩

/-- The family of `Laws.TableRow` as one fact. -/
theorem rowMatches_encode : ∀ i : Instr, Laws.TableRow.Statement i
  | .clr rd => Laws.TableRow.clr rd
  | .mov rd rs1 => Laws.TableRow.mov rd rs1
  | .wri rd => Laws.TableRow.wri rd
  | .rdi rs1 => Laws.TableRow.rdi rs1
  | .rdw rs1 imm => Laws.TableRow.rdw rs1 imm
  | .rdlen rs1 => Laws.TableRow.rdlen rs1
  | .fill rd imm => Laws.TableRow.fill rd imm
  | .getbit rs1 imm => Laws.TableRow.getbit rs1 imm
  | .setb rd imm => Laws.TableRow.setb rd imm
  | .clrb rd imm => Laws.TableRow.clrb rd imm
  | .ispow2 rs1 => Laws.TableRow.ispow2 rs1
  | .lsb rs1 => Laws.TableRow.lsb rs1
  | .add rd rs1 rs2 => Laws.TableRow.add rd rs1 rs2
  | .addn rd rs1 => Laws.TableRow.addn rd rs1
  | .sub rd rs1 rs2 => Laws.TableRow.sub rd rs1 rs2
  | .mul rd rs1 rs2 => Laws.TableRow.mul rd rs1 rs2
  | .pow rd rs1 rs2 => Laws.TableRow.pow rd rs1 rs2
  | .shl rd rs1 imm => Laws.TableRow.shl rd rs1 imm
  | .shr rd rs1 imm => Laws.TableRow.shr rd rs1 imm
  | .gcd rd rs1 rs2 => Laws.TableRow.gcd rd rs1 rs2
  | .modexp rd rs1 rs2 rs3 => Laws.TableRow.modexp rd rs1 rs2 rs3
  | .mrtest rs1 => Laws.TableRow.mrtest rs1
  | .mrbase rs1 rs2 => Laws.TableRow.mrbase rs1 rs2
  | .modinv rd rs1 rs2 => Laws.TableRow.modinv rd rs1 rs2

/-- Every command has a row. -/
theorem exists_row_of_mnemonic (i : Instr) : ∃ row ∈ opcodeTable, row.mnemonic = i.mnemonic := by
  cases i <;> (simp only [Instr.mnemonic]; decide)

/-- No two rows share a mnemonic. -/
theorem row_eq_of_mnemonic_eq : ∀ row ∈ opcodeTable, ∀ row' ∈ opcodeTable, row.mnemonic = row'.mnemonic → row = row' := by
  decide

theorem decodeWord_of_rowMatches {w : CmdWord} {row : OpcodeRow} (hrow : row ∈ opcodeTable) (h : rowMatches row w = true) :
    ∃ i, decodeWord w = .ok i ∧ i.mnemonic = row.mnemonic := by
  obtain ⟨i, hwf, hname, rfl⟩ := exists_encode_of_rowMatches w row hrow h
  exact ⟨i, decodeWord_encode hwf, hname⟩

theorem exists_rowMatches_of_decodeWord {w : CmdWord} {i : Instr} (h : decodeWord w = .ok i) :
    ∃ row ∈ opcodeTable, rowMatches row w = true := by
  obtain ⟨row, hrow, hname⟩ := exists_row_of_mnemonic i
  obtain ⟨-, rfl⟩ := encode_of_decodeWord h
  exact ⟨row, hrow, rowMatches_encode i row hrow hname⟩

theorem row_unique {w : CmdWord} {row row' : OpcodeRow} (hrow : row ∈ opcodeTable) (hrow' : row' ∈ opcodeTable)
    (h : rowMatches row w = true) (h' : rowMatches row' w = true) : row = row' := by
  obtain ⟨i, hi, hname⟩ := decodeWord_of_rowMatches hrow h
  obtain ⟨j, hj, hname'⟩ := decodeWord_of_rowMatches hrow' h'
  obtain rfl : i = j := Except.ok.inj (hi.symm.trans hj)
  exact row_eq_of_mnemonic_eq row hrow row' hrow' (hname.symm.trans hname')

/-- Settles O3: matching a row and decoding to a command of its mnemonic are the same thing, and mnemonics tell the rows apart. -/
theorem decodeFollowsOpcodeTable : Obligations.DecodeFollowsOpcodeTable := by
  intro c
  refine ⟨fun hupper => by simp [decode, hupper], fun hupper => ?_⟩
  have hdecode : decode c = decodeWord (commandWordOf c) := by simp [decode, hupper]
  rw [hdecode]
  refine ⟨fun row hrow h => decodeWord_of_rowMatches hrow h, fun hnone => ?noRow,
    fun row hrow row' hrow' h h' => row_unique hrow hrow' h h'⟩
  case noRow =>
    cases hd : decodeWord (commandWordOf c) with
    | error e => exact ⟨e, rfl⟩
    | ok i =>
      obtain ⟨row, hrow, h⟩ := exists_rowMatches_of_decodeWord hd
      exact absurd h (by simp [hnone row hrow])

end Sys2Proof
end


section
/-! The assigned and the reserved opcodes, what an ILLEGAL command does, and the unit's turn on a command that decodes (30_encoding.md
R76 to R78; 60_exceptions.md R222, R224; 70_reset_and_hazards.md R256). -/

namespace Sys2Proof

/-! ## Assigned and reserved opcodes (R76) -/

/-- The 24 assigned opcodes, as `Obligations.OnlyAssignedOpcodesDecode` writes them out. -/
def IsAssigned (op : BitVec 6) : Prop :=
  0x01 ≤ op.toNat ∧ op.toNat ≤ 0x0C ∨ 0x10 ≤ op.toNat ∧ op.toNat ≤ 0x16 ∨ 0x20 ≤ op.toNat ∧ op.toNat ≤ 0x24

/-- With an assigned opcode the word whose other bits are all 0 decodes. -/
theorem exists_decodeWord_of_assigned {op : BitVec 6} (h : IsAssigned op) : ∃ w i, opOf w = op ∧ decodeWord w = .ok i := by
  have assigned : ∀ op : BitVec 6, IsAssigned op → opOf (op ++ 0#26) = op ∧ (decodeWord (op ++ 0#26)).isOk = true := by
    unfold IsAssigned
    decide
  obtain ⟨hop, hok⟩ := assigned op h
  cases hd : decodeWord (op ++ 0#26) with
  | ok i => exact ⟨op ++ 0#26, i, hop, hd⟩
  | error e => rw [hd] at hok; cases hok

theorem isAssigned_of_decodeWord {w : CmdWord} {i : Instr} (h : decodeWord w = .ok i) : IsAssigned (opOf w) := by
  obtain ⟨-, rfl⟩ := encode_of_decodeWord h
  cases i <;> simp [encode, IsAssigned]

/-- A reserved opcode makes every CMD value ILLEGAL, bits 63:32 zero or not. -/
theorem decode_of_reserved {c : Word64} (h : ¬ IsAssigned (opOf (commandWordOf c))) : ∃ e, decode c = .error e := by
  cases hd : decode c with
  | error e => exact ⟨e, rfl⟩
  | ok i => exact absurd (isAssigned_of_decodeWord (decode_eq_ok_iff.mp hd).2) h

namespace Machine

/-! ## An ILLEGAL command (R77) -/

/-- The error a pending command takes, as the statements write it. -/
theorem complete_error_of_running {s : State} {c d : Word64} (hr : Running s c d) (e : ErrCode) :
    complete s (.error e) =
      .next { withError s (errNumber e) (c.extractLsb' 0 32) with pending := none, rngWords := [] } := by
  rw [complete_error, pendingWord_of_pending hr]
  cases hs : s.err <;> simp [enterError, withError, retire, hs]

theorem completionStep_raises_illegal {s : State} {c d : Word64} (hr : Running s c d) (hd : ∃ e, decode c = .error e) :
    completionStep s = .next { withError s 1#4 (c.extractLsb' 0 32) with pending := none, rngWords := [] } := by
  obtain ⟨e, hd⟩ := hd
  rw [completionStep_of_illegal hr hd, complete_error_of_running hr]
  rfl

/-- Settles O6: a CMD value with a bit of 63:32 set is one the decoder refuses. -/
theorem illegalCommandRaises : Obligations.IllegalCommandRaises := by
  intro s c d hr hillegal
  refine completionStep_raises_illegal hr ?_
  rcases hillegal with hupper | hrefused
  · exact ⟨.upperBits, by simp [decode, hupper]⟩
  · exact hrefused

/-- Settles O5: what decodes is an encoding, whose opcode is assigned, so a reserved opcode is ILLEGAL. -/
theorem onlyAssignedOpcodesDecode : Obligations.OnlyAssignedOpcodesDecode := by
  intro op
  refine ⟨exists_decodeWord_of_assigned, fun hreserved s c d hr hop => ?_⟩
  exact completionStep_raises_illegal hr (decode_of_reserved (hop.symm ▸ hreserved))

/-! ## The unit's turn -/

theorem step_of_unitTurn {s : State} {rest : List Input} (hin : s.inputs = .unitTurn :: rest) :
    step s = completionStep { s with inputs := rest } :=
  step_of_input hin

/-- Settles O7: the unit's turn, however it comes, is the completion step of the pending command. -/
theorem stepRunsDecodedCommand : Obligations.StepRunsDecodedCommand := by
  intro s c d i hr hd
  refine ⟨fun hin => ?_, fun rest hin => ?_⟩
  · rw [step_of_no_input hin, completionStep_of_decode hr hd]
  · rw [step_of_unitTurn hin, completionStep_of_decode (s := { s with inputs := rest }) hr hd]

/-! ## The sample words -/

/-- The decoder reads a table word with the command's encoding as the command. -/
theorem decodeTableWord_encode {i : Instr} (h : i.wellFormed = true) : decodeTableWord 32 (encode i).toNat = some i := by
  have hcmd : BitVec.ofNat 64 ((encode i).toNat % 2 ^ 32) = encodeCmd i := by
    rw [Nat.mod_eq_of_lt (encode i).isLt, BitVec.ofNat_toNat, encodeCmd]
  rw [decodeTableWord, hcmd, decodeInvertsEncode i h]
  rfl

/-- Settles O4: four of the words are encodings, the fifth has a reserved opcode. -/
theorem sampleWordsDecode : Obligations.SampleWordsDecode :=
  ⟨decodeTableWord_encode (i := .add 3 1 2) rfl, decodeTableWord_encode (i := .shl 2 1 64) rfl,
    decodeTableWord_encode (i := .modexp 5 1 2 3) rfl, decodeTableWord_encode (i := .fill 4 7) rfl, by decide⟩

end Machine
end Sys2Proof
end


section
/-! A run of the host's ISSUE (30_encoding.md R80; 70_reset_and_hazards.md R255 to R257, R263): the CMD write is accepted, the early polls
change only the bus's answer, the unit's turn runs the command, the last poll hands the host its STATUS. -/

namespace Sys2Proof.Machine

/-! ## The fields outside the unit: the coming inputs and the bus's answer (log entries 2, 4) -/

/-- `s` with other inputs to come and another answer of the bus. -/
def facing (s : State) (is : List Input) (a : Option BusReply) : State := { s with inputs := is, reply := a }

@[simp] theorem facing_cfg (s : State) (is : List Input) (a : Option BusReply) : (facing s is a).cfg = s.cfg := rfl
@[simp] theorem facing_inputs (s : State) (is : List Input) (a : Option BusReply) : (facing s is a).inputs = is := rfl

@[simp] theorem readWindow_facing (s : State) (is : List Input) (a : Option BusReply) (r : WindowReg) :
    readWindow (facing s is a) r = readWindow s r := by
  cases r <;> rfl

theorem complete_facing {s t : State} {r : Except ErrCode Write} (is : List Input) (a : Option BusReply)
    (h : complete s (r.map (Write.apply s)) = .next t) :
    complete (facing s is a) (r.map (Write.apply (facing s is a))) = .next (facing t is a) := by
  cases r with
  | error c => cases h; cases he : s.err <;> simp [Except.map, facing, retire, enterError, pendingWord, he]
  | ok w => cases h; cases w <;> rfl

/-- A command neither reads nor writes what is outside the unit. -/
theorem exec_facing {i : Instr} {s t : State} (is : List Input) (a : Option BusReply) (h : exec i s = .next t) :
    exec i (facing s is a) = .next (facing t is a) := by
  have same : SameOperands s (facing s is a) := ⟨rfl, rfl, rfl⟩
  rcases exec_of_sameReads i s with ⟨r, hr⟩ | hwait
  · rw [hr s (sameOperands_refl s) rfl] at h
    rw [hr _ same rfl]
    exact complete_facing is a h
  · rw [hwait s (sameOperands_refl s) rfl] at h
    cases h
    exact hwait _ same rfl

/-! ## The steps of an ISSUE -/

/-- The CMD write, to an idle and error-free unit, is accepted with the present DATA_IN (R255). -/
theorem step_of_issue {s : State} {early : Nat} {i : Instr} {rest : List Input} (herr : s.err = false) (hp : s.pending = none)
    (hin : s.inputs = issueSeq s.cfg.base early i ++ rest) :
    step s = .next (facing { s with pending := some ⟨encodeCmd i, s.dataIn⟩ } (waitSeq s.cfg.base early ++ rest)
      (some .written)) := by
  rw [step_of_hostWrite_at (r := .cmd) (off := 0x18) rfl hin]
  simp [writeWindow, offerCommand, busy, facing, herr, hp]

theorem step_of_poll {s : State} {rest : List Input} (hin : s.inputs = memRead s.cfg.base 0x10 :: rest) :
    step s = .next (facing s rest (some (.data (readWindow s .status)))) :=
  step_of_hostRead_at rfl hin

theorem step_of_unitTurn_facing {s t : State} {c d : Word64} {i : Instr} (hr : Running s c d) (hd : decode c = .ok i)
    (h : exec i s = .next t) (is : List Input) (a : Option BusReply) :
    step (facing s (.unitTurn :: is) a) = .next (facing t is a) := by
  rw [step_of_unitTurn (facing_inputs s _ a)]
  exact (completionStep_of_decode (s := facing s is a) hr hd).trans (exec_facing is a h)

/-! ## Runs, one agent's step at a time -/

theorem run_succ_of_step {s t : State} (h : step s = .next t) (k : Nat) :
    Host.Core.run core (k + 1) s = Host.Core.run core k t := by
  have hcore : core.step s = .next t := h
  simp only [Host.Core.run, hcore]

/-- Polls of STATUS, however many, change only the bus's answer. -/
theorem run_of_polls (s : State) (early : Nat) (rest : List Input) (a : Option BusReply) :
    ∃ a', ∀ k, Host.Core.run core (early + k) (facing s (List.replicate early (memRead s.cfg.base 0x10) ++ rest) a) =
      Host.Core.run core k (facing s rest a') := by
  induction early generalizing a with
  | zero => exact ⟨a, fun k => by rw [Nat.zero_add]; rfl⟩
  | succ early ih =>
    have hpoll := step_of_poll (s := facing s (List.replicate (early + 1) (memRead s.cfg.base 0x10) ++ rest) a) rfl
    obtain ⟨a', hpolls⟩ := ih (some (.data (readWindow s .status)))
    refine ⟨a', fun k => ?_⟩
    rw [Nat.add_right_comm]
    exact (run_succ_of_step hpoll _).trans (hpolls k)

/-- A WAIT for a pending command that decodes runs exactly that command, and leaves the host its STATUS. -/
theorem run_of_wait {s t : State} {c d : Word64} {i : Instr} (hr : Running s c d) (hd : decode c = .ok i)
    (h : exec i s = .next t) (early : Nat) (rest : List Input) (a : Option BusReply) :
    Host.Core.run core (early + 2) (facing s (waitSeq s.cfg.base early ++ rest) a) =
      .next (facing t rest (some (.data (readWindow t .status)))) := by
  have hcfg : t.cfg = s.cfg := (inFrame_exec h).cfg
  have hseq : waitSeq s.cfg.base early ++ rest =
      List.replicate early (memRead s.cfg.base 0x10) ++ .unitTurn :: memRead s.cfg.base 0x10 :: rest := by
    simp [waitSeq]
  obtain ⟨a', hpolls⟩ := run_of_polls s early (.unitTurn :: memRead s.cfg.base 0x10 :: rest) a
  have hturn := step_of_unitTurn_facing hr hd h (memRead s.cfg.base 0x10 :: rest) a'
  have hlast := step_of_poll (s := facing t (memRead s.cfg.base 0x10 :: rest) a') (by rw [facing_cfg, hcfg]; rfl)
  rw [hseq]
  calc Host.Core.run core (early + 2) _
    _ = Host.Core.run core 2 _ := hpolls 2
    _ = Host.Core.run core 1 _ := run_succ_of_step hturn 1
    _ = Host.Core.run core 0 _ := run_succ_of_step hlast 0

/-- Settles O60: after the accepted write an ISSUE is a WAIT for its command. -/
theorem issueRunsTheCommand : Obligations.IssueRunsTheCommand := by
  intro s i early rest t hwf herr hp hin h
  obtain rfl : t.inputs = rest := (inFrame_exec h).inputs
  have hr : Running { s with pending := some ⟨encodeCmd i, s.dataIn⟩, inputs := t.inputs } (encodeCmd i) s.dataIn := rfl
  have hwait := run_of_wait hr (decodeInvertsEncode i hwf) h early t.inputs (some .written)
  exact (run_succ_of_step (step_of_issue herr hp hin) (early + 2)).trans hwait

end Sys2Proof.Machine
end

section
/-! What the functions on BitVectors of 40_bitvector.md answer bit by bit: the minimal encoding (R101, R115), a vector grown by zero bits
(00_scope.md R11), a group of 64 bits (R107) and the power-of-two test (R113). -/

namespace Sys2Proof.Machine

/-- The encoding of a value is the shortest one that is not empty (R101). -/
theorem dec2bin_length_le_iff {x n : Nat} (hn : 1 ≤ n) : (dec2bin x).length ≤ n ↔ x < 2 ^ n := by
  rw [dec2bin_length, max_le_iff, bitlen_le_iff]
  exact and_iff_right hn

/-- A non-empty vector is the encoding of its value, grown to its length (R115). -/
theorem zext_dec2bin_bvVal {v : BitVector} (hv : v ≠ []) : zext (dec2bin (bvVal v)) v.length = v := by
  have hfits : (dec2bin (bvVal v)).length ≤ v.length :=
    (dec2bin_length_le_iff (List.length_pos_iff.mpr hv)).mpr (bvVal_lt v)
  have hlen : (zext (dec2bin (bvVal v)) v.length).length = v.length := by rw [zext_length, max_eq_right hfits]
  rw [eq_bvn hlen ((bvVal_zext _ _).trans (bvVal_dec2bin _)), bvn_bvVal]

theorem zext_of_length_le {v : BitVector} {n : Nat} (h : n ≤ v.length) : zext v n = v := by
  rw [zext, Nat.sub_eq_zero_of_le h, List.replicate_zero, List.append_nil]

/-- A grown vector has the bits it had, and zeros above them. -/
theorem getElem?_zext {v : BitVector} {n j : Nat} (h : j < (zext v n).length) : (zext v n)[j]? = some ((v[j]?).getD false) := by
  rcases Nat.lt_or_ge j v.length with hj | hj
  · rw [zext, List.getElem?_append_left hj, List.getElem?_eq_getElem hj, Option.getD_some]
  · rw [zext_length] at h
    rw [zext, List.getElem?_append_right hj, List.getElem?_replicate_of_lt (by omega), List.getElem?_eq_none hj, Option.getD_none]

theorem getLsbD_bitGroup (v : BitVector) (k : Nat) {j : Nat} (hj : j < 64) :
    (bitGroup v k).getLsbD j = (v[64 * k + j]?).getD false := by
  rw [bitGroup, BitVec.getLsbD_ofNat, testBit_bvVal, List.getElem?_take_of_lt hj, List.getElem?_drop, decide_eq_true hj,
    Bool.true_and]

/-- The value is a power of two when one position is the only one that holds 1. -/
theorem bvVal_eq_two_pow_iff (v : BitVector) (k : Nat) : bvVal v = 2 ^ k ↔ ∀ j, v[j]? = some true ↔ j = k := by
  have hbit (j : Nat) : (bvVal v).testBit j = true ↔ v[j]? = some true := by
    rw [testBit_bvVal]
    cases v[j]? <;> simp
  constructor
  · intro h j
    rw [← hbit, h, Nat.testBit_two_pow, decide_eq_true_iff, eq_comm]
  · intro h
    refine Nat.eq_of_testBit_eq fun j => Bool.eq_iff_iff.mpr ?_
    rw [hbit, h, Nat.testBit_two_pow, decide_eq_true_iff, eq_comm]

/-- The count of set bits is 1 when one position holds 1 (R113). -/
theorem isPow2_iff_existsUnique (v : BitVector) : isPow2 v = true ↔ ∃! j : Nat, v[j]? = some true := by
  simp only [isPow2_iff, bvVal_eq_two_pow_iff]
  constructor
  · rintro ⟨k, hk⟩
    exact ⟨k, (hk k).mpr rfl, fun j => (hk j).mp⟩
  · rintro ⟨k, hk, honly⟩
    exact ⟨k, fun j => ⟨honly j, fun e => e ▸ hk⟩⟩

end Sys2Proof.Machine
end

section
/-! The BitVector and conversion commands (40_bitvector.md R103 to R114): for each the state it completes in, as the model's own update of
`s`, and the errors that are not those of its source operands; then the statements. -/

namespace Sys2Proof.Machine

/-! ## Pseudocode whose first step answers -/

theorem complete_bind_ok {s : State} {α : Type} {x : Except ErrCode α} {a : α} (h : x = .ok a)
    (f : α → Except ErrCode State) : complete s (x >>= f) = complete s (f a) := by
  rw [h]; rfl

/-- A command whose pseudocode answers `t` completes in `t`. -/
theorem completes_of_ok {i : Instr} {s t : State} (h : exec i s = complete s (.ok t)) : Completes i s t := h

/-- A command with one source operand stops at it when it is empty. -/
theorem exec_of_one_source_empty {i : Instr} {s : State} {r : Reg} (hi : sourcesOf i = [r]) (h : regVal s r = []) :
    exec i s = complete s (.error .empty) :=
  exec_of_empty_source ⟨r, hi ▸ List.mem_singleton_self r, h⟩

theorem raises_of_one_source_empty {i : Instr} {s : State} {r : Reg} (hi : sourcesOf i = [r]) {c d : Word64}
    (hr : Running s c d) (h : regVal s r = []) : Raises i s c 2#4 :=
  raises_of_error hr (exec_of_one_source_empty hi h)

/-! ## CLR, MOV, WRI (R103 to R105) -/

theorem completes_clr (s : State) (rd : Reg) : Completes (.clr rd) s (setReg s rd []) := completes_of_ok rfl

theorem completes_mov {s : State} {rs1 : Reg} (rd : Reg) (h : regVal s rs1 ≠ []) :
    Completes (.mov rd rs1) s (setReg s rd (regVal s rs1)) :=
  completes_of_ok (complete_bind_ok (operand_of_ne h) _)

theorem completes_wri {s : State} {c d : Word64} (hr : Running s c d) (rd : Reg) :
    Completes (.wri rd) s (setReg s rd (dec2bin d.toNat)) := by
  have hdin : latchedDin s = d.toNat := latchedDin_of_pending hr
  exact hdin ▸ completes_of_ok rfl

/-! ## RDI, RDW, RDLEN (R106 to R108) -/

theorem completes_rdi {s : State} {rs1 : Reg} (h : regVal s rs1 ≠ []) (hx : bvVal (regVal s rs1) < 2 ^ 64) :
    Completes (.rdi rs1) s (setDataOut s (BitVec.ofNat 64 (bvVal (regVal s rs1)))) :=
  completes_of_ok (complete_bind_ok (ntOperand_ok h hx) _)

/-- RDI gives back a word from the register that holds its encoding (R115). -/
theorem completes_rdi_of_dec2bin {s : State} {rs1 : Reg} {x : Word64} (h : regVal s rs1 = dec2bin x.toNat) :
    Completes (.rdi rs1) s (setDataOut s x) := by
  have hval : bvVal (regVal s rs1) = x.toNat := by rw [h, bvVal_dec2bin]
  have hrdi := completes_rdi (h ▸ dec2bin_ne_nil _) (hval ▸ x.isLt)
  rwa [hval, BitVec.ofNat_toNat, BitVec.setWidth_eq] at hrdi

theorem completes_rdw {s : State} {rs1 : Reg} (k : Nat) (h : regVal s rs1 ≠ []) :
    Completes (.rdw rs1 k) s (setDataOut s (bitGroup (regVal s rs1) k)) :=
  completes_of_ok (complete_bind_ok (operand_of_ne h) _)

theorem completes_rdlen (s : State) (rs1 : Reg) :
    Completes (.rdlen rs1) s (setDataOut s (BitVec.ofNat 64 (regVal s rs1).length)) :=
  completes_of_ok rfl

/-! ## FILL (R109) -/

/-- Writing what a register holds changes nothing. -/
theorem setReg_regVal (s : State) (r : Reg) : setReg s r (regVal s r) = s := by
  rw [setReg, regVal, Vector.set_getElem_self]

/-- FILL grows the register in both its branches: where it writes nothing, growing would change nothing. -/
theorem completes_fill {s : State} {n : Nat} (rd : Reg) (h : n ≤ s.cfg.maxLen) :
    Completes (.fill rd n) s (setReg s rd (zext (regVal s rd) n)) := by
  have hwrites : (if n > (regVal s rd).length then setReg s rd (zext (regVal s rd) n) else s) =
      setReg s rd (zext (regVal s rd) n) := by
    split
    case isTrue => rfl
    case isFalse hle => rw [zext_of_length_le (Nat.not_lt.mp hle), setReg_regVal]
  exact hwrites ▸ completes_of_ok (complete_bind_ok (require_ok (decide_eq_true h)) _)

theorem raises_fill_of_too_long {s : State} {c d : Word64} {n : Nat} (rd : Reg) (hr : Running s c d) (h : s.cfg.maxLen < n) :
    Raises (.fill rd n) s c 5#4 := by
  have hexec : exec (.fill rd n) s = complete s (.error .length) :=
    complete_bind_error (require_error (decide_eq_false (Nat.not_le.mpr h))) _
  exact raises_of_error hr hexec

/-! ## GETBIT, ISPOW2, LSB (R110, R113, R114) -/

theorem completes_getbit {s : State} {rs1 : Reg} {k : Nat} {b : Bool} (h : (regVal s rs1)[k]? = some b) :
    Completes (.getbit rs1 k) s (setRes s b) := by
  have hne : regVal s rs1 ≠ [] := by rintro e; simp [e] at h
  exact completes_of_ok ((complete_bind_ok (operand_of_ne hne) _).trans (complete_bind_ok (orRaise_eq_ok.mpr h) _))

theorem raises_getbit_of_no_bit {s : State} {rs1 : Reg} {k : Nat} {c d : Word64} (hr : Running s c d) (hne : regVal s rs1 ≠ [])
    (h : (regVal s rs1).length ≤ k) : Raises (.getbit rs1 k) s c 3#4 := by
  have hnone : orRaise .domain (regVal s rs1)[k]? = .error .domain := by rw [List.getElem?_eq_none h, orRaise_none]
  have hexec : exec (.getbit rs1 k) s = complete s (.error .domain) :=
    (complete_bind_ok (operand_of_ne hne) _).trans (complete_bind_error hnone _)
  exact raises_of_error hr hexec

theorem completes_ispow2 {s : State} {rs1 : Reg} (h : regVal s rs1 ≠ []) :
    Completes (.ispow2 rs1) s (setRes s (isPow2 (regVal s rs1))) :=
  completes_of_ok (complete_bind_ok (operand_of_ne h) _)

/-- LSB is GETBIT of bit 0: a non-empty register has a bit 0, and an empty one stops both at their operand. -/
theorem exec_lsb_eq_getbit_zero (s : State) (rs1 : Reg) : exec (.lsb rs1) s = exec (.getbit rs1 0) s := by
  by_cases h : regVal s rs1 = []
  · exact (exec_of_one_source_empty rfl h).trans (exec_of_one_source_empty rfl h).symm
  · obtain ⟨b, v, hv⟩ := List.exists_cons_of_ne_nil h
    have hlsb : Completes (.lsb rs1) s (setRes s ((regVal s rs1).headD false)) :=
      completes_of_ok (complete_bind_ok (operand_of_ne h) _)
    rw [hv] at hlsb
    exact hlsb.trans (completes_getbit (by rw [hv]; rfl)).symm

/-! ## SETB, CLRB (R111, R112) -/

/-- SETB writes a 1 and CLRB a 0: the two are one command with the bit as its operand. -/
def bitWriter (rd : Reg) (k : Nat) : Bool → Instr
  | true => .setb rd k
  | false => .clrb rd k

theorem exec_bitWriter (rd : Reg) (k : Nat) (b : Bool) (s : State) : exec (bitWriter rd k b) s = complete s (writeBit s rd k b) := by
  cases b <;> rfl

theorem completes_bitWriter {s : State} {rd : Reg} {k : Nat} (h : k < (regVal s rd).length) (b : Bool) :
    Completes (bitWriter rd k b) s (setReg s rd ((regVal s rd).set k b)) :=
  completes_of_ok ((exec_bitWriter rd k b s).trans (complete_bind_ok (require_ok (decide_eq_true h)) _))

theorem raises_bitWriter_of_no_bit {s : State} {rd : Reg} {k : Nat} {c d : Word64} (hr : Running s c d)
    (h : (regVal s rd).length ≤ k) (b : Bool) : Raises (bitWriter rd k b) s c 3#4 := by
  have hexec : exec (bitWriter rd k b) s = complete s (.error .domain) :=
    (exec_bitWriter rd k b s).trans (complete_bind_error (require_error (decide_eq_false (Nat.not_lt.mpr h))) _)
  exact raises_of_error hr hexec

/-! ## The obligations -/

/-- Settles O31: what WRI writes is the encoding of the latched DATA_IN, whose length is the least that holds it. -/
theorem wriLoadsDataIn : Obligations.WriLoadsDataIn := by
  intro s c d rd hr
  refine ⟨dec2bin d.toNat, completes_wri hr rd, bvVal_dec2bin _, List.length_pos_iff.mpr (dec2bin_ne_nil _), ?_, ?_⟩
  · exact dec2bin_length_le (by decide) d.isLt
  · exact fun n hn => dec2bin_length_le_iff hn

/-- Settles O33: a vector is its value's encoding grown to its length, and RDI reads the value WRI encoded. -/
theorem conversionsAreInverse : Obligations.ConversionsAreInverse := by
  refine ⟨fun x => ⟨bvVal_dec2bin x, dec2bin_length x⟩, fun v hv => ⟨_, (zext_dec2bin_bvVal hv).symm⟩, ?_⟩
  intro s c d c' d' rd hr
  exact ⟨_, _, completes_wri hr rd, completes_rdi_of_dec2bin (regVal_setReg_self s rd _), rfl⟩

/-- Settles O34: RDW writes the register's group of 64 bits. -/
theorem rdwReadsAGroupOfBits : Obligations.RdwReadsAGroupOfBits := by
  intro s rs1 k
  refine ⟨fun h => ⟨bitGroup (regVal s rs1) k, completes_rdw k h, fun j => getLsbD_bitGroup _ k⟩, ?_⟩
  exact fun c d hr h => raises_of_one_source_empty rfl hr h

/-- Settles O36: FILL writes the register grown by zero bits. -/
theorem fillGrowsWithZeros : Obligations.FillGrowsWithZeros := by
  intro s rd n
  refine ⟨fun h => ⟨zext (regVal s rd) n, completes_fill rd h, zext_length _ n, fun j => getElem?_zext⟩, ?_⟩
  exact fun c d hr h => raises_fill_of_too_long rd hr h

/-- Settles O38: both commands set one element of the list of bits. -/
theorem setbAndClrbWriteTheBit : Obligations.SetbAndClrbWriteTheBit := by
  intro s rd k
  constructor
  · intro h
    refine ⟨(regVal s rd).set k true, (regVal s rd).set k false, completes_bitWriter h true, completes_bitWriter h false,
      List.length_set, List.length_set, List.getElem?_set_self h, List.getElem?_set_self h, fun j hj => ?_⟩
    exact ⟨List.getElem?_set_ne hj.symm, List.getElem?_set_ne hj.symm⟩
  · intro c d hr h
    exact ⟨raises_bitWriter_of_no_bit hr h true, raises_bitWriter_of_no_bit hr h false⟩

/-- Settles O39: RES is the count test, which one set position passes. -/
theorem ispow2TestsForOneSetBit : Obligations.Ispow2TestsForOneSetBit := by
  intro s rs1
  refine ⟨fun h => ⟨isPow2 (regVal s rs1), completes_ispow2 h, isPow2_iff_existsUnique _⟩, ?_⟩
  exact fun c d hr h => raises_of_one_source_empty rfl hr h

/-- Settles O30: MOV checks its source and CLR nothing. -/
theorem clrAndMov : Obligations.ClrAndMov := fun s rd _ =>
  ⟨completes_clr s rd, completes_mov rd, fun _ _ hr h => raises_of_one_source_empty rfl hr h⟩

/-- Settles O32: RDI reads its source as the number-theory commands do, so O28 gives its E_OVERFLOW. -/
theorem rdiReadsTheValue : Obligations.RdiReadsTheValue := by
  intro s rs1
  refine ⟨completes_rdi, fun c d hr => ⟨raises_of_one_source_empty rfl hr, fun hne hw => ?_⟩⟩
  have honly {p : Reg → Prop} (h : p rs1) : ∀ r ∈ sourcesOf (.rdi rs1), p r := List.forall_mem_singleton.mpr h
  exact wideOperandRaises (.rdi rs1) s c d hr rfl (honly hne) ⟨rs1, List.mem_singleton_self rs1, hw⟩

/-- Settles O35: RDLEN reads the register with no emptiness check. -/
theorem rdlenReadsTheLength : Obligations.RdlenReadsTheLength := completes_rdlen

/-- Settles O37: the operand's E_EMPTY comes before the missing bit's E_DOMAIN. -/
theorem getbitReadsTheBit : Obligations.GetbitReadsTheBit := fun _ _ _ =>
  ⟨fun _ => completes_getbit, fun _ _ hr => ⟨raises_of_one_source_empty rfl hr, raises_getbit_of_no_bit hr⟩⟩

/-- Settles O40: LSB completes and raises as GETBIT of bit 0 does. -/
theorem lsbReadsBitZero : Obligations.LsbReadsBitZero := fun s rs1 =>
  ⟨fun _ hb => (exec_lsb_eq_getbit_zero s rs1).trans (completes_getbit hb), exec_lsb_eq_getbit_zero s rs1,
    fun _ _ hr h => raises_of_one_source_empty rfl hr h⟩

end Sys2Proof.Machine
end

section
/-! The arithmetic commands whose result one check against MAXLEN admits (41_arithmetic.md R140 to R149, R152, R153): ADD, ADDN, MUL, SHL
and SHR. A sum and an Egyptian product have one form, the value at the operands' length grown to what the value needs. -/

namespace Sys2Proof.Machine

/-! ## A value at a length that grows to hold it (R141, R147) -/

/-- The vector of value `y` and of length `l`, or as long as `y` needs where `l` is too short. -/
def grown (l y : Nat) : BitVector := bvn y (max l (bitlen y))

@[simp] theorem grown_length (l y : Nat) : (grown l y).length = max l (bitlen y) := bvn_length _ _

@[simp] theorem bvVal_grown (l y : Nat) : bvVal (grown l y) = y :=
  bvVal_bvn_of_lt ((bitlen_le_iff _ _).mp (le_max_right _ _))

theorem eq_grown {v : BitVector} {l y : Nat} (hl : v.length = max l (bitlen y)) (hv : bvVal v = y) : v = grown l y :=
  eq_bvn hl hv

theorem bitlen_bvVal_le (v : BitVector) : bitlen (bvVal v) ≤ v.length := (bitlen_le_iff _ _).mpr (bvVal_lt v)

theorem grown_bvVal (v : BitVector) : grown v.length (bvVal v) = v :=
  (eq_grown (max_eq_left (bitlen_bvVal_le v)).symm rfl).symm

/-- The minimal encoding is the value grown from one bit (40_bitvector.md R101). -/
theorem dec2bin_eq_grown (y : Nat) : dec2bin y = grown 1 y := eq_grown (dec2bin_length y) (bvVal_dec2bin y)

theorem bvAdd_eq_grown (a b : BitVector) : bvAdd a b = grown (max a.length b.length) (bvVal a + bvVal b) := bvAdd_eq a b

theorem mulEgyptian_eq_grown (a b : BitVector) : mulEgyptian a b = grown (max a.length b.length) (bvVal a * bvVal b) :=
  mulEgyptian_eq a b

/-! ## Results checked against MAXLEN (R140) -/

theorem bounded_of_le {s : State} {v : BitVector} (h : v.length ≤ s.cfg.maxLen) : bounded s v = .ok v :=
  bounded_eq_ok.mpr ⟨rfl, h⟩

theorem bounded_of_gt {s : State} {v : BitVector} (h : s.cfg.maxLen < v.length) : bounded s v = .error .length := by
  rw [bounded, require_error (decide_eq_false (Nat.not_le.mpr h))]; rfl

/-- The last two lines of the pseudocode of ADD, ADDN and MUL: the check, then the write. -/
def writeBounded (s : State) (rd : Reg) (v : BitVector) : Except ErrCode State := do
  let r ← bounded s v
  return setReg s rd r

theorem completes_of_writeBounded {i : Instr} {s : State} {rd : Reg} {v : BitVector}
    (hexec : exec i s = complete s (writeBounded s rd v)) (h : v.length ≤ s.cfg.maxLen) : Completes i s (setReg s rd v) :=
  completes_of_ok (hexec.trans (complete_bind_ok (bounded_of_le h) _))

theorem raises_of_writeBounded {i : Instr} {s : State} {rd : Reg} {v : BitVector} {c d : Word64} (hr : Running s c d)
    (hexec : exec i s = complete s (writeBounded s rd v)) (h : s.cfg.maxLen < v.length) : Raises i s c 5#4 :=
  raises_of_error hr (hexec.trans (complete_bind_error (bounded_of_gt h) _))

/-! ## The commands on loaded operands -/

theorem exec_add {s : State} {rs1 rs2 : Reg} (rd : Reg) (h1 : regVal s rs1 ≠ []) (h2 : regVal s rs2 ≠ []) :
    exec (.add rd rs1 rs2) s = complete s (writeBounded s rd (bvAdd (regVal s rs1) (regVal s rs2))) :=
  complete_bind_ok (operands2_of_ne h1 h2) _

theorem exec_addn {s : State} {rs1 : Reg} (rd : Reg) (h : regVal s rs1 ≠ []) :
    exec (.addn rd rs1) s = complete s (writeBounded s rd (bvAdd (regVal s rs1) (dec2bin (latchedDin s)))) :=
  complete_bind_ok (operand_of_ne h) _

theorem exec_mul {s : State} {rs1 rs2 : Reg} (rd : Reg) (h1 : regVal s rs1 ≠ []) (h2 : regVal s rs2 ≠ []) :
    exec (.mul rd rs1 rs2) s = complete s (writeBounded s rd (bvMul s.cfg.mulMode (regVal s rs1) (regVal s rs2))) :=
  complete_bind_ok (operands2_of_ne h1 h2) _

theorem completes_shl {s : State} {rs1 : Reg} {k : Nat} (rd : Reg) (h : regVal s rs1 ≠ [])
    (hfits : (regVal s rs1).length + k ≤ s.cfg.maxLen) : Completes (.shl rd rs1 k) s (setReg s rd (bvShl (regVal s rs1) k)) :=
  completes_of_ok
    ((complete_bind_ok (operand_of_ne h) _).trans (complete_bind_ok (require_ok (decide_eq_true hfits)) _))

theorem raises_shl_of_too_long {s : State} {rs1 : Reg} {k : Nat} {c d : Word64} (rd : Reg) (hr : Running s c d)
    (h : regVal s rs1 ≠ []) (hlong : s.cfg.maxLen < (regVal s rs1).length + k) : Raises (.shl rd rs1 k) s c 5#4 := by
  have hexec : exec (.shl rd rs1 k) s = complete s (.error .length) :=
    (complete_bind_ok (operand_of_ne h) _).trans
      (complete_bind_error (require_error (decide_eq_false (Nat.not_le.mpr hlong))) _)
  exact raises_of_error hr hexec

theorem completes_shr {s : State} {rs1 : Reg} (rd : Reg) (k : Nat) (h : regVal s rs1 ≠ []) :
    Completes (.shr rd rs1 k) s (setReg s rd (bvShr (regVal s rs1) k)) :=
  completes_of_ok (complete_bind_ok (operand_of_ne h) _)

/-- The value of a right shift (R153). -/
theorem bvVal_bvShr (a : BitVector) (k : Nat) : bvVal (bvShr a k) = bvVal a / 2 ^ k := by
  unfold bvShr
  split
  case isTrue h =>
    have hlt : bvVal a < 2 ^ k := lt_of_lt_of_le (bvVal_lt a) (Nat.pow_le_pow_right (by omega) h)
    exact (Nat.div_eq_of_lt hlt).symm
  case isFalse => exact bvVal_drop a k

/-! ## The power-of-two shortcut (R148) -/

/-- The power of two by which the shortcut multiplies its right operand when the left one is a power of two. -/
def shortcutShift (mode : MulMode) (a : BitVector) : Nat :=
  match mode with
  | .leftLength => a.length - 1
  | .exact => bitlen (bvVal a) - 1

theorem bvMul_of_isPow2_left (mode : MulMode) {a : BitVector} (b : BitVector) (h : isPow2 a = true) :
    bvMul mode a b = dec2bin (bvVal b * 2 ^ shortcutShift mode a) := by
  rw [bvMul, h, Bool.true_or, if_pos rfl]
  cases mode with
  | leftLength => rw [mulShortcut, if_pos h, shortcutShift]
  | exact =>
    obtain ⟨j, hj⟩ := (isPow2_iff a).mp h
    rw [mulShortcut, shortcutShift, hj, bitlen_two_pow, Nat.add_sub_cancel, mul_comm]

theorem bvMul_of_not_isPow2 (mode : MulMode) {a b : BitVector} (ha : isPow2 a = false) (hb : isPow2 b = false) :
    bvMul mode a b = grown (max a.length b.length) (bvVal a * bvVal b) := by
  rw [bvMul, ha, hb, Bool.or_false, if_neg Bool.false_ne_true, mulEgyptian_eq_grown]

/-- The product of R146 in both modes: the Egyptian one, or one of the shortcut's. -/
theorem bvMul_eq (mode : MulMode) (a b : BitVector) :
    bvMul mode a b =
      if isPow2 a = false ∧ isPow2 b = false then
        bvn (bvVal a * bvVal b) (max (max a.length b.length) (bitlen (bvVal a * bvVal b)))
      else if mode = .exact then dec2bin (bvVal a * bvVal b)
      else if isPow2 a = true then dec2bin (bvVal b * 2 ^ (a.length - 1))
      else dec2bin (bvVal a * 2 ^ (a.length - 1)) := by
  by_cases hab : isPow2 a = false ∧ isPow2 b = false
  · rw [if_pos hab]
    exact bvMul_of_not_isPow2 mode hab.1 hab.2
  · have hshort : (isPow2 a || isPow2 b) = true := by
      rwa [← Bool.not_eq_false, Bool.or_eq_false_iff]
    rw [if_neg hab, bvMul, if_pos hshort]
    cases mode with
    | exact => rfl
    | leftLength =>
      rw [if_neg (by decide : ¬ MulMode.leftLength = .exact), mulShortcut]
      split <;> rfl

/-- A multiple by the power of two of a length is the multiple by `2^j` when the length is that of `2^j` (R148). -/
theorem mul_length_shift_eq_iff {a : BitVector} (ha : a ≠ []) (y j : Nat) :
    y * 2 ^ (a.length - 1) = y * 2 ^ j ↔ a.length = bitlen (2 ^ j) ∨ y = 0 := by
  have hpos := List.length_pos_iff.mpr ha
  rw [mul_eq_mul_left_iff, Nat.pow_right_inj (le_refl 2), bitlen_two_pow]
  omega

/-! ## The obligations -/

/-- Settles O41: the sum in R141's closed form passes the check or not. -/
theorem addResult : Obligations.AddResult := by
  rintro s rd rs1 rs2 h1 h2 sum len rfl rfl
  have hexec := exec_add rd h1 h2
  rw [bvAdd_eq_grown] at hexec
  exact ⟨fun hfits => completes_of_writeBounded hexec ((grown_length _ _).trans_le hfits),
    fun c d hr hlong => raises_of_writeBounded hr hexec (hlong.trans_eq (grown_length _ _).symm)⟩

/-- Settles O42: ADDN adds the encoding of the latched DATA_IN. -/
theorem addnResult : Obligations.AddnResult := by
  rintro s rd rs1 c d hr h1 sum len rfl rfl
  have hexec := exec_addn rd h1
  rw [latchedDin_of_pending hr, bvAdd_eq_grown, bvVal_dec2bin, dec2bin_length] at hexec
  exact ⟨fun hfits => completes_of_writeBounded hexec ((grown_length _ _).trans_le hfits),
    fun hlong => raises_of_writeBounded hr hexec (hlong.trans_eq (grown_length _ _).symm)⟩

/-- Settles O44: `bvMul` case by case, then the check. -/
theorem mulResult : Obligations.MulResult := by
  rintro s rd rs1 rs2 a b rfl rfl h1 h2 r rfl
  rw [← bvMul_eq]
  exact ⟨rfl, completes_of_writeBounded (exec_mul rd h1 h2), fun c d hr => raises_of_writeBounded hr (exec_mul rd h1 h2)⟩

/-- Settles O45: the shortcut multiplies one operand by a power of two that is the other's value when their lengths say so. -/
theorem shortcutIsExactWhen : Obligations.ShortcutIsExactWhen := by
  intro a b ha hb hpow
  rw [mulShortcut, bvVal_dec2bin]
  by_cases hpa : isPow2 a = true
  · obtain ⟨j, hj⟩ := (isPow2_iff a).mp hpa
    rw [if_pos hpa, hj, mul_comm (2 ^ j), mul_length_shift_eq_iff ha]
    simp [hpa]
  · obtain ⟨j, hj⟩ := (isPow2_iff b).mp (hpow.resolve_left hpa)
    rw [if_neg hpa, hj, mul_length_shift_eq_iff ha]
    simp [hpa, or_comm]

/-- Settles O49: SHL checks the length that `bvShl` has. -/
theorem shlResult : Obligations.ShlResult := fun _ rd _ k h =>
  ⟨fun hfits => ⟨_, completes_shl rd h hfits, bvShl_length _ k, bvVal_bvShl _ k⟩,
    fun _ _ hr hlong => raises_shl_of_too_long rd hr h hlong⟩

/-- Settles O50: SHR writes `bvShr`, which keeps a bit. -/
theorem shrResult : Obligations.ShrResult := by
  intro s rd rs1 k h
  refine ⟨bvShr (regVal s rs1) k, completes_shr rd k h, ?_, bvVal_bvShr _ k⟩
  rw [bvShr_length]
  split <;> omega

end Sys2Proof.Machine
end

section
/-! POW's loop (41_arithmetic.md R150) as two sequences: the base squared again and again, and the accumulator, which takes in the square of
each set bit of the exponent. `powLoop` answers the last accumulator when every product it makes fits MAXLEN. -/

namespace Sys2Proof.Machine

/-! ## The bits of the exponent -/

/-- The exponent is not used up after `k` halvings when it has more than `k` bits. -/
theorem div_two_pow_pos_iff (n k : Nat) : 0 < n / 2 ^ k ↔ k < bitlen n := by
  rw [Nat.div_pos_iff, and_iff_right (Nat.two_pow_pos k), ← Nat.not_lt, ← bitlen_le_iff, Nat.not_le]

theorem mod_two_pow_bitlen (n : Nat) : n % 2 ^ bitlen n = n := Nat.mod_eq_of_lt (lt_two_pow_bitlen n)

theorem mod_two_pow_succ_of_bit {n k : Nat} (h : n / 2 ^ k % 2 = 1) : n % 2 ^ (k + 1) = n % 2 ^ k + 2 ^ k := by
  rw [Nat.mod_pow_succ, h, mul_one]

theorem mod_two_pow_succ_of_no_bit {n k : Nat} (h : n / 2 ^ k % 2 ≠ 1) : n % 2 ^ (k + 1) = n % 2 ^ k := by
  rw [Nat.mod_pow_succ, Nat.mod_two_ne_one.mp h, mul_zero, add_zero]

/-! ## The two sequences of R150 -/

/-- The base after `k` squarings. -/
def squares (mode : MulMode) (x : BitVector) : Nat → BitVector
  | 0 => x
  | k + 1 => bvMul mode (squares mode x k) (squares mode x k)

/-- The accumulator after the `k` low bits of the exponent `n`. -/
def partials (mode : MulMode) (x : BitVector) (n : Nat) : Nat → BitVector
  | 0 => [true]
  | k + 1 =>
    if n / 2 ^ k % 2 = 1 then bvMul mode (partials mode x n k) (squares mode x k) else partials mode x n k

@[simp] theorem squares_zero (mode : MulMode) (x : BitVector) : squares mode x 0 = x := rfl

theorem squares_succ (mode : MulMode) (x : BitVector) (k : Nat) :
    squares mode x (k + 1) = bvMul mode (squares mode x k) (squares mode x k) := rfl

@[simp] theorem partials_zero (mode : MulMode) (x : BitVector) (n : Nat) : partials mode x n 0 = [true] := rfl

theorem partials_succ_of_bit {n k : Nat} (mode : MulMode) (x : BitVector) (h : n / 2 ^ k % 2 = 1) :
    partials mode x n (k + 1) = bvMul mode (partials mode x n k) (squares mode x k) := if_pos h

theorem partials_succ_of_no_bit {n k : Nat} (mode : MulMode) (x : BitVector) (h : n / 2 ^ k % 2 ≠ 1) :
    partials mode x n (k + 1) = partials mode x n k := if_neg h

/-! ## The loop answers the last accumulator -/

/-- The products of iteration `k` fit MAXLEN. -/
def PowFitsAt (p : Params) (x : BitVector) (n k : Nat) : Prop :=
  (n / 2 ^ k % 2 = 1 → (partials p.mulMode x n (k + 1)).length ≤ p.maxLen) ∧
    (0 < n / 2 ^ (k + 1) → (squares p.mulMode x (k + 1)).length ≤ p.maxLen)

/-- Every product of the loop fits MAXLEN. -/
def PowFits (p : Params) (x : BitVector) (n : Nat) : Prop := ∀ k, k < bitlen n → PowFitsAt p x n k

/-- A product that an iteration makes only where `c` holds. -/
theorem boundedMul_if_eq_some {p : Params} {c : Prop} [Decidable c] {a b v r : BitVector} :
    (if c then boundedMul p a b else some v) = some r ↔
      (c → (bvMul p.mulMode a b).length ≤ p.maxLen) ∧ r = if c then bvMul p.mulMode a b else v := by
  by_cases hc : c
  · by_cases hle : (bvMul p.mulMode a b).length ≤ p.maxLen <;> simp [boundedMul, hc, hle, eq_comm]
  · simp [hc, eq_comm]

/-- The loop from its iteration `k` on. The base counts only while an iteration is left to use it. -/
theorem powLoop_eq_some_iff {p : Params} {x base r : BitVector} {n fuel k : Nat} (hk : k + fuel = bitlen n)
    (hbase : k < bitlen n → base = squares p.mulMode x k) :
    powLoop p fuel (partials p.mulMode x n k) base (n / 2 ^ k) = some r ↔
      (∀ i, k ≤ i → i < bitlen n → PowFitsAt p x n i) ∧ r = partials p.mulMode x n (bitlen n) := by
  induction fuel generalizing k base with
  | zero =>
    obtain rfl : k = bitlen n := hk
    have hnone : ∀ i, bitlen n ≤ i → i < bitlen n → PowFitsAt p x n i := fun i hi hlt => absurd hi (Nat.not_le.mpr hlt)
    rw [powLoop, Option.some_inj, eq_comm]
    exact (and_iff_right hnone).symm
  | succ fuel ih =>
    have hlt : k < bitlen n := by omega
    obtain rfl := hbase hlt
    have hrest := ih (k := k + 1)
      (base := if 0 < n / 2 ^ (k + 1) then squares p.mulMode x (k + 1) else squares p.mulMode x k) (by omega)
      (fun h => if_pos ((div_two_pow_pos_iff n (k + 1)).mpr h))
    rw [powLoop_succ ((div_two_pow_pos_iff n k).mpr hlt).ne']
    simp only [Option.bind_eq_some_iff, boundedMul_if_eq_some, Nat.div_div_eq_div_mul, ← pow_succ]
    constructor
    · rintro ⟨_, ⟨hacc, rfl⟩, _, ⟨hsq, rfl⟩, hloop⟩
      obtain ⟨hfits, hr⟩ := hrest.mp hloop
      refine ⟨fun i hki hi => ?_, hr⟩
      rcases hki.eq_or_lt with rfl | hki
      · exact ⟨fun hbit => partials_succ_of_bit p.mulMode x hbit ▸ hacc hbit, hsq⟩
      · exact hfits i hki hi
    · rintro ⟨hfits, hr⟩
      obtain ⟨hacc, hsq⟩ := hfits k le_rfl hlt
      have hloop := hrest.mpr ⟨fun i hki hi => hfits i (by omega) hi, hr⟩
      exact ⟨_, ⟨fun hbit => partials_succ_of_bit p.mulMode x hbit ▸ hacc hbit, rfl⟩, _, ⟨hsq, rfl⟩, hloop⟩

theorem bvPow_eq_some_iff {p : Params} {x r : BitVector} {n : Nat} :
    bvPow p x n = some r ↔ PowFits p x n ∧ r = partials p.mulMode x n (bitlen n) := by
  have h := powLoop_eq_some_iff (p := p) (x := x) (r := r) (n := n) (k := 0) (Nat.zero_add _) (fun _ => rfl)
  rw [pow_zero, Nat.div_one] at h
  exact h.trans (and_congr_left' ⟨fun hfits k hk => hfits k k.zero_le hk, fun hfits k _ hk => hfits k hk⟩)

theorem bvPow_of_fits {p : Params} {x : BitVector} {n : Nat} (h : PowFits p x n) :
    bvPow p x n = some (partials p.mulMode x n (bitlen n)) :=
  bvPow_eq_some_iff.mpr ⟨h, rfl⟩

theorem bvPow_of_not_fits {p : Params} {x : BitVector} {n : Nat} (h : ¬ PowFits p x n) : bvPow p x n = none :=
  Option.eq_none_iff_forall_ne_some.mpr fun _ hr => h (bvPow_eq_some_iff.mp hr).1

/-! ## The recursion of R150 as a statement writes it -/

/-- Accumulators and bases that follow R150 for the bitlen(n) iterations of the exponent `n`. -/
structure PowRun (mode : MulMode) (x : BitVector) (n : Nat) (acc base : Nat → BitVector) : Prop where
  acc_zero  : acc 0 = [true]
  base_zero : base 0 = x
  acc_succ  : ∀ k, k < bitlen n → acc (k + 1) = if n / 2 ^ k % 2 = 1 then bvMul mode (acc k) (base k) else acc k
  base_succ : ∀ k, k < bitlen n → base (k + 1) = if 0 < n / 2 ^ (k + 1) then bvMul mode (base k) (base k) else base k

/-- The recursion has no choice: its accumulators are the partial products, its bases the squares while the loop runs. -/
theorem PowRun.eq_partials {mode : MulMode} {x : BitVector} {n : Nat} {acc base : Nat → BitVector}
    (h : PowRun mode x n acc base) {k : Nat} (hk : k ≤ bitlen n) :
    acc k = partials mode x n k ∧ (k < bitlen n → base k = squares mode x k) := by
  induction k with
  | zero => exact ⟨h.acc_zero, fun _ => h.base_zero⟩
  | succ k ih =>
    obtain ⟨hacc, hbase⟩ := ih (by omega)
    rw [h.acc_succ k hk, h.base_succ k hk, hacc, hbase hk]
    exact ⟨rfl, fun hlt => if_pos ((div_two_pow_pos_iff n (k + 1)).mpr hlt)⟩

theorem PowRun.fitsAt_iff {p : Params} {x : BitVector} {n : Nat} {acc base : Nat → BitVector}
    (h : PowRun p.mulMode x n acc base) {k : Nat} (hk : k < bitlen n) :
    PowFitsAt p x n k ↔ (n / 2 ^ k % 2 = 1 → (acc (k + 1)).length ≤ p.maxLen) ∧
      (0 < n / 2 ^ (k + 1) → (base (k + 1)).length ≤ p.maxLen) := by
  obtain ⟨hacc, hbase⟩ := h.eq_partials (Nat.succ_le_of_lt hk)
  rw [hacc, PowFitsAt]
  exact and_congr_right' (forall_congr' fun hpos => by rw [hbase ((div_two_pow_pos_iff n (k + 1)).mp hpos)])

/-! ## POW on loaded operands (R151) -/

theorem completes_pow {s : State} {rs1 rs2 : Reg} {r : BitVector} (rd : Reg) (h1 : regVal s rs1 ≠ [])
    (h2 : regVal s rs2 ≠ []) (h : bvPow s.cfg (regVal s rs1) (bvVal (regVal s rs2)) = some r) :
    Completes (.pow rd rs1 rs2) s (setReg s rd r) :=
  completes_of_ok
    ((complete_bind_ok (operands2_of_ne h1 h2) _).trans (complete_bind_ok (orRaise_eq_ok.mpr h) _))

theorem raises_pow {s : State} {rs1 rs2 : Reg} {c d : Word64} (rd : Reg) (hr : Running s c d) (h1 : regVal s rs1 ≠ [])
    (h2 : regVal s rs2 ≠ []) (h : bvPow s.cfg (regVal s rs1) (bvVal (regVal s rs2)) = none) :
    Raises (.pow rd rs1 rs2) s c 5#4 := by
  have hnone : orRaise .length (bvPow s.cfg (regVal s rs1) (bvVal (regVal s rs2))) = .error .length := by
    rw [h, orRaise_none]
  have hexec : exec (.pow rd rs1 rs2) s = complete s (.error .length) :=
    (complete_bind_ok (operands2_of_ne h1 h2) _).trans (complete_bind_error hnone _)
  exact raises_of_error hr hexec

/-- Settles O46: any run of R150's recursion is the loop's, and its products fit MAXLEN when the loop's do. -/
theorem powResult : Obligations.PowResult := by
  rintro s rd rs1 rs2 x n rfl h1 h2 rfl
  refine ⟨fun acc base hacc hbase hstep => ?_, fun r h => ⟨completes_pow rd h1 h2 h, fun hm => bvPow_length_le hm h⟩,
    fun c d hr h => raises_pow rd hr h1 h2 h⟩
  have hrun : PowRun s.cfg.mulMode (regVal s rs1) (bvVal (regVal s rs2)) acc base :=
    ⟨hacc, hbase, fun k hk => (hstep k hk).1, fun k hk => (hstep k hk).2⟩
  constructor
  · intro hfits
    rw [(hrun.eq_partials le_rfl).1]
    exact completes_pow rd h1 h2 (bvPow_of_fits fun k hk => (hrun.fitsAt_iff hk).mpr (hfits k hk))
  · rintro c d hr ⟨k, hk, hlong⟩
    refine raises_pow rd hr h1 h2 (bvPow_of_not_fits fun hfits => ?_)
    obtain ⟨hacc, hbase⟩ := (hrun.fitsAt_iff hk).mp (hfits k hk)
    rcases hlong with ⟨hbit, hlt⟩ | ⟨hpos, hlt⟩
    · exact absurd (hacc hbit) (Nat.not_le.mpr hlt)
    · exact absurd (hbase hpos) (Nat.not_le.mpr hlt)

end Sys2Proof.Machine
end

section
/-! Closed forms of POW's squares and partial products (41_arithmetic.md R147, R148, R150, R151, R154 item 4). The powers of a power of two
are shortcut products, minimal encodings of powers of two; those of any other base are Egyptian products but for the first, by bv"1". -/

namespace Sys2Proof.Machine

/-! ## Powers of a power of two (R148) -/

theorem bitlen_one : bitlen 1 = 1 := bitlen_two_pow 0

/-- The shortcut with a minimal left operand multiplies by its value, in both modes. -/
@[simp] theorem shortcutShift_dec2bin_two_pow (mode : MulMode) (t : Nat) : shortcutShift mode (dec2bin (2 ^ t)) = t := by
  have hlen : (dec2bin (2 ^ t)).length = t + 1 := by rw [dec2bin_length, bitlen_two_pow]; omega
  cases mode with
  | leftLength => rw [shortcutShift, hlen, Nat.add_sub_cancel]
  | exact => rw [shortcutShift, bvVal_dec2bin, bitlen_two_pow, Nat.add_sub_cancel]

theorem isPow2_dec2bin_two_pow (t : Nat) : isPow2 (dec2bin (2 ^ t)) = true := (isPow2_iff _).mpr ⟨t, bvVal_dec2bin _⟩

theorem bvMul_dec2bin_two_pow (mode : MulMode) (t : Nat) (b : BitVector) :
    bvMul mode (dec2bin (2 ^ t)) b = dec2bin (bvVal b * 2 ^ t) := by
  rw [bvMul_of_isPow2_left mode b (isPow2_dec2bin_two_pow t), shortcutShift_dec2bin_two_pow]

/-- bv"1", with which the accumulator starts. -/
theorem dec2bin_one : dec2bin (2 ^ 0) = [true] := by decide

theorem exponent_lt_length {x : BitVector} {j : Nat} (hj : bvVal x = 2 ^ j) : j < x.length := by
  have hbits := bitlen_bvVal_le x
  rwa [hj, bitlen_two_pow] at hbits

/-- The shortcut's shift is below the operand's length. -/
theorem shortcutShift_lt (mode : MulMode) {x : BitVector} (hx : x ≠ []) : shortcutShift mode x < x.length := by
  have hpos := List.length_pos_iff.mpr hx
  have hbits := bitlen_bvVal_le x
  cases mode <;> simp only [shortcutShift] <;> omega

/-- What R148 makes of the exponent in the `m`-th power of `2^j`: an odd `m` takes in `2^j` itself once, and the first squaring, which is
all other factors come from, multiplies `2^j` by `2^g`. -/
def twoPowExp (j g m : Nat) : Nat := m % 2 * j + m / 2 * (j + g)

@[simp] theorem twoPowExp_zero (j g : Nat) : twoPowExp j g 0 = 0 := by simp [twoPowExp]

@[simp] theorem twoPowExp_one (j g : Nat) : twoPowExp j g 1 = j := by simp [twoPowExp]

theorem twoPowExp_two_pow_succ (j g k : Nat) : twoPowExp j g (2 ^ (k + 1)) = 2 ^ k * (j + g) := by
  simp [twoPowExp, pow_succ]

/-- The exponents of a partial product and of the square of the next bit add up. -/
theorem twoPowExp_add_two_pow {m k : Nat} (j g : Nat) (h : m < 2 ^ k) :
    twoPowExp j g (m + 2 ^ k) = twoPowExp j g m + twoPowExp j g (2 ^ k) := by
  cases k with
  | zero =>
    obtain rfl : m = 0 := by simpa using h
    simp
  | succ k =>
    have hmod : (m + 2 ^ (k + 1)) % 2 = m % 2 := by rw [pow_succ]; omega
    have hdiv : (m + 2 ^ (k + 1)) / 2 = m / 2 + 2 ^ k := by rw [pow_succ]; omega
    rw [twoPowExp_two_pow_succ, twoPowExp, twoPowExp, hmod, hdiv]
    ring

/-- The exponent is the true one when the first squaring is exact, or when there is none. -/
theorem twoPowExp_eq_mul {j g n : Nat} (h : g = j ∨ n < 2) : twoPowExp j g n = j * n := by
  rcases h with rfl | hn
  · calc n % 2 * g + n / 2 * (g + g) = g * (n % 2 + 2 * (n / 2)) := by ring
      _ = g * n := by rw [Nat.mod_add_div]
  · interval_cases n <;> simp

theorem twoPowExp_add_le {j g l : Nat} (m : Nat) (hj : j < l) (hg : g < l) : twoPowExp j g m + m ≤ l * m := by
  calc twoPowExp j g m + m = m % 2 * (j + 1) + m / 2 * ((j + 1) + (g + 1)) := by
        have := Nat.mod_add_div m 2
        rw [twoPowExp]
        linarith
    _ ≤ m % 2 * l + m / 2 * (l + l) := by gcongr <;> omega
    _ = l * (m % 2 + 2 * (m / 2)) := by ring
    _ = l * m := by rw [Nat.mod_add_div]

/-- From the first squaring on the base is a minimal encoding. -/
theorem squares_succ_of_two_pow (mode : MulMode) {x : BitVector} {j : Nat} (hj : bvVal x = 2 ^ j) (k : Nat) :
    squares mode x (k + 1) = dec2bin (2 ^ twoPowExp j (shortcutShift mode x) (2 ^ (k + 1))) := by
  induction k with
  | zero =>
    rw [squares_succ, squares_zero, bvMul_of_isPow2_left mode x ((isPow2_iff x).mpr ⟨j, hj⟩), hj, ← pow_add,
      twoPowExp_two_pow_succ, pow_zero, one_mul]
  | succ k ih =>
    rw [squares_succ, ih, bvMul_dec2bin_two_pow, bvVal_dec2bin, ← pow_add, ← two_mul, twoPowExp_two_pow_succ,
      twoPowExp_two_pow_succ, pow_succ', mul_assoc]

theorem bvVal_squares_of_two_pow (mode : MulMode) {x : BitVector} {j : Nat} (hj : bvVal x = 2 ^ j) (k : Nat) :
    bvVal (squares mode x k) = 2 ^ twoPowExp j (shortcutShift mode x) (2 ^ k) := by
  cases k with
  | zero => rw [squares_zero, pow_zero, twoPowExp_one, hj]
  | succ k => rw [squares_succ_of_two_pow mode hj, bvVal_dec2bin]

/-- The accumulator is always a minimal encoding. -/
theorem partials_of_two_pow (mode : MulMode) {x : BitVector} {j : Nat} (hj : bvVal x = 2 ^ j) (n k : Nat) :
    partials mode x n k = dec2bin (2 ^ twoPowExp j (shortcutShift mode x) (n % 2 ^ k)) := by
  induction k with
  | zero => rw [partials_zero, pow_zero, Nat.mod_one, twoPowExp_zero, dec2bin_one]
  | succ k ih =>
    by_cases hbit : n / 2 ^ k % 2 = 1
    · rw [partials_succ_of_bit mode x hbit, ih, bvMul_dec2bin_two_pow, bvVal_squares_of_two_pow mode hj, ← pow_add,
        mod_two_pow_succ_of_bit hbit, twoPowExp_add_two_pow _ _ (Nat.mod_lt n (Nat.two_pow_pos k)), add_comm]
    · rw [partials_succ_of_no_bit mode x hbit, ih, mod_two_pow_succ_of_no_bit hbit]

/-! ## Powers of any other base (R147) -/

/-- A number that is no power of two has no power that is one. -/
theorem isPow2_grown_pow_eq_false {x : BitVector} (hx : isPow2 x = false) (l : Nat) {m : Nat} (hm : m ≠ 0) :
    isPow2 (grown l (bvVal x ^ m)) = false := by
  rw [← Bool.not_eq_true, isPow2_iff] at hx ⊢
  rw [bvVal_grown]
  rintro ⟨k, hk⟩
  obtain ⟨i, -, hi⟩ := (Nat.dvd_prime_pow Nat.prime_two).mp (hk ▸ dvd_pow_self (bvVal x) hm)
  exact hx ⟨i, hi⟩

theorem bitlen_pow_mono (y : Nat) {m n : Nat} (hm : m ≠ 0) (h : m ≤ n) : bitlen (y ^ m) ≤ bitlen (y ^ n) := by
  rcases Nat.eq_zero_or_pos y with rfl | hy
  · simp [hm]
  · exact bitlen_mono (Nat.pow_le_pow_right hy h)

theorem bitlen_pow_le (x : BitVector) {m : Nat} (hm : m ≠ 0) : bitlen (bvVal x ^ m) ≤ x.length * m := by
  rw [bitlen_le_iff, pow_mul]
  exact Nat.pow_lt_pow_left (bvVal_lt x) hm

/-- The Egyptian product of two powers: the longer one's length, or what the value needs. -/
theorem bvMul_grown_pow (mode : MulMode) {x : BitVector} (hx : isPow2 x = false) (l₁ l₂ : Nat) {m₁ m₂ : Nat}
    (h₁ : m₁ ≠ 0) (h₂ : m₂ ≠ 0) :
    bvMul mode (grown l₁ (bvVal x ^ m₁)) (grown l₂ (bvVal x ^ m₂)) = grown (max l₁ l₂) (bvVal x ^ (m₁ + m₂)) := by
  have hle₁ := bitlen_pow_mono (bvVal x) h₁ (Nat.le_add_right m₁ m₂)
  have hle₂ := bitlen_pow_mono (bvVal x) h₂ (Nat.le_add_left m₂ m₁)
  rw [bvMul_of_not_isPow2 mode (isPow2_grown_pow_eq_false hx l₁ h₁) (isPow2_grown_pow_eq_false hx l₂ h₂)]
  refine eq_grown ?_ ?_
  · simp only [grown_length, bvVal_grown, ← pow_add]
    omega
  · simp only [bvVal_grown, ← pow_add]

theorem squares_eq_grown (mode : MulMode) {x : BitVector} (hx : isPow2 x = false) (k : Nat) :
    squares mode x k = grown x.length (bvVal x ^ 2 ^ k) := by
  induction k with
  | zero => rw [squares_zero, pow_zero, pow_one, grown_bvVal]
  | succ k ih =>
    have hpos := (Nat.two_pow_pos k).ne'
    rw [squares_succ, ih, bvMul_grown_pow mode hx _ _ hpos hpos, max_self, pow_succ, mul_two]

/-- The length from which the `m`-th power grows: the first product, by bv"1", is a minimal encoding, and a power of two as exponent has
no other. -/
def powLength (x : BitVector) (m : Nat) : Nat := if m = 0 ∨ m = 2 ^ Nat.log2 m then 1 else x.length

theorem powLength_zero (x : BitVector) : powLength x 0 = 1 := if_pos (.inl rfl)

theorem powLength_two_pow (x : BitVector) (k : Nat) : powLength x (2 ^ k) = 1 := by
  rw [powLength, Nat.log2_two_pow]
  exact if_pos (.inr rfl)

theorem powLength_le {x : BitVector} (hx : x ≠ []) (m : Nat) : powLength x m ≤ x.length := by
  unfold powLength
  split
  · exact List.length_pos_iff.mpr hx
  · exact le_rfl

/-- An exponent of two set bits or more is no power of two. -/
theorem powLength_add_two_pow (x : BitVector) {m k : Nat} (hm : m ≠ 0) (h : m < 2 ^ k) :
    powLength x (m + 2 ^ k) = x.length := by
  have hlog : Nat.log2 (m + 2 ^ k) = k := (Nat.log2_eq_iff (by omega)).mpr ⟨by omega, by rw [pow_succ]; omega⟩
  rw [powLength, hlog]
  exact if_neg (by omega)

theorem bvMul_one (mode : MulMode) (b : BitVector) : bvMul mode [true] b = grown 1 (bvVal b) := by
  rw [← dec2bin_one, bvMul_dec2bin_two_pow, pow_zero, mul_one, dec2bin_eq_grown]

theorem partials_eq_grown (mode : MulMode) {x : BitVector} (hne : x ≠ []) (hx : isPow2 x = false) (n k : Nat) :
    partials mode x n k = grown (powLength x (n % 2 ^ k)) (bvVal x ^ (n % 2 ^ k)) := by
  induction k with
  | zero => rw [partials_zero, pow_zero, Nat.mod_one, powLength_zero, pow_zero]; rfl
  | succ k ih =>
    by_cases hbit : n / 2 ^ k % 2 = 1
    · rw [partials_succ_of_bit mode x hbit, mod_two_pow_succ_of_bit hbit, squares_eq_grown mode hx]
      by_cases hfirst : n % 2 ^ k = 0
      · rw [hfirst, powLength_zero, pow_zero] at ih
        rw [ih, hfirst, zero_add, powLength_two_pow, show grown 1 1 = [true] from rfl, bvMul_one, bvVal_grown]
      · rw [ih, bvMul_grown_pow mode hx _ _ hfirst (Nat.two_pow_pos k).ne', max_eq_right (powLength_le hne _),
          powLength_add_two_pow x hfirst (Nat.mod_lt n (Nat.two_pow_pos k))]
    · rw [partials_succ_of_no_bit mode x hbit, ih, mod_two_pow_succ_of_no_bit hbit]

/-! ## What `bvPow` answers -/

theorem bvPow_of_two_pow {p : Params} {x r : BitVector} {n j : Nat} (hj : bvVal x = 2 ^ j) (h : bvPow p x n = some r) :
    r = dec2bin (2 ^ twoPowExp j (shortcutShift p.mulMode x) n) := by
  obtain ⟨-, rfl⟩ := bvPow_eq_some_iff.mp h
  rw [partials_of_two_pow p.mulMode hj, mod_two_pow_bitlen]

theorem bvPow_of_not_isPow2 {p : Params} {x r : BitVector} {n : Nat} (hne : x ≠ []) (hx : isPow2 x = false)
    (h : bvPow p x n = some r) : r = grown (powLength x n) (bvVal x ^ n) := by
  obtain ⟨-, rfl⟩ := bvPow_eq_some_iff.mp h
  rw [partials_eq_grown p.mulMode hne hx, mod_two_pow_bitlen]

/-- The shortcut squares `2^j` exactly in `exact` mode, and where `2^j` has no leading zeros (R148). -/
theorem shortcutShift_eq_exponent {mode : MulMode} {x : BitVector} {j : Nat} (hj : bvVal x = 2 ^ j)
    (h : mode = .exact ∨ x.length ≤ bitlen (bvVal x)) : shortcutShift mode x = j := by
  have hlt := exponent_lt_length hj
  rw [hj, bitlen_two_pow] at h
  cases mode with
  | exact => rw [shortcutShift, hj, bitlen_two_pow, Nat.add_sub_cancel]
  | leftLength =>
    have hlen : x.length ≤ j + 1 := h.resolve_left (by decide)
    rw [shortcutShift]
    omega

theorem bvVal_bvPow {p : Params} {x r : BitVector} {n : Nat} (hne : x ≠ []) (h : bvPow p x n = some r)
    (hexact : p.mulMode = .exact ∨ ¬ (isPow2 x = true ∧ bitlen (bvVal x) < x.length ∧ 2 ≤ n)) : bvVal r = bvVal x ^ n := by
  cases hx : isPow2 x with
  | false => rw [bvPow_of_not_isPow2 hne hx h, bvVal_grown]
  | true =>
    obtain ⟨j, hj⟩ := (isPow2_iff x).mp hx
    have hcases : shortcutShift p.mulMode x = j ∨ n < 2 := by
      by_cases hn : n < 2
      · exact .inr hn
      · refine .inl (shortcutShift_eq_exponent hj (hexact.imp_right fun hnot => ?_))
        exact Nat.not_lt.mp fun hlt => hnot ⟨hx, hlt, by omega⟩
    rw [bvPow_of_two_pow hj h, bvVal_dec2bin, twoPowExp_eq_mul hcases, hj, pow_mul]

/-! ## Lengths of the products of R150 (R151) -/

theorem squares_length_le (mode : MulMode) {x : BitVector} (hne : x ≠ []) (k : Nat) :
    (squares mode x k).length ≤ x.length * 2 ^ k := by
  have hpos := Nat.two_pow_pos k
  cases hx : isPow2 x with
  | false =>
    rw [squares_eq_grown mode hx, grown_length]
    exact max_le (Nat.le_mul_of_pos_right _ hpos) (bitlen_pow_le x hpos.ne')
  | true =>
    obtain ⟨j, hj⟩ := (isPow2_iff x).mp hx
    cases k with
    | zero => simp
    | succ k =>
      have hle := twoPowExp_add_le (2 ^ (k + 1)) (exponent_lt_length hj) (shortcutShift_lt mode hne)
      rw [squares_succ_of_two_pow mode hj, dec2bin_length, bitlen_two_pow]
      omega

theorem partials_length_le (mode : MulMode) {x : BitVector} (hne : x ≠ []) (n k : Nat) :
    (partials mode x n k).length ≤ x.length * max 1 (n % 2 ^ k) := by
  have hlen := List.length_pos_iff.mpr hne
  generalize hm : n % 2 ^ k = m
  cases hx : isPow2 x with
  | false =>
    rw [partials_eq_grown mode hne hx, hm, grown_length]
    rcases Nat.eq_zero_or_pos m with rfl | hpos
    · rwa [powLength_zero, pow_zero, bitlen_one, max_self, max_eq_left (Nat.zero_le 1), mul_one]
    · rw [max_eq_right (Nat.one_le_iff_ne_zero.mpr hpos.ne')]
      exact max_le ((powLength_le hne m).trans (Nat.le_mul_of_pos_right _ hpos)) (bitlen_pow_le x hpos.ne')
  | true =>
    obtain ⟨j, hj⟩ := (isPow2_iff x).mp hx
    have hle := twoPowExp_add_le m (exponent_lt_length hj) (shortcutShift_lt mode hne)
    rw [partials_of_two_pow mode hj, hm, dec2bin_length, bitlen_two_pow]
    rcases Nat.eq_zero_or_pos m with rfl | hpos
    · rwa [twoPowExp_zero, zero_add, max_self, max_eq_left (Nat.zero_le 1), mul_one]
    · rw [max_eq_right (Nat.le_add_left 1 _), max_eq_right hpos]
      omega

/-- The products that the loop makes are squares of an exponent's part and partial products. -/
theorem powFits_of_length_le {p : Params} {x : BitVector} {n : Nat}
    (hsq : ∀ k, 2 ^ (k + 1) ≤ n → (squares p.mulMode x (k + 1)).length ≤ p.maxLen)
    (hpart : ∀ k, (partials p.mulMode x n k).length ≤ p.maxLen) : PowFits p x n :=
  fun k _ => ⟨fun _ => hpart (k + 1), fun hpos => hsq k (Nat.div_pos_iff.mp hpos).2⟩

/-- No product is longer than the base's length times the exponent. -/
theorem powFits_of_mul_le {p : Params} {x : BitVector} {n : Nat} (hne : x ≠ []) (h : x.length * max 1 n ≤ p.maxLen) :
    PowFits p x n := by
  have hwithin {l m : Nat} (hl : l ≤ x.length * m) (hm : m ≤ max 1 n) : l ≤ p.maxLen :=
    (hl.trans (Nat.mul_le_mul_left _ hm)).trans h
  exact powFits_of_length_le (fun k hk => hwithin (squares_length_le _ hne (k + 1)) (hk.trans (le_max_right _ _)))
    (fun k => hwithin (partials_length_le _ hne n k) (max_le_max_left 1 (Nat.mod_le n _)))

/-! ## Bases of value 0 and 1 (R151) -/

theorem isPow2_of_bvVal_zero {x : BitVector} (h : bvVal x = 0) : isPow2 x = false := by
  rw [← Bool.not_eq_true, isPow2_iff, h]
  exact fun ⟨k, hk⟩ => (Nat.two_pow_pos k).ne hk

theorem partials_length_le_of_zero (mode : MulMode) {x : BitVector} (hne : x ≠ []) (h : bvVal x = 0) (n k : Nat) :
    (partials mode x n k).length ≤ x.length := by
  have hlen := List.length_pos_iff.mpr hne
  have hbits : bitlen (0 ^ (n % 2 ^ k)) ≤ x.length :=
    (bitlen_mono (pow_le_one₀ le_rfl zero_le_one)).trans (bitlen_one.trans_le hlen)
  rw [partials_eq_grown mode hne (isPow2_of_bvVal_zero h), grown_length, h]
  exact max_le (powLength_le hne _) hbits

theorem powFits_of_zero {p : Params} {x : BitVector} (hne : x ≠ []) (h : bvVal x = 0) (hx : x.length ≤ p.maxLen) (n : Nat) :
    PowFits p x n := by
  refine powFits_of_length_le (fun k _ => ?_) (fun k => (partials_length_le_of_zero _ hne h n k).trans hx)
  rw [squares_eq_grown p.mulMode (isPow2_of_bvVal_zero h), h, zero_pow (Nat.two_pow_pos _).ne', grown_length, bitlen_zero,
    max_eq_left (Nat.zero_le _)]
  exact hx

/-- Where the shortcut squares 1 exactly, every product is bv"1". -/
theorem bvPow_of_one {p : Params} {x : BitVector} (h : bvVal x = 1) (hshift : shortcutShift p.mulMode x = 0)
    (hp : 1 ≤ p.maxLen) (n : Nat) : bvPow p x n = some [true] := by
  have hj : bvVal x = 2 ^ 0 := h
  have hexp (m : Nat) : dec2bin (2 ^ twoPowExp 0 (shortcutShift p.mulMode x) m) = [true] := by
    rw [hshift, twoPowExp_eq_mul (.inl rfl), zero_mul, dec2bin_one]
  have hfits : PowFits p x n := by
    refine powFits_of_length_le (fun k _ => ?_) (fun k => ?_)
    · rwa [squares_succ_of_two_pow p.mulMode hj, hexp]
    · rwa [partials_of_two_pow p.mulMode hj, hexp]
  rw [bvPow_of_fits hfits, partials_of_two_pow p.mulMode hj, hexp]

/-! ## The obligations -/

/-- Settles O47: the closed forms of the last accumulator, for a base that is a power of two and for any other. -/
theorem powValue : Obligations.PowValue := by
  intro p x n r hne h
  refine ⟨bvVal_bvPow hne h, ?_, fun hx _ => ?_, fun j hmode hj => ?_, fun hx hn => ?_⟩
  · rintro rfl
    exact (bvPow_eq_some_iff.mp h).2
  · obtain ⟨j, hj⟩ := (isPow2_iff x).mp hx
    rw [bvPow_of_two_pow hj h, dec2bin_length, bvVal_dec2bin]
    exact max_eq_right (bitlen_pos (Nat.two_pow_pos _).ne')
  · rw [bvPow_of_two_pow hj h, bvVal_dec2bin, twoPowExp, hmode, shortcutShift, Nat.add_sub_assoc (List.length_pos_iff.mpr hne)]
  · rw [bvPow_of_not_isPow2 hne hx h, grown_length, powLength]
    simp only [Nat.ne_of_gt hn, false_or]

/-- Settles O48: the lengths of the loop's products, bounded by the exponent, by a base of value 0, and by bv"1". -/
theorem powCompletes : Obligations.PowCompletes := by
  rintro s rd rs1 rs2 x n rfl h1 h2 rfl
  have hlen := List.length_pos_iff.mpr h1
  refine ⟨fun hle => ?_, fun hval hle => ?_, fun hval hmode hp => ?_⟩
  · have h := bvPow_of_fits (powFits_of_mul_le h1 hle)
    have hbound := partials_length_le s.cfg.mulMode h1 (bvVal (regVal s rs2)) (bitlen (bvVal (regVal s rs2)))
    rw [mod_two_pow_bitlen] at hbound
    exact ⟨_, h, completes_pow rd h1 h2 h, List.length_pos_iff.mpr (bvPow_ne_nil h), hbound⟩
  · have h := bvPow_of_fits (powFits_of_zero h1 hval hle (bvVal (regVal s rs2)))
    have hr := bvVal_bvPow h1 h (.inr fun hx => absurd hx.1 (by rw [isPow2_of_bvVal_zero hval]; decide))
    rw [hval, zero_pow_eq] at hr
    have hbound := partials_length_le_of_zero s.cfg.mulMode h1 hval (bvVal (regVal s rs2)) (bitlen (bvVal (regVal s rs2)))
    have hpos := List.length_pos_iff.mpr (bvPow_ne_nil h)
    refine ⟨_, completes_pow rd h1 h2 h, hr, hpos, hbound, fun hone => ?_⟩
    rw [eq_bvn (by omega : _ = 1) hr]
    split <;> rfl
  · have hshift : shortcutShift s.cfg.mulMode (regVal s rs1) = 0 :=
      shortcutShift_eq_exponent (j := 0) hval (hmode.imp_right fun hone => by rw [hone, hval]; decide)
    exact completes_pow rd h1 h2 (bvPow_of_one hval hshift hp _)

end Sys2Proof.Machine
end

section
/-! GCD, MODEXP and MODINV on loaded operands below 2^64 (42_number_theory.md R180 to R184, R190, R191), and the RSA round trip through
the functions of MODINV and MODEXP (R192). -/

namespace Sys2Proof.Machine

/-! ## GCD and MODEXP (R182, R184) -/

/-- Settles O51: the pseudocode writes the answer of the Euclidean loop. -/
theorem gcdResult : Obligations.GcdResult := by
  intro s rd rs1 rs2 h1 h2 hx hy
  rw [← ntGcd_eq]
  exact completes_of_ok (complete_bind_ok (ntOperands2_ok h1 h2 hx hy) _)

/-- Settles O52: the one check after the operands is that of the modulus. -/
theorem modexpResult : Obligations.ModexpResult := by
  rintro s rd rs1 rs2 rs3 _ _ _ h1 h2 h3 rfl rfl rfl hb he hm
  have hops := ntOperands3_ok h1 h2 h3 hb he hm
  constructor
  · intro hm0
    rw [← ntModexp_eq]
    exact completes_of_ok ((complete_bind_ok hops _).trans (complete_bind_ok (require_ok (decide_eq_true hm0)) _))
  · intro c d hr hm0
    have hexec : exec (.modexp rd rs1 rs2 rs3) s = complete s (.error .domain) :=
      (complete_bind_ok hops _).trans (complete_bind_error (require_error (decide_eq_false (not_not_intro hm0))) _)
    exact raises_of_error hr hexec

/-! ## The modular inverse (R190) -/

/-- The answer of R190 is a coefficient of the greatest common divisor, reduced modulo `phi`; that `phi` is added to a negative one first
makes no difference. -/
theorem ntModinv_eq {phi : Nat} (e : Nat) (hphi : phi ≠ 0) :
    ∃ t : Int, t * e ≡ Nat.gcd e phi [ZMOD phi] ∧
      ntModinv e phi = if Nat.gcd e phi = 1 then some (t % phi).toNat else none := by
  obtain ⟨k, hbezout, hgcd⟩ := eeaLoop_spec e phi (e + 1) phi e 1 0 0 1 (by omega) (by omega) (by omega) (by ring) (by ring)
  generalize hrun : eeaLoop (e + 1) (phi, e) (1, 0) (0, 1) = run at hbezout hgcd
  obtain ⟨oldR, oldT⟩ := run
  rw [Int.gcd_natCast_natCast, Nat.gcd_comm] at hgcd
  have hreduce : (if oldT < 0 then oldT + phi else oldT) % (phi : Int) = oldT % phi := by
    split
    · exact Int.add_emod_right oldT phi
    · rfl
  refine ⟨oldT, ?_, ?_⟩
  · rw [← hgcd, hbezout]
    exact Int.modEq_iff_dvd.mpr ⟨k, by ring⟩
  · have hone : oldR ≠ 1 ↔ ¬ Nat.gcd e phi = 1 := by omega
    simp only [ntModinv, if_neg hphi, hrun, hreduce, hone, ite_not]

/-- R190 raises E_DOMAIN exactly for the modulus 0 and operands that are not coprime. -/
theorem ntModinv_eq_none_iff {e phi : Nat} : ntModinv e phi = none ↔ phi = 0 ∨ Nat.gcd e phi ≠ 1 := by
  by_cases hphi : phi = 0
  · simp [ntModinv, hphi]
  · obtain ⟨t, -, heq⟩ := ntModinv_eq e hphi
    simp [heq, hphi]

/-- What R190 answers is an inverse of `e` (R192 item 1). -/
theorem mul_ntModinv_mod {e phi d : Nat} (h : ntModinv e phi = some d) : e * d % phi = 1 % phi := by
  have hdomain : ¬ (phi = 0 ∨ Nat.gcd e phi ≠ 1) := mt ntModinv_eq_none_iff.mpr (h ▸ Option.some_ne_none d)
  obtain ⟨hphi, hcop⟩ := not_or.mp hdomain
  rw [not_not] at hcop
  obtain ⟨t, hcoeff, heq⟩ := ntModinv_eq e hphi
  rw [heq, if_pos hcop, Option.some_inj] at h
  rw [hcop] at hcoeff
  have hd : (d : Int) = t % phi := by rw [← h, Int.toNat_of_nonneg (Int.emod_nonneg t (by omega))]
  have hinv : ((e * d : Nat) : Int) ≡ (1 : Nat) [ZMOD phi] :=
    calc ((e * d : Nat) : Int) = t % phi * e := by rw [← hd]; push_cast; ring
      _ ≡ t * e [ZMOD phi] := (Int.mod_modEq t phi).mul_right e
      _ ≡ (1 : Nat) [ZMOD phi] := hcoeff
  exact Int.natCast_modEq_iff.mp hinv

/-- Inverses modulo `phi` agree modulo `phi`. -/
theorem inverse_unique {e phi d d' : Nat} (hcop : Nat.gcd e phi = 1) (hd : d < phi) (hd' : d' < phi)
    (h : e * d % phi = 1 % phi) (h' : e * d' % phi = 1 % phi) : d' = d := by
  have hmul : e * d' ≡ e * d [MOD phi] := h'.trans h.symm
  exact (hmul.cancel_left_of_coprime (Nat.gcd_comm phi e ▸ hcop)).eq_of_lt_of_lt hd' hd

/-- Settles O53: the pseudocode's one check after the operands is that R190 has an answer. -/
theorem modinvResult : Obligations.ModinvResult := by
  rintro s rd rs1 rs2 _ _ h1 h2 rfl rfl he hphi64
  have hops := ntOperands2_ok h1 h2 he hphi64
  constructor
  · intro hphi hcop
    obtain ⟨d, hd⟩ := Option.ne_none_iff_exists'.mp (mt ntModinv_eq_none_iff.mp (not_or.mpr ⟨hphi, not_not_intro hcop⟩))
    refine ⟨d, ?_, ntModinv_lt hd, mul_ntModinv_mod hd, fun d' hlt h' => ?_⟩
    · exact completes_of_ok ((complete_bind_ok hops _).trans (complete_bind_ok (orRaise_eq_ok.mpr hd) _))
    · exact inverse_unique hcop (ntModinv_lt hd) hlt (mul_ntModinv_mod hd) h'
  · intro c d hr hbad
    have hraise := (congrArg (orRaise ErrCode.domain) (ntModinv_eq_none_iff.mpr hbad)).trans (orRaise_none _)
    have hexec : exec (.modinv rd rs1 rs2) s = complete s (.error .domain) :=
      (complete_bind_ok hops _).trans (complete_bind_error hraise _)
    exact raises_of_error hr hexec

/-! ## The RSA round trip (R192 item 4) -/

/-- Settles O54: by Euler's theorem, since `(p - 1)(q - 1)` is the totient of `p q`. -/
theorem rsaRoundTrip : Obligations.RsaRoundTrip := by
  intro p q e d m hp hq hpq hd hm hlt hcop
  have htotient : Nat.totient (p * q) = (p - 1) * (q - 1) := by
    rw [Nat.totient_mul ((Nat.coprime_primes hp hq).mpr hpq), Nat.totient_prime hp, Nat.totient_prime hq]
  have hinv : e * d % Nat.totient (p * q) = 1 % Nat.totient (p * q) := htotient ▸ mul_ntModinv_mod hd
  have hn : 1 < p * q := by omega
  calc ntModexp (ntModexp m e (p * q)) d (p * q)
      = m ^ (e * d) % (p * q) := by rw [ntModexp_eq, ntModexp_eq, ← Nat.pow_mod, ← pow_mul]
    _ = m ^ 1 % (p * q) := by rw [Nat.pow_totient_mod hn hcop, hinv, ← Nat.pow_totient_mod hn hcop]
    _ = m := by rw [pow_one, Nat.mod_eq_of_lt hlt]

end Sys2Proof.Machine
end

section
/-! The Miller-Rabin round (42_number_theory.md R185, R186) is the strong-probable-prime condition, which every odd prime meets for every
base it does not divide (R192); with it MRBASE and MRTEST (R187 to R189). -/

namespace Sys2Proof.Machine

/-! ## The round as a condition on the base (R186) -/

/-- The strong-probable-prime condition on `x` for the base `a`, where `x - 1 = q · 2^r` (R186). -/
def StrongProbablePrime (x q r a : Nat) : Prop := a ^ q % x = 1 ∨ ∃ j, j < r ∧ a ^ (q * 2 ^ j) % x = x - 1

/-- The squarings pass exactly when one of them reaches `x - 1`: they stop early only at 1, whose squares are all 1. -/
theorem squarings_eq_true_iff {x : Nat} (hx : 3 ≤ x) (n y : Nat) :
    squarings x n y = true ↔ ∃ j, j < n ∧ y ^ (2 * 2 ^ j) % x = x - 1 := by
  induction n generalizing y with
  | zero => simp [squarings]
  | succ n ih =>
    have hfirst : y ^ (2 * 2 ^ 0) % x = y * y % x := by rw [pow_zero, mul_one, sq]
    have hlater (j : Nat) : y ^ (2 * 2 ^ (j + 1)) % x = (y * y % x) ^ (2 * 2 ^ j) % x := by
      rw [← Nat.pow_mod, ← sq, ← pow_mul, pow_succ']
    rw [Nat.exists_lt_succ_left, hfirst]
    simp only [hlater, squarings]
    by_cases hminus : y * y % x = x - 1
    · simp [hminus]
    by_cases hone : y * y % x = 1
    · have hnever : (1 : Nat) % x ≠ x - 1 := by rw [Nat.mod_eq_of_lt (by omega)]; omega
      simp only [hone, one_pow, hnever]
      simp [show (1 : Nat) ≠ x - 1 by omega]
    · simp only [hminus, hone, if_false, false_or]
      exact ih _

theorem exponent_le_of_odd_mul_two_pow_eq {q r q' r' : Nat} (h : q * 2 ^ r = q' * 2 ^ r') (hq' : q' % 2 = 1) : r ≤ r' := by
  have hdvd : 2 ^ r ∣ q' * 2 ^ r' := h ▸ Nat.dvd_mul_left _ _
  have hcop : Nat.Coprime (2 ^ r) q' := (Nat.coprime_two_left.mpr (Nat.odd_iff.mpr hq')).pow_left r
  exact (Nat.pow_dvd_pow_iff_le_right (by decide)).mp (hcop.dvd_of_dvd_mul_left hdvd)

/-- The decomposition of R185 is the only one. -/
theorem odd_mul_two_pow_unique {q r q' r' : Nat} (h : q * 2 ^ r = q' * 2 ^ r') (hq : q % 2 = 1) (hq' : q' % 2 = 1) :
    q = q' ∧ r = r' := by
  obtain rfl : r = r' :=
    le_antisymm (exponent_le_of_odd_mul_two_pow_eq h hq') (exponent_le_of_odd_mul_two_pow_eq h.symm hq)
  exact ⟨Nat.eq_of_mul_eq_mul_right (Nat.two_pow_pos r) h, rfl⟩

theorem decomp_eq {x q r : Nat} (hx : 3 ≤ x) (h : x - 1 = q * 2 ^ r) (hq : q % 2 = 1) : decomp x = (q, r) := by
  obtain ⟨hdecomp, hodd⟩ := decomp_spec (show 2 ≤ x by omega)
  obtain ⟨h1, h2⟩ := odd_mul_two_pow_unique (hdecomp.trans h) hodd hq
  exact Prod.ext h1 h2

/-- The round of R186 tests the strong-probable-prime condition. -/
theorem mrRound_eq_true_iff {x q r : Nat} (hx : 3 ≤ x) (hodd : x % 2 = 1) (h : x - 1 = q * 2 ^ r) (hq : q % 2 = 1) (a : Nat) :
    mrRound x a = true ↔ StrongProbablePrime x q r a := by
  obtain ⟨n, rfl⟩ : ∃ n, r = n + 1 := Nat.exists_eq_succ_of_ne_zero (by rintro rfl; omega)
  have hround : mrRound x a = true ↔ (a ^ q % x = 1 ∨ a ^ q % x = x - 1) ∨ squarings x n (a ^ q % x) = true := by
    simp [mrRound, decomp_eq hx h hq, ntModexp_eq]
  have hlater (j : Nat) : (a ^ q % x) ^ (2 * 2 ^ j) % x = a ^ (q * 2 ^ (j + 1)) % x := by
    rw [← Nat.pow_mod, ← pow_mul, pow_succ']
  rw [hround, StrongProbablePrime, Nat.exists_lt_succ_left, pow_zero, mul_one, squarings_eq_true_iff hx, or_assoc]
  simp only [hlater]

/-! ## Odd primes pass (R192 item 3) -/

/-- Taking square roots of 1 down from `b^(2^r)`: in a domain the first that is not 1 is -1. -/
theorem eq_one_or_pow_eq_neg_one {R : Type} [Ring R] [NoZeroDivisors R] {b : R} {r : Nat} (h : b ^ 2 ^ r = 1) :
    b = 1 ∨ ∃ j, j < r ∧ b ^ 2 ^ j = -1 := by
  induction r with
  | zero => exact .inl (by simpa using h)
  | succ r ih =>
    rw [pow_succ 2 r, pow_mul, sq_eq_one_iff] at h
    rcases h with hone | hminus
    · exact (ih hone).imp_right fun ⟨j, hj, e⟩ => ⟨j, by omega, e⟩
    · exact .inr ⟨r, by omega, hminus⟩

/-- An odd prime is a strong probable prime to every base it does not divide: Fermat's theorem, then square roots of 1. -/
theorem strongProbablePrime_of_prime {x q r a : Nat} (hx : x.Prime) (h : x - 1 = q * 2 ^ r) (ha : ¬ x ∣ a) :
    StrongProbablePrime x q r a := by
  have : Fact x.Prime := ⟨hx⟩
  have hx2 := hx.two_le
  have hne : (a : ZMod x) ≠ 0 := fun e => ha ((ZMod.natCast_eq_zero_iff a x).mp e)
  have hfermat : ((a : ZMod x) ^ q) ^ 2 ^ r = 1 := by rw [← pow_mul, ← h, ZMod.pow_card_sub_one_eq_one hne]
  have hmod {n y : Nat} (hy : y < x) (e : (a : ZMod x) ^ n = (y : Nat)) : a ^ n % x = y := by
    rw [← Nat.mod_eq_of_lt hy]
    exact (ZMod.natCast_eq_natCast_iff' _ _ _).mp (by push_cast; exact e)
  refine (eq_one_or_pow_eq_neg_one hfermat).imp (fun hone => hmod (by omega) (by simpa using hone)) ?_
  rintro ⟨j, hj, hminus⟩
  exact ⟨j, hj, hmod (by omega) (by rw [pow_mul, hminus, Nat.cast_sub (by omega)]; simp)⟩

/-- Every base of R187 is below the candidate and not 0. -/
theorem not_dvd_mrBaseOf (w : Word64) {x : Nat} (hx : 3 ≤ x) : ¬ x ∣ mrBaseOf w x := by
  have hmod := Nat.mod_lt w.toNat (show max 1 (x - 3) > 0 by omega)
  exact Nat.not_dvd_of_pos_of_lt (by unfold mrBaseOf; omega) (by unfold mrBaseOf; omega)

theorem mrRound_of_prime {x : Nat} (hx : x.Prime) (hx3 : 3 ≤ x) (hodd : x % 2 = 1) (w : Word64) :
    mrRound x (mrBaseOf w x) = true := by
  obtain ⟨hdecomp, hq⟩ := decomp_spec (show 2 ≤ x by omega)
  rw [mrRound_eq_true_iff hx3 hodd hdecomp.symm hq]
  exact strongProbablePrime_of_prime hx hdecomp.symm (not_dvd_mrBaseOf w hx3)

/-! ## MRBASE (R189) -/

theorem mrRejects_of_small_or_even {x : Nat} (h : x < 3 ∨ x % 2 = 0) : mrRejects x = true := by simpa [mrRejects] using h

theorem mrRejects_of_odd {x : Nat} (hx : 3 ≤ x) (hodd : x % 2 = 1) : mrRejects x = false := by simp [mrRejects, hx, hodd]

theorem completes_mrbase {s : State} {rs1 rs2 : Reg} (h1 : regVal s rs1 ≠ []) (h2 : regVal s rs2 ≠ [])
    (hx : bvVal (regVal s rs1) < 2 ^ 64) (ha : bvVal (regVal s rs2) < 2 ^ 64) :
    Completes (.mrbase rs1 rs2) s
      (setRes s (if mrRejects (bvVal (regVal s rs1)) then false else mrRound (bvVal (regVal s rs1)) (bvVal (regVal s rs2)))) :=
  completes_of_ok (complete_bind_ok (ntOperands2_ok h1 h2 hx ha) _)

/-- Settles O55: RES is the round's answer, which is the strong-probable-prime condition. -/
theorem mrbaseIsTheStrongProbablePrimeRound : Obligations.MrbaseIsTheStrongProbablePrimeRound := by
  rintro s rs1 rs2 _ _ h1 h2 rfl rfl hx ha
  have hcompletes := completes_mrbase h1 h2 hx ha
  constructor
  · intro hreject
    rwa [mrRejects_of_small_or_even hreject] at hcompletes
  · intro hx3 hodd q r hdecomp hq
    rw [mrRejects_of_odd hx3 hodd] at hcompletes
    exact ⟨_, hcompletes, mrRound_eq_true_iff hx3 hodd hdecomp hq _⟩

/-! ## MRTEST (R188) -/

/-- A word whose round fails decides the test, whether or not words for the later rounds have come. -/
theorem mrRounds_of_failing_word {x n : Nat} {ws : List Word64} (h : ∃ w ∈ ws.take n, mrRound x (mrBaseOf w x) = false) :
    mrRounds x n ws = some false := by
  induction n generalizing ws with
  | zero => simp at h
  | succ n ih =>
    cases ws with
    | nil => simp at h
    | cons w ws =>
      rw [mrRounds]
      split
      case isTrue hpass => exact ih (by simpa [hpass] using h)
      case isFalse => rfl

theorem mrRounds_of_passing_words {x n : Nat} {ws : List Word64} (hn : n ≤ ws.length)
    (h : ∀ w ∈ ws.take n, mrRound x (mrBaseOf w x) = true) : mrRounds x n ws = some true := by
  rw [mrRounds_of_enough hn, List.all_eq_true.mpr h]

/-- With its operand admitted, MRTEST rejects the candidate or runs the rounds. -/
theorem mrtestOutcome_of_operand {s : State} {rs1 : Reg} (h1 : regVal s rs1 ≠ []) (hx : bvVal (regVal s rs1) < 2 ^ 64) :
    mrtestOutcome rs1 s = .ok (if mrRejects (bvVal (regVal s rs1)) then some false
      else mrRounds (bvVal (regVal s rs1)) s.cfg.mrRounds s.rngWords) := by
  rw [mrtestOutcome, ntOperand_ok h1 hx]; rfl

theorem completes_mrtest {s : State} {rs1 : Reg} {b : Bool} (h : mrtestOutcome rs1 s = .ok (some b)) :
    Completes (.mrtest rs1) s (setRes s b) :=
  completes_of_ok (by rw [exec, execMrtest, h])

theorem completes_mrtest_of_odd {s : State} {rs1 : Reg} {b : Bool} (h1 : regVal s rs1 ≠ [])
    (hx : bvVal (regVal s rs1) < 2 ^ 64) (hx3 : 3 ≤ bvVal (regVal s rs1)) (hodd : bvVal (regVal s rs1) % 2 = 1)
    (h : mrRounds (bvVal (regVal s rs1)) s.cfg.mrRounds s.rngWords = some b) : Completes (.mrtest rs1) s (setRes s b) :=
  completes_mrtest (by rw [mrtestOutcome_of_operand h1 hx, mrRejects_of_odd hx3 hodd, ← h]; rfl)

/-- Settles O56: the candidate's rejection, then the rounds on the words that have come. -/
theorem mrtestResult : Obligations.MrtestResult := by
  rintro s rs1 _ h1 rfl hx
  refine ⟨fun hreject => ?_, fun hx3 hodd => ⟨fun hn hpass => ?_, fun hfail => ?_⟩⟩
  · exact completes_mrtest (by rw [mrtestOutcome_of_operand h1 hx, mrRejects_of_small_or_even hreject]; rfl)
  · exact completes_mrtest_of_odd h1 hx hx3 hodd (mrRounds_of_passing_words hn hpass)
  · exact completes_mrtest_of_odd h1 hx hx3 hodd (mrRounds_of_failing_word hfail)

/-- Settles O57: a prime passes the round of every word. -/
theorem mrtestPassesEveryOddPrime : Obligations.MrtestPassesEveryOddPrime := by
  rintro s rs1 _ h1 rfl hx hprime hne hn
  have hodd := hprime.mod_two_eq_one_iff_ne_two.mpr hne
  have hx3 : 3 ≤ bvVal (regVal s rs1) := by have := hprime.two_le; omega
  exact completes_mrtest_of_odd h1 hx hx3 hodd
    (mrRounds_of_passing_words hn fun w _ => mrRound_of_prime hprime hx3 hodd w)

end Sys2Proof.Machine
end

section
/-! The errors of commands and of the host (60_exceptions.md R221 to R229, R232): a command that raises leaves everything but the record, a
recorded error changes nothing of what a pending command writes, E_BUSY comes only from a CMD write, and an MRTEST without words waits. -/

namespace Sys2Proof.Machine

/-! ## A command that raises (R221 to R223) -/

/-- The codes a command can raise are 1 to 5; 6 is E_BUSY, which is the host's (R221). -/
theorem errNumber_range_of_ne_busy {e : ErrCode} (he : e ≠ .busy) : 1 ≤ (errNumber e).toNat ∧ (errNumber e).toNat ≤ 5 := by
  cases e with
  | busy => exact absurd rfl he
  | _ => decide

/-- The results of a command are no part of the error record (R223). -/
theorem wrote_keeps_record {i : Instr} {s s' : State} (h : Wrote i s s') : s'.err = s.err ∧ s'.errCode = s.errCode := by
  cases h <;> exact ⟨rfl, rfl⟩

/-- A command after which ERR is newly 1 took an error that is not E_BUSY. -/
theorem exec_takes_error {i : Instr} {s t : State} (hs : s.err = false) (h : exec i s = .next t) (ht : t.err = true) :
    ∃ e, e ≠ .busy ∧ exec i s = complete s (.error e) := by
  rcases exec_ends i s with (⟨s', hw, e⟩ | ⟨c, hc, e⟩) | ⟨-, -, -, e⟩
  · rw [e] at h
    cases h
    rw [retire_err, (wrote_keeps_record hw).1, hs] at ht
    cases ht
  · exact ⟨c, hc, e⟩
  · rw [e] at h
    cases h
    rw [hs] at ht
    cases ht

theorem withError_of_not_err {s : State} (hs : s.err = false) (n : BitVec 4) (w : CmdWord) :
    withError s n w = { s with err := true, errCode := n, errInfo := w } := by
  simp [withError, hs]

/-- Settles O14: the command took an error, which ends it with the record and no write. -/
theorem errorsArePrecise : Obligations.ErrorsArePrecise := by
  intro i s t c d hr hs h ht
  obtain ⟨e, he, hraise⟩ := exec_takes_error hs h ht
  obtain ⟨hlow, hhigh⟩ := errNumber_range_of_ne_busy he
  refine ⟨errNumber e, hlow, hhigh, ?_⟩
  rw [hraise, complete_error_of_running hr, withError_of_not_err hs] at h
  cases h
  rfl

/-! ## A command that completes after an error was recorded (R227, R229 item a) -/

/-- `s` with an error of code number `n` recorded for the command word `w`. -/
def recorded (s : State) (n : BitVec 4) (w : CmdWord) : State := { s with err := true, errCode := n, errInfo := w }

/-- An error that a command takes is overlaid by the one recorded before it. -/
theorem recorded_enterError (s : State) (c : ErrCode) (v : CmdWord) (n : BitVec 4) (w : CmdWord) :
    recorded (enterError s c v) n w = recorded s n w := by
  unfold enterError
  split <;> rfl

theorem complete_recorded {s t : State} {r : Except ErrCode Write} (n : BitVec 4) (w : CmdWord)
    (h : complete s (r.map (Write.apply s)) = .next t) :
    complete (recorded s n w) (r.map (Write.apply (recorded s n w))) = .next (recorded t n w) := by
  cases r with
  | error c =>
    cases h
    calc complete (recorded s n w) (.error c)
      _ = .next (retire (recorded s n w)) := by rw [complete_error, enterError_of_err rfl]
      _ = .next (retire (recorded (enterError s c (pendingWord s)) n w)) := by rw [recorded_enterError]
  | ok x =>
    cases h
    cases x <;> rfl

/-- A command neither reads the error record nor, once there is one, writes it. -/
theorem exec_recorded {i : Instr} {s t : State} (n : BitVec 4) (w : CmdWord) (h : exec i s = .next t) :
    exec i (recorded s n w) = .next (recorded t n w) := by
  have same : SameOperands s (recorded s n w) := ⟨rfl, rfl, rfl⟩
  rcases exec_of_sameReads i s with ⟨r, hr⟩ | hwait
  · rw [hr s (sameOperands_refl s) rfl] at h
    rw [hr _ same rfl]
    exact complete_recorded n w h
  · rw [hwait s (sameOperands_refl s) rfl] at h
    cases h
    exact hwait _ same rfl

/-- Settles O16: the two next states differ in the error record alone. -/
theorem pendingCommandCompletesAfterBusy : Obligations.PendingCommandCompletesAfterBusy :=
  fun _ _ t n w h => ⟨recorded t n w, exec_recorded n w h, rfl, rfl, rfl, rfl, rfl, rfl, rfl, rfl⟩

/-! ## Where E_BUSY comes from (R221; 70_reset_and_hazards.md R255, R257) -/

theorem noOverrun_of_errCode_eq {s t : State} (h : NoOverrun s) (e : t.errCode = s.errCode) : NoOverrun t := by
  rwa [NoOverrun, e]

theorem noOverrun_enterError {s : State} (h : NoOverrun s) {c : ErrCode} (hc : c ≠ .busy) (w : CmdWord) :
    NoOverrun (enterError s c w) := by
  cases hs : s.err with
  | true => rwa [enterError_of_err hs]
  | false =>
    rw [enterError_of_not_err hs]
    intro hcode
    have hle := (errNumber_range_of_ne_busy hc).2
    rw [show errNumber c = 6#4 from hcode] at hle
    exact absurd hle (by decide)

theorem noOverrun_resetUnit (s : State) : NoOverrun (resetUnit s) := by
  rw [NoOverrun, resetUnit_errCode]
  decide

theorem noOverrun_exec {i : Instr} {s t : State} (h : NoOverrun s) (ht : exec i s = .next t) : NoOverrun t := by
  rcases exec_ends i s with (⟨s', hw, e⟩ | ⟨c, hc, e⟩) | ⟨-, -, -, e⟩ <;> rw [e] at ht <;> cases ht
  · exact noOverrun_of_errCode_eq h (wrote_keeps_record hw).2
  · exact noOverrun_enterError h hc _
  · exact h

/-- The unit's turn takes no E_BUSY: neither does a command, and an ILLEGAL one takes E_ILLEGAL. -/
theorem noOverrun_completionStep {s t : State} (h : NoOverrun s) (ht : completionStep s = .next t) : NoOverrun t := by
  cases hp : s.pending with
  | none =>
    rw [completionStep_of_idle hp] at ht
    cases ht
    exact h
  | some p =>
    cases hd : decode p.cmd with
    | ok i =>
      rw [completionStep_of_decode hp hd] at ht
      exact noOverrun_exec h ht
    | error e =>
      rw [completionStep_of_illegal hp hd] at ht
      cases ht
      exact noOverrun_enterError h (by decide) _

/-- Of the writes of the window only one of CMD, while a command is pending, records E_BUSY. -/
theorem noOverrun_writeWindow {s : State} (h : NoOverrun s) {v : Word64} {r : WindowReg} (hr : ¬ (busy s = true ∧ r = .cmd)) :
    NoOverrun (writeWindow s v r) := by
  rcases writeWindow_cases s v r with e | ⟨-, e⟩ | ⟨-, -, e⟩ | ⟨hcmd, -, hbusy, -⟩ | ⟨-, -, -, e⟩
  · rwa [e]
  · rw [e]; exact h
  · rw [e]; exact noOverrun_resetUnit s
  · exact absurd ⟨hbusy, hcmd⟩ hr
  · rw [e]; exact h

theorem noOverrun_react {s t : State} {i : Input} {rest : List Input} (h : NoOverrun s) (hcmd : ¬ WritesCmdWhileBusy s)
    (hin : s.inputs = i :: rest) (ht : react { s with inputs := rest } i = .next t) : NoOverrun t := by
  have h' : NoOverrun { s with inputs := rest } := h
  cases i with
  | hostRead addr width =>
    obtain ⟨r, rfl⟩ := hostReads_next ht
    exact h
  | hostWrite addr width v =>
    obtain ⟨r, rfl | ⟨reg, hsel, rfl⟩⟩ := hostWrites_next_admits ht
    · exact h
    · refine noOverrun_of_errCode_eq (noOverrun_writeWindow h' (v := v) (r := reg) ?_) rfl
      rintro ⟨hbusy, rfl⟩
      obtain rfl := width_of_selectAccess hsel
      exact hcmd ⟨hbusy, addr, v, rest, hin, hsel⟩
  | unitTurn => exact noOverrun_completionStep h' ht
  | rngWord w =>
    cases ht
    obtain ⟨ws, e⟩ := deliver_eq { s with inputs := rest } w
    rw [e]
    exact h
  | hwReset =>
    cases ht
    exact noOverrun_resetUnit _

/-- Settles O17, by the agent that moves. -/
theorem overrunOnlyFromCmdWriteWhileBusy : Obligations.OverrunOnlyFromCmdWriteWhileBusy := by
  intro s t h hcmd ht
  cases hin : s.inputs with
  | nil =>
    rw [step_of_no_input hin] at ht
    exact noOverrun_completionStep h ht
  | cons i rest =>
    rw [step_of_input hin] at ht
    exact noOverrun_react h hcmd hin ht

/-! ## An MRTEST that waits (R232; 70_reset_and_hazards.md R259) -/

/-- A state that its step leaves as it is stays so for every number of steps. -/
theorem run_of_fixed {s : State} (h : step s = .next s) (k : Nat) : Host.Core.run core k s = .next s := by
  induction k with
  | zero => rfl
  | succ k ih => exact (run_succ_of_step h k).trans ih

/-- The unit's turn leaves a pending MRTEST whose next round has no word as it is (log entry 10). -/
theorem step_of_waiting {s : State} {c d : Word64} {rs1 : Reg} (hr : Running s c d) (hd : decode c = .ok (.mrtest rs1))
    (hin : s.inputs = []) (hwait : mrtestOutcome rs1 s = .ok none) : step s = .next s := by
  rw [step_of_no_input hin, completionStep_of_decode hr hd, exec, execMrtest, hwait]

theorem status_busy_of_running {s : State} {c d : Word64} (hr : Running s c d) : (readWindow s .status).getLsbD 0 = true := by
  obtain ⟨hbusy, -⟩ := statusWord_fields s
  rw [readWindow, hbusy, busy, show s.pending = some ⟨c, d⟩ from hr]
  rfl

/-- Settles O58: the MRTEST waits, so the step is the identity, and a command is pending. -/
theorem mrtestWaitsWithoutWords : Obligations.MrtestWaitsWithoutWords := by
  rintro s c d rs1 _ k hr hd hin hne rfl hlt hx3 hodd hwords hpass
  have hwait : mrtestOutcome rs1 s = .ok none :=
    mrtestOutcome_eq_none_iff.mpr ⟨hne, hlt, hx3, hodd, hwords, hpass⟩
  exact ⟨run_of_fixed (step_of_waiting hr hd hin hwait) k, status_busy_of_running hr⟩

end Sys2Proof.Machine
end

section
/-! The hazards of a pending command (70_reset_and_hazards.md R252, R255, R256, R260): a CMD write meets it or is accepted, a turn of the
unit ends it unless it is an MRTEST, and a reset withdraws it together with its request for a word. -/

namespace Sys2Proof.Machine

/-! ## The end of a pending command (R256, R260) -/

/-- Only an MRTEST can be pending after its own completion step. -/
theorem exec_retires_of_ne_mrtest {i : Instr} (hi : ∀ rs1, i ≠ .mrtest rs1) (s : State) :
    ∃ t, exec i s = .next t ∧ t.pending = none := by
  rcases exec_ends i s with (⟨s', -, e⟩ | ⟨c, -, e⟩) | ⟨rs1, hwaits, -, -⟩
  · exact ⟨retire s', e, rfl⟩
  · exact ⟨retire (enterError s c (pendingWord s)), e, rfl⟩
  · exact absurd hwaits (hi rs1)

/-- Settles O8: a command that decodes ends as its completion step does, and any other ends with E_ILLEGAL. -/
theorem unitTurnEndsEveryOtherCommand : Obligations.UnitTurnEndsEveryOtherCommand := by
  intro s c d hr hother hin
  rw [step_of_no_input hin]
  cases hd : decode c with
  | ok i =>
    have hi : ∀ rs1, i ≠ .mrtest rs1 := fun rs1 e => hother rs1 (by rw [hd, e])
    obtain ⟨t, ht, hp⟩ := exec_retires_of_ne_mrtest hi s
    exact ⟨t, (completionStep_of_decode hr hd).trans ht, hp, (inFrame_exec ht).inputs.trans hin⟩
  | error e => exact ⟨_, completionStep_raises_illegal hr ⟨e, hd⟩, rfl, hin⟩

/-! ## A CMD write (R255) -/

theorem offerCommand_of_err {s : State} (h : s.err = true) (c : Word64) : offerCommand s c = s := if_pos h

theorem offerCommand_of_busy {s : State} (h : s.err = false) (hp : s.pending ≠ none) (c : Word64) :
    offerCommand s c = { s with err := true, errCode := 6#4, errInfo := c.extractLsb' 0 32 } := by
  rw [offerCommand, h, (busy_iff s).mpr hp]
  exact enterError_of_not_err h .busy _

theorem offerCommand_of_idle {s : State} (h : s.err = false) (hp : s.pending = none) (c : Word64) :
    offerCommand s c = { s with pending := some ⟨c, s.dataIn⟩ } := by
  simp [offerCommand, busy, h, hp]

/-- Settles O13: the bus answers `written`, and the unit is offered the command. -/
theorem cmdWriteIsAccepted : Obligations.CmdWriteIsAccepted := by
  intro s c rest hin
  have hoffer : step s = .next { offerCommand { s with inputs := rest } c with reply := some .written } :=
    step_of_hostWrite_at (r := .cmd) rfl hin
  refine ⟨some .written, fun herr => ?discarded, fun herr hp => ?refused, fun herr hp => ?accepted⟩
  case discarded => rw [hoffer, offerCommand_of_err (s := { s with inputs := rest }) herr]
  case refused => rw [hoffer, offerCommand_of_busy (s := { s with inputs := rest }) herr hp]
  case accepted => rw [hoffer, offerCommand_of_idle (s := { s with inputs := rest }) herr hp]

/-! ## A word and a turn after a reset (R252) -/

theorem deliver_of_idle {s : State} (h : s.pending = none) (w : Word64) : deliver s w = s := by
  simp [deliver, wantsWord, h]

/-- A unit with nothing pending discards the word and has nothing to do in its turn. -/
theorem run_word_turn_of_idle {s : State} (hp : s.pending = none) (w : Word64) (rest : List Input) (a : Option BusReply) :
    Host.Core.run core 2 (facing s (.rngWord w :: .unitTurn :: rest) a) = .next (facing s rest a) := by
  have hword : step (facing s (.rngWord w :: .unitTurn :: rest) a) = .next (facing s (.unitTurn :: rest) a) :=
    congrArg Host.Outcome.next (deliver_of_idle (s := facing s (.unitTurn :: rest) a) hp w)
  have hturn : step (facing s (.unitTurn :: rest) a) = .next (facing s rest a) :=
    completionStep_of_idle (s := facing s rest a) hp
  exact (run_succ_of_step hword 1).trans (run_succ_of_step hturn 0)

theorem step_of_hwReset {s : State} {rest : List Input} (hin : s.inputs = .hwReset :: rest) :
    step s = .next (facing (resetUnit s) rest s.reply) := step_of_input hin

theorem step_of_softReset {s : State} {v : Word64} {rest : List Input} (hv : v.getLsbD 0 = true)
    (hin : s.inputs = .hostWrite (s.cfg.base + 0x08) 8 v :: rest) :
    step s = .next (facing (resetUnit s) rest (some .written)) := by
  rw [step_of_hostWrite_at (r := .ctrl) rfl hin, writeWindow, writeCtrl, if_pos hv]
  rfl

/-- Settles O20: either reset leaves nothing pending, so what follows finds an idle unit. -/
theorem resetWithdrawsThePendingCommand : Obligations.ResetWithdrawsThePendingCommand := by
  intro s w rest
  have hidle := run_word_turn_of_idle (resetUnit_pending s) w rest
  exact ⟨fun hin => (run_succ_of_step (step_of_hwReset hin) 2).trans (hidle s.reply),
    fun v hv hin => ⟨some .written, (run_succ_of_step (step_of_softReset hv hin) 2).trans (hidle _)⟩⟩

end Sys2Proof.Machine
end
